-- ==== Sys2Proof/Word.lean ====
section
/-! DEFINITION. The word types of PKC (00_scope.md R9). -/

namespace Sys2Proof

/-- A 64-bit register, operand or result (R9, R23). -/
abbrev Word := BitVec 64

/-- A 32-bit command word (R9, R80). -/
abbrev CmdWord := BitVec 32

/-- One byte of DMEM (R9, R22). -/
abbrev Byte := BitVec 8

end Sys2Proof
end

