-- ==== Sys2Proof/Syntax.lean ====
section
/-! DEFINITION. The commands of PKC, one constructor per row of the opcode map (30_encoding.md R88), with the
fields the command word carries (R81). Operands are no part of the word (R82). -/

namespace Sys2Proof

/-- KIND of a datatype code (R84). -/
inductive DKind where
  | uint | int | fixed | float32 | binary | ternary | bipolar
  | reserved
deriving DecidableEq, Repr

/-- A datatype code as its fields (R84): any pattern of the 16 bits, valid (R85) or not. -/
structure DType where
  kind : DKind
  width : Nat
  frac : Nat
deriving DecidableEq, Repr

/-- The lane formats of R86, codes 0 to 9. -/
inductive LaneFmt where
  | u8 | u16 | u32 | u64 | s8 | s16 | s32 | s64 | f32 | f64
deriving DecidableEq, Repr

/-- A PKC command (R88). -/
inductive Instr where
  | dtInfo (d : DType)
  | dtRange (d : DType)
  | dtReqelems (d : DType)
  | pack (fmt : LaneFmt) (d : DType)
  | unpack (d : DType)
  | accNew
  | accSetbit
  | accSetbits
  | accOrmerge
  | accTobytes
  | accBitstr
  | tvNew
  | tvSetshape
  | tvNslices
  | tvSlice
  | tvStride
  | rbNew
  | rbStore (blk : Bool)
  | rbRead (blk : Bool)
  | rbReadall
  | rbFull
  | rbEmpty
  | rbSize
deriving DecidableEq, Repr

end Sys2Proof
end

