-- ==== Sys2Proof/WellFormed.lean ====
section
/-! DEFINITION. Which commands a command word can spell: the fields of the datatype code fit their bits
(30_encoding.md R84). A code that fits but is invalid (R85) is well-formed: the machine answers it with CONFIG. -/

namespace Sys2Proof

/-- WIDTH fits 7 bits and FRAC fits 6 bits (R84). -/
def DType.wf (d : DType) : Bool := decide (d.width < 128) && decide (d.frac < 64)

/-- A command whose fields fit the command word (R81, R84). -/
def Instr.wf : Instr → Bool
  | .dtInfo d => d.wf
  | .dtRange d => d.wf
  | .dtReqelems d => d.wf
  | .pack _ d => d.wf
  | .unpack d => d.wf
  | .accNew => true
  | .accSetbit => true
  | .accSetbits => true
  | .accOrmerge => true
  | .accTobytes => true
  | .accBitstr => true
  | .tvNew => true
  | .tvSetshape => true
  | .tvNslices => true
  | .tvSlice => true
  | .tvStride => true
  | .rbNew => true
  | .rbStore _ => true
  | .rbRead _ => true
  | .rbReadall => true
  | .rbFull => true
  | .rbEmpty => true
  | .rbSize => true

end Sys2Proof
end

