-- ==== Sys2Proof/Decode.lean ====
section
/-! DEFINITION. The decoder of 30_encoding.md (R80 to R90), total and rejecting by name, and the encoder written
from the same tables. -/

namespace Sys2Proof

/-- Why a command word is ILLEGAL (R90), one name for each of its clauses. -/
inductive DecodeReject where
  | reservedOpcode
  | reservedBits
  | fmtNotUsed
  | fmtReserved
  | blkNotUsed
  | dtypeNotUsed
deriving DecidableEq, Repr

/-- The opcode map's rows (R88). -/
inductive Op where
  | dtInfo | dtRange | dtReqelems
  | pack | unpack
  | accNew | accSetbit | accSetbits | accOrmerge | accTobytes | accBitstr
  | tvNew | tvSetshape | tvNslices | tvSlice | tvStride
  | rbNew | rbStore | rbRead | rbReadall | rbFull | rbEmpty | rbSize
deriving DecidableEq, Repr

/-- The OPC column of R88. -/
def Op.code : Op → Nat
  | .dtInfo => 0x01
  | .dtRange => 0x02
  | .dtReqelems => 0x03
  | .pack => 0x10
  | .unpack => 0x11
  | .accNew => 0x20
  | .accSetbit => 0x21
  | .accSetbits => 0x22
  | .accOrmerge => 0x23
  | .accTobytes => 0x24
  | .accBitstr => 0x25
  | .tvNew => 0x30
  | .tvSetshape => 0x31
  | .tvNslices => 0x32
  | .tvSlice => 0x33
  | .tvStride => 0x34
  | .rbNew => 0x40
  | .rbStore => 0x41
  | .rbRead => 0x42
  | .rbReadall => 0x43
  | .rbFull => 0x44
  | .rbEmpty => 0x45
  | .rbSize => 0x46

/-- Every row of R88, in its order. -/
def Op.all : List Op :=
  [.dtInfo, .dtRange, .dtReqelems, .pack, .unpack,
   .accNew, .accSetbit, .accSetbits, .accOrmerge, .accTobytes, .accBitstr,
   .tvNew, .tvSetshape, .tvNslices, .tvSlice, .tvStride,
   .rbNew, .rbStore, .rbRead, .rbReadall, .rbFull, .rbEmpty, .rbSize]

/-- The FMT column of R88: PACK alone uses it. -/
def Op.usesFmt (o : Op) : Bool := o == .pack

/-- The BLK column of R88: RB_STORE and RB_READ use it. -/
def Op.usesBlk (o : Op) : Bool := o == .rbStore || o == .rbRead

/-- The DTYPE column of R88: the datatype and codec commands use it. -/
def Op.usesDtype (o : Op) : Bool :=
  o == .dtInfo || o == .dtRange || o == .dtReqelems || o == .pack || o == .unpack

/-- The row of an opcode, none for a reserved one (R87). -/
def Op.ofCode (c : Nat) : Option Op := Op.all.find? (fun o => o.code == c)

/-- The value of the `len` bits of a word from bit `lo` on (R10). -/
def bitField (c : CmdWord) (lo len : Nat) : Nat := c.toNat / 2 ^ lo % 2 ^ len

/-- KIND (R84). -/
def DKind.ofCode : Nat → DKind
  | 0 => .uint
  | 1 => .int
  | 2 => .fixed
  | 3 => .float32
  | 4 => .binary
  | 5 => .ternary
  | 6 => .bipolar
  | _ => .reserved

/-- The three bits of KIND (R84). -/
def DKind.code : DKind → Nat
  | .uint => 0
  | .int => 1
  | .fixed => 2
  | .float32 => 3
  | .binary => 4
  | .ternary => 5
  | .bipolar => 6
  | .reserved => 7

/-- The fields of a 16-bit datatype code (R84). -/
def DType.ofCode (x : Nat) : DType :=
  { kind := DKind.ofCode (x % 2 ^ 3), width := x / 2 ^ 3 % 2 ^ 7, frac := x / 2 ^ 10 % 2 ^ 6 }

/-- The 16-bit datatype code of its fields (R84). -/
def DType.code (d : DType) : Nat := d.kind.code + d.width * 2 ^ 3 + d.frac * 2 ^ 10

/-- The lane format of FMT; codes 10 to 15 are reserved (R86). -/
def LaneFmt.ofCode : Nat → Option LaneFmt
  | 0 => some .u8
  | 1 => some .u16
  | 2 => some .u32
  | 3 => some .u64
  | 4 => some .s8
  | 5 => some .s16
  | 6 => some .s32
  | 7 => some .s64
  | 8 => some .f32
  | 9 => some .f64
  | _ => none

/-- The code of a lane format (R86). -/
def LaneFmt.code : LaneFmt → Nat
  | .u8 => 0
  | .u16 => 1
  | .u32 => 2
  | .u64 => 3
  | .s8 => 4
  | .s16 => 5
  | .s32 => 6
  | .s64 => 7
  | .f32 => 8
  | .f64 => 9

/-- The command of an opcode row and the fields it uses (R88). -/
def Op.build (o : Op) (fmt : LaneFmt) (blk : Bool) (d : DType) : Instr :=
  match o with
  | .dtInfo => .dtInfo d
  | .dtRange => .dtRange d
  | .dtReqelems => .dtReqelems d
  | .pack => .pack fmt d
  | .unpack => .unpack d
  | .accNew => .accNew
  | .accSetbit => .accSetbit
  | .accSetbits => .accSetbits
  | .accOrmerge => .accOrmerge
  | .accTobytes => .accTobytes
  | .accBitstr => .accBitstr
  | .tvNew => .tvNew
  | .tvSetshape => .tvSetshape
  | .tvNslices => .tvNslices
  | .tvSlice => .tvSlice
  | .tvStride => .tvStride
  | .rbNew => .rbNew
  | .rbStore => .rbStore blk
  | .rbRead => .rbRead blk
  | .rbReadall => .rbReadall
  | .rbFull => .rbFull
  | .rbEmpty => .rbEmpty
  | .rbSize => .rbSize

/-- The command a word spells, or the clause of R90 that makes it ILLEGAL. -/
def decode (c : CmdWord) : Except DecodeReject Instr :=
  match Op.ofCode (bitField c 0 8) with
  | none => .error .reservedOpcode
  | some o =>
    if bitField c 13 3 ≠ 0 then .error .reservedBits
    else if o.usesFmt = false ∧ bitField c 8 4 ≠ 0 then .error .fmtNotUsed
    else if o.usesBlk = false ∧ bitField c 12 1 ≠ 0 then .error .blkNotUsed
    else if o.usesDtype = false ∧ bitField c 16 16 ≠ 0 then .error .dtypeNotUsed
    else
      match LaneFmt.ofCode (bitField c 8 4) with
      | none => .error .fmtReserved
      | some fmt => .ok (o.build fmt (bitField c 12 1 == 1) (DType.ofCode (bitField c 16 16)))

/-- The opcode row of a command (R88). -/
def Instr.op : Instr → Op
  | .dtInfo _ => .dtInfo
  | .dtRange _ => .dtRange
  | .dtReqelems _ => .dtReqelems
  | .pack _ _ => .pack
  | .unpack _ => .unpack
  | .accNew => .accNew
  | .accSetbit => .accSetbit
  | .accSetbits => .accSetbits
  | .accOrmerge => .accOrmerge
  | .accTobytes => .accTobytes
  | .accBitstr => .accBitstr
  | .tvNew => .tvNew
  | .tvSetshape => .tvSetshape
  | .tvNslices => .tvNslices
  | .tvSlice => .tvSlice
  | .tvStride => .tvStride
  | .rbNew => .rbNew
  | .rbStore _ => .rbStore
  | .rbRead _ => .rbRead
  | .rbReadall => .rbReadall
  | .rbFull => .rbFull
  | .rbEmpty => .rbEmpty
  | .rbSize => .rbSize

/-- FMT of a command: 0 in every command but PACK (R81). -/
def Instr.fmtCode : Instr → Nat
  | .pack fmt _ => fmt.code
  | _ => 0

/-- BLK of a command: 0 in every command but RB_STORE and RB_READ (R81). -/
def Instr.blkCode : Instr → Nat
  | .rbStore blk => blk.toNat
  | .rbRead blk => blk.toNat
  | _ => 0

/-- DTYPE of a command: 0 in every command but the five that use it (R81). -/
def Instr.dtypeCode : Instr → Nat
  | .dtInfo d => d.code
  | .dtRange d => d.code
  | .dtReqelems d => d.code
  | .pack _ d => d.code
  | .unpack d => d.code
  | _ => 0

/-- The word of a command: `DTYPE<<16 | BLK<<12 | FMT<<8 | OPC` (R94). -/
def encode (i : Instr) : CmdWord :=
  BitVec.ofNat 32 (i.op.code + i.fmtCode * 2 ^ 8 + i.blkCode * 2 ^ 12 + i.dtypeCode * 2 ^ 16)

/-- The command the decoder reads from the low `nbits` bits of `w`, none where it rejects them. A command is one
32-bit word (R80), so there is nothing to lay out but the word itself. -/
def decodeTableWord (nbits w : Nat) : Option Instr :=
  (decode (BitVec.ofNat 32 (w % 2 ^ nbits))).toOption

end Sys2Proof
end

