-- ==== Sys2Proof/Config.lean ====
section
/-! DEFINITION. The parameters of a PKC instance (00_scope.md R8) and the values the spec leaves free. -/

namespace Sys2Proof.Config

/-- The unit of `RB_SIZE`'s answer (R8, R219). -/
inductive SizeUnit where
  | elements
  | parts
deriving DecidableEq, Repr, Inhabited

/-- `RB_SIZE_UNIT`, an OPEN parameter of the instance (R219, D26): no value of it is known (log 6). -/
opaque rbSizeUnit : SizeUnit

/-- The answers of the oracle behind `draw(N)` (R12), one for each draw (log 7). -/
opaque draw : Nat → Word

/-- The scheduler's free choices (R257, U14), one for each step taken with no event given (log 2). -/
opaque schedule : Nat → Nat

/-- The parameters of R8 that are fixed per instance, with the HOST_LE strap (log 5). -/
structure Params where
  nports : Nat
  dmemBytes : Nat
  nacc : Nat
  accMaxBits : Nat
  ntv : Nat
  tvMaxRank : Nat
  nrb : Nat
  rbMaxElems : Nat
  hostLe : Bool
deriving DecidableEq, Repr

/-- The "reference" column of R8's table. -/
def Params.reference : Params where
  nports := 2
  dmemBytes := 65536
  nacc := 4
  accMaxBits := 65536
  ntv := 4
  tvMaxRank := 8
  nrb := 4
  rbMaxElems := 65536
  hostLe := true

/-- The "legal values" column of R8's table. -/
abbrev Params.Legal (p : Params) : Prop :=
  (1 ≤ p.nports ∧ p.nports ≤ 16) ∧ (1 ≤ p.dmemBytes ∧ p.dmemBytes ≤ 2 ^ 20) ∧
  (1 ≤ p.nacc ∧ p.nacc ≤ 8) ∧ p.accMaxBits ≤ 8 * p.dmemBytes ∧
  (1 ≤ p.ntv ∧ p.ntv ≤ 8) ∧ (1 ≤ p.tvMaxRank ∧ p.tvMaxRank ≤ 16) ∧
  (1 ≤ p.nrb ∧ p.nrb ≤ 8) ∧ (1 ≤ p.rbMaxElems ∧ p.rbMaxElems ≤ 2 ^ 20)

end Sys2Proof.Config
end

