-- ==== Sys2Proof/Machine/State.lean ====
section
/-! DEFINITION. The state of PKC (10_state.md R20 to R38), the named reasons a step can stop, and reset (R280). -/

namespace Sys2Proof.Machine

open Sys2Proof.Config (Params)

/-- Why the machine stops with a fault. RACE is no reason here: it is state (GSTATUS.FAULT, R236) and the machine
goes on (log 16). -/
inductive Fault where
  /-- Raised by the sequencer alone: the agenda is empty, no port has a step, and some port is not IDLE (R261,
  R262: stuck, not final). Safe: the spec gives such a state no step until reset. -/
  | stuck
deriving DecidableEq, Repr

/-- Why the model gives no step. -/
inductive Refusal where
  /-- Raised by an arm of `exec` that has no meaning; no arm is left that does. Safe. -/
  | notModelled (mnemonic : String)
  /-- Raised by the host's MMIO: an access outside R65, which "has no meaning in the model". Safe. -/
  | hostAccess
  /-- Raised by the sequencer: an event names a port the instance does not have (log 17). Safe. -/
  | noSuchPort
deriving DecidableEq, Repr

/-- The error codes of R250. -/
inductive ErrCode where
  | noError | illegal | config | shape | empty | addr | slot | overlap | range | race
deriving DecidableEq, Repr

/-- STATUS as its fields (R26); bits 7:4 and 63:16 read as 0 and have no storage. -/
structure Status where
  busy : Bool
  waiting : Bool
  result : Bool
  overrun : Bool
  err : ErrCode
deriving DecidableEq, Repr

/-- GSTATUS as its fields (R21). -/
structure GStatus where
  cfgerr : Bool
  fault : Bool
deriving DecidableEq, Repr

/-- Where a port stands with its command (R27). -/
inductive Phase where
  | idle | issued | waiting | held
deriving DecidableEq, Repr

/-- A bank of eight operand registers: OP0..OP7 or LOP[0..7] (R24). -/
structure OpRegs where
  op0 : Word
  op1 : Word
  op2 : Word
  op3 : Word
  op4 : Word
  op5 : Word
  op6 : Word
  op7 : Word
deriving DecidableEq, Repr

/-- A command port: its registers (R23) and its hidden sequencing state (R27). -/
structure Port where
  status : Status
  op : OpRegs
  lop : OpRegs
  res0 : Word
  res1 : Word
  phase : Phase
  lcw : CmdWord
deriving DecidableEq, Repr

/-- The states of an accumulator slot (R31). -/
inductive AccState where
  | free | live | consumed
deriving DecidableEq, Repr

/-- An accumulator slot (R31). -/
structure AccSlot where
  state : AccState
  bytes : List Byte
deriving DecidableEq, Repr

/-- The states of a tensor view slot (R33). -/
inductive TvState where
  | free | live
deriving DecidableEq, Repr

/-- A tensor view slot (R33): `first` and `last` are the spec's `begin` and `end`. -/
structure TvSlot where
  state : TvState
  first : Word
  last : Word
  shape : List Nat
  stride : List Nat
deriving DecidableEq, Repr

/-- The states of a ring slot (R35). -/
inductive RbState where
  | free | live | poisoned
deriving DecidableEq, Repr

/-- The operating modes of a ring (R211). -/
inductive RbMode where
  | st | mt
deriving DecidableEq, Repr

/-- A ring slot (R35). An element of `ebytes` bytes is kept zero-extended. -/
structure RingSlot where
  state : RbState
  mode : RbMode
  parts : Nat
  epp : Nat
  ebytes : Nat
  store : List Word
  rd : Nat
  occ : Nat
  owner : Option Nat
deriving DecidableEq, Repr

/-- DMEM (R22) as its listed bytes; `Memory.blank` is what an unlisted address reads as. -/
abbrev Memory := List Host.Cell

/-- One event of the agenda: what moves next (R72, R257; log 1). -/
inductive Event where
  /-- Port `p` takes its step, if it has one. -/
  | port (p : Nat)
  /-- The host writes the low `8 * width` bits of `v` at an MMIO offset (R64). -/
  | write (offset width : Nat) (v : Word)
  /-- The host reads `width` bytes at an MMIO offset (R64). -/
  | read (offset width : Nat)
  /-- Reset is asserted (R280), with the DMEM contents the launch supplies (R22). -/
  | reset (image : List Host.Cell)
deriving DecidableEq, Repr

/-- The machine: the spec's state (R20), the instance's parameters (R8), and the model's own fields. -/
structure State where
  /-- The instance's parameters; no step changes them (log 5). -/
  cfg : Params
  gstatus : GStatus
  dmem : Memory
  ports : List Port
  accs : List AccSlot
  tvs : List TvSlot
  rbs : List RingSlot
  /-- The model's own: the port whose step is being taken (log 19). -/
  cur : Nat
  /-- The model's own: the events still to come, oldest first (log 1). -/
  agenda : List Event
  /-- The model's own: counts the steps taken by the free scheduler choice (log 2). -/
  tick : Nat
  /-- The model's own: counts the draws made (log 7). -/
  draws : Nat
  /-- The model's own: what the last host read returned (log 18). -/
  hostData : Word
deriving DecidableEq, Repr

/-- R26: every field of STATUS is 0 at reset. -/
def Status.reset : Status :=
  { busy := false, waiting := false, result := false, overrun := false, err := .noError }

/-- R24: OP0..OP7 and LOP are 0 at reset. -/
def OpRegs.reset : OpRegs :=
  { op0 := 0, op1 := 0, op2 := 0, op3 := 0, op4 := 0, op5 := 0, op6 := 0, op7 := 0 }

/-- A port after reset (R38). -/
def Port.reset : Port :=
  { status := Status.reset, op := OpRegs.reset, lop := OpRegs.reset, res0 := 0, res1 := 0, phase := .idle, lcw := 0 }

/-- A FREE accumulator slot (R31, R38). -/
def AccSlot.reset : AccSlot := { state := .free, bytes := [] }

/-- A FREE tensor view slot (R33, R38). -/
def TvSlot.reset : TvSlot := { state := .free, first := 0, last := 0, shape := [], stride := [] }

/-- A FREE ring slot (R35, R38). -/
def RingSlot.reset : RingSlot :=
  { state := .free, mode := .st, parts := 0, epp := 0, ebytes := 1, store := [], rd := 0, occ := 0, owner := none }

/-- The instance `p` right after reset, launched with the DMEM contents `mem` (R38, R280, R281). -/
def State.resetOf (p : Params) (mem : Memory) : State where
  cfg := p
  gstatus := { cfgerr := !p.hostLe, fault := false }
  dmem := mem
  ports := List.replicate p.nports Port.reset
  accs := List.replicate p.nacc AccSlot.reset
  tvs := List.replicate p.ntv TvSlot.reset
  rbs := List.replicate p.nrb RingSlot.reset
  cur := 0
  agenda := []
  tick := 0
  draws := 0
  hostData := 0

/-- The reference instance (R8) right after reset, launched with an all-zero DMEM (log 4, log 5). -/
def State.reset : State := State.resetOf Params.reference []

end Sys2Proof.Machine
end

