-- ==== Sys2Proof/Machine/Flags.lean ====
section
/-! DEFINITION. STATUS and GSTATUS: the words the host reads (10_state.md R21, R26), and what issue, completion and
the host's writes do to the fields (R28 to R30, 60_exceptions.md R250, R253). RESULT is the only flag (R30). -/

namespace Sys2Proof.Machine

/-- The codes of R250. -/
def ErrCode.code : ErrCode → Nat
  | .noError => 0x00
  | .illegal => 0x01
  | .config => 0x02
  | .shape => 0x03
  | .empty => 0x04
  | .addr => 0x05
  | .slot => 0x06
  | .overlap => 0x07
  | .range => 0x08
  | .race => 0x09

/-- STATUS as the host reads it: BUSY 0, WAITING 1, RESULT 2, OVERRUN 3, ERR 15:8 (R26). -/
def Status.toWord (st : Status) : Word :=
  BitVec.ofNat 64
    (st.busy.toNat + st.waiting.toNat * 2 + st.result.toNat * 4 + st.overrun.toNat * 8 + st.err.code * 2 ^ 8)

/-- GSTATUS as the host reads it: CFGERR 0, FAULT 1 (R21). -/
def GStatus.toWord (g : GStatus) : Word := BitVec.ofNat 64 (g.cfgerr.toNat + g.fault.toNat * 2)

/-- Issue: BUSY <- 1, WAITING <- 0, the rest unchanged (R28). -/
def Status.onIssue (st : Status) : Status := { st with busy := true, waiting := false }

/-- A CMD write while not IDLE: OVERRUN <- 1 (R28). -/
def Status.onOverrun (st : Status) : Status := { st with overrun := true }

/-- A host write of `v` to STATUS: bit 3 set clears OVERRUN, every other bit is ignored (R29). -/
def Status.onHostWrite (st : Status) (v : Word) : Status :=
  if v.getLsbD 3 then { st with overrun := false } else st

/-- Completion by `complete(r)` (R253). -/
def Status.onComplete (st : Status) (r : Bool) : Status :=
  { st with busy := false, waiting := false, result := r, err := .noError }

/-- Completion by `raise Error(code)` (R253). -/
def Status.onError (st : Status) (code : ErrCode) : Status :=
  { st with busy := false, waiting := false, result := false, err := code }

/-- STATUS.WAITING of a command that stays in flight (R26, R232, R235). -/
def Status.onWait (st : Status) (w : Bool) : Status := { st with waiting := w }

end Sys2Proof.Machine
end

