-- ==== Sys2Proof/Machine/Ops.lean ====
section
/-! DEFINITION. The named operations over DMEM, the ports and the slot files (00_scope.md R12, 10_state.md), and the
two ways a command ends (60_exceptions.md R253). PKC has no trap and no return from one (R255): `raiseError` is the
only thing an error does. -/

namespace Sys2Proof.Machine

/-! ### DMEM -/

/-- What an unlisted byte of DMEM reads as (log 4). -/
def Memory.blank : Byte := 0

/-- The byte DMEM[a] (R22). -/
def Memory.byte : Memory → Nat → Byte
  | [], _ => Memory.blank
  | c :: t, a => if c.1 = a then c.2 else Memory.byte t a

/-- A cell put before the first one with a higher address. -/
def Memory.insert : Memory → Host.Cell → Memory
  | [], c => [c]
  | d :: t, c => if c.1 < d.1 then c :: d :: t else d :: Memory.insert t c

/-- DMEM with DMEM[a] <- v, in canonical form: addresses rising, no entry that reads as unlisted. -/
def Memory.put (m : Memory) (a : Nat) (v : Byte) : Memory :=
  let rest := m.filter (fun c => c.1 ≠ a)
  if v = Memory.blank then rest else Memory.insert rest (a, v)

/-- The canonical form of DMEM. -/
abbrev Memory.wf (m : Memory) : Prop :=
  m.Pairwise (fun c d => c.1 < d.1) ∧ ∀ c ∈ m, c.2 ≠ Memory.blank

/-- `MemRead(a, n)`: the n bytes from a on, little-endian (R12, R61). -/
def memRead (m : Memory) (a : Nat) : Nat → Nat
  | 0 => 0
  | n + 1 => (m.byte a).toNat + 2 ^ 8 * memRead m (a + 1) n

/-- `MemWrite(a, n, v)`: `bits_{8n}(v)` as n bytes, least significant byte at a (R12, R61). -/
def memWrite (m : Memory) (a : Nat) : Nat → Nat → Memory
  | 0, _ => m
  | n + 1, v => memWrite (m.put a (BitVec.ofNat 8 v)) (a + 1) n (v / 2 ^ 8)

/-- Bytes written one after the other from a on. -/
def writeBytes (m : Memory) (a : Nat) : List Byte → Memory
  | [] => m
  | v :: vs => writeBytes (m.put a v) (a + 1) vs

/-- Values of `b` bytes each, read one after the other from a on. -/
def readLanes (m : Memory) (a b n : Nat) : List Nat :=
  (List.range n).map (fun i => memRead m (a + i * b) b)

/-- Values written as `b` bytes each, one after the other from a on. -/
def writeLanes (m : Memory) (a b : Nat) : List Nat → Memory
  | [] => m
  | v :: vs => writeLanes (memWrite m a b v) (a + b) b vs

/-- `InRange(a, n)` on mathematical integers (R12, R67). -/
abbrev State.inRange (s : State) (a n : Nat) : Prop := a + n ≤ s.cfg.dmemBytes

/-- Whether the ranges [a, a+n) and [b, b+m) share a byte (R69). -/
abbrev rangesMeet (a n b m : Nat) : Prop := max a b < min (a + n) (b + m)

/-- The DMEM a launch image gives: its cells inside DMEM, in canonical form (R22; log 4). -/
def Memory.ofImage (size : Nat) (image : List Host.Cell) : Memory :=
  image.foldl (fun m c => if c.1 < size then m.put c.1 c.2 else m) []

/-- s with another DMEM. -/
def State.setMem (s : State) (m : Memory) : State := { s with dmem := m }

/-! ### Ports -/

/-- The port whose step is being taken. -/
def State.port (s : State) : Port := s.ports.getD s.cur Port.reset

/-- s with that port's registers replaced. -/
def State.setPort (s : State) (p : Port) : State := { s with ports := s.ports.set s.cur p }

/-- `OP[i]` of the executing command: its latched operands (R12, R24). -/
def State.lop (s : State) : OpRegs := s.port.lop

/-- Issue of the command word c on a port (R28): the word and the operands are latched. -/
def Port.issue (p : Port) (c : CmdWord) : Port :=
  { p with lcw := c, lop := p.op, status := p.status.onIssue, phase := .issued }

/-- OPi of a bank (R24); there are eight. -/
def OpRegs.get (r : OpRegs) : Nat → Word
  | 0 => r.op0
  | 1 => r.op1
  | 2 => r.op2
  | 3 => r.op3
  | 4 => r.op4
  | 5 => r.op5
  | 6 => r.op6
  | 7 => r.op7
  | _ => 0

/-- A bank with OPi replaced (R24). -/
def OpRegs.put (r : OpRegs) (i : Nat) (v : Word) : OpRegs :=
  match i with
  | 0 => { r with op0 := v }
  | 1 => { r with op1 := v }
  | 2 => { r with op2 := v }
  | 3 => { r with op3 := v }
  | 4 => { r with op4 := v }
  | 5 => { r with op5 := v }
  | 6 => { r with op6 := v }
  | 7 => { r with op7 := v }
  | _ => r

/-! ### How a command ends (R253) -/

/-- `complete(r)` with RES0 and RES1 as the command's rule writes them. -/
def State.complete (s : State) (r : Bool) (res0 res1 : Nat) : State :=
  s.setPort { s.port with
    res0 := BitVec.ofNat 64 res0
    res1 := BitVec.ofNat 64 res1
    status := s.port.status.onComplete r
    phase := .idle }

/-- `raise Error(code)`: the one thing an error does (R253, R255). -/
def State.raiseError (s : State) (code : ErrCode) : State :=
  s.setPort { s.port with
    res0 := 0
    res1 := 0
    status := s.port.status.onError code
    phase := .idle }

/-- The command stays in flight in another phase (R232, R235). -/
def State.enterPhase (s : State) (ph : Phase) (waiting : Bool) : State :=
  s.setPort { s.port with status := s.port.status.onWait waiting, phase := ph }

/-- A step that ends the command by `complete(r)`. -/
def done (s : State) (r : Bool) (res0 res1 : Nat) : Host.Outcome State Fault Refusal :=
  .next (s.complete r res0 res1)

/-- A step that ends the command by `raise Error(code)`. -/
def failWith (s : State) (code : ErrCode) : Host.Outcome State Fault Refusal := .next (s.raiseError code)

/-- The common check that a decoded command starts with (R252 (1)); the decode check (2) has passed. -/
def checked (s : State) (k : Host.Outcome State Fault Refusal) : Host.Outcome State Fault Refusal :=
  if s.gstatus.cfgerr then failWith s .config else k

/-- An ILLEGAL command word, after the common check (R90, R252). -/
def illegalWord (s : State) : Host.Outcome State Fault Refusal := checked s (failWith s .illegal)

/-! ### Slots -/

/-- s with ACC[k] replaced. -/
def State.setAcc (s : State) (k : Nat) (a : AccSlot) : State := { s with accs := s.accs.set k a }

/-- s with TV[k] replaced. -/
def State.setTv (s : State) (k : Nat) (t : TvSlot) : State := { s with tvs := s.tvs.set k t }

/-- s with RB[k] replaced. -/
def State.setRing (s : State) (k : Nat) (r : RingSlot) : State := { s with rbs := s.rbs.set k r }

/-- GSTATUS.FAULT <- 1 (R236). -/
def State.setFault (s : State) : State := { s with gstatus := { s.gstatus with fault := true } }

end Sys2Proof.Machine
end

