-- ==== Sys2Proof/Machine/Float.lean ====
section
/-! DEFINITION. Two's complement fields (00_scope.md R11) and the IEEE-754 values of R13: exact values of binary32 and
binary64 patterns, and rounding to binary32. The layout of the two formats is IEEE-754's (93 G1, G2; log 11). -/

namespace Sys2Proof.Machine

/-- `bits_N(x)`: the N-bit pattern of an integer (R11). -/
def bitsOf (n : Nat) (x : Int) : Nat := (x % (2 ^ n : Nat)).toNat

/-- `sext_N(v)`: an N-bit pattern read as two's complement (R11). -/
def signed (n v : Nat) : Int := if v.testBit (n - 1) then (v : Int) - (2 ^ n : Nat) else v

/-- `draw(N)`: the k-th free value, cut to N bits (R12; log 7). -/
def drawBits (k n : Nat) : Nat := (Config.draw k).toNat % 2 ^ n

/-- The value of a float pattern: NaN, an infinity, or exactly `(-1)^neg * mag * 2^exp` (R13). -/
inductive FVal where
  | nan
  | inf (neg : Bool)
  | fin (neg : Bool) (mag : Nat) (exp : Int)
deriving DecidableEq, Repr

/-- The value of a pattern with `eb` exponent bits and `fb` fraction bits (IEEE-754; log 11). -/
def floatVal (eb fb x : Nat) : FVal :=
  let neg := x.testBit (eb + fb)
  let e := x / 2 ^ fb % 2 ^ eb
  let f := x % 2 ^ fb
  if e = 2 ^ eb - 1 then (if f = 0 then .inf neg else .nan)
  else if e = 0 then .fin neg f (2 - 2 ^ (eb - 1) - fb)
  else .fin neg (2 ^ fb + f) ((e : Int) + 1 - 2 ^ (eb - 1) - fb)

/-- `f32(x)` (R13). -/
def f32Val (x : Nat) : FVal := floatVal 8 23 x

/-- `f64(x)` (R13). -/
def f64Val (x : Nat) : FVal := floatVal 11 52 x

/-- `trunc` of the magnitude `mag * 2^exp` (R13). -/
def truncMag (mag : Nat) (exp : Int) : Nat :=
  if 0 ≤ exp then mag * 2 ^ exp.toNat else mag / 2 ^ (-exp).toNat

/-- `trunc(r)` for `r = (-1)^neg * mag * 2^exp`: toward zero (R13). -/
def truncVal (neg : Bool) (mag : Nat) (exp : Int) : Int :=
  if neg then -(truncMag mag exp : Int) else truncMag mag exp

/-- `conv(v * 2^f)`: none stands for DRAW (R133, R137). -/
def convScaled (f : Nat) : FVal → Option Int
  | .nan => none
  | .inf _ => none
  | .fin neg mag exp =>
    let t := truncVal neg mag (exp + f)
    if -2 ^ 63 ≤ t ∧ t < 2 ^ 64 then some t else none

/-- Whether `mag * 2^exp` is exactly 1 (R135). -/
def isOne (mag : Nat) (exp : Int) : Bool :=
  if 0 ≤ exp then mag * 2 ^ exp.toNat == 1 else mag == 2 ^ (-exp).toNat

/-- A natural divided by `2^k`, rounded to nearest, ties to even (R13). -/
def roundShift (m k : Nat) : Nat :=
  let q := m / 2 ^ k
  let r := m % 2 ^ k
  if 2 * r < 2 ^ k then q
  else if 2 ^ k < 2 * r then q + 1
  else if k = 0 then q
  else q + q % 2

/-- The exponent of the binary32 grid around `mag * 2^exp`: 24 significant bits, never below `2^-149` (R13). -/
def gridExp (mag : Nat) (exp : Int) : Int := max (exp + Nat.log2 mag - 23) (-149)

/-- `mag * 2^exp` in units of the grid, rounded to nearest, ties to even. -/
def gridUnits (mag : Nat) (exp : Int) : Nat :=
  let q := gridExp mag exp
  if q ≤ exp then mag * 2 ^ (exp - q).toNat else roundShift mag (q - exp).toNat

/-- `rne32` of the magnitude `mag * 2^exp`: the pattern without its sign bit; beyond the range, infinity (R13,
R134). -/
def rneMag (mag : Nat) (exp : Int) : Nat :=
  if mag = 0 then 0
  else min ((gridExp mag exp + 149).toNat * 2 ^ 23 + gridUnits mag exp) 0x7F800000

/-- `rne32(r)` for `r = num * 2^exp`; a zero is the pattern of +0 (R13; log 10). -/
def rne32 (num : Int) (exp : Int) : Nat :=
  rneMag num.natAbs exp + (if num < 0 then 2 ^ 31 else 0)

/-- `draw_nan32()`: any pattern with bits 30:23 all 1 and bits 22:0 not all 0 (R134; log 8). -/
def drawNan32 (k : Nat) : Nat :=
  let r := drawBits k 32
  let frac := r % 2 ^ 23
  (r / 2 ^ 31) * 2 ^ 31 + 0x7F800000 + (if frac = 0 then 1 else frac)

end Sys2Proof.Machine
end

