-- ==== Sys2Proof/Machine/Operands.lean ====
section
/-! DEFINITION. The operand forms: datatype descriptors (30_encoding.md R85, 41_datatype.md R110, R114), lane formats
and lane values (R86), output lanes (42_codec.md R152), and the slot operands (43 R170, 44 R190, 45 R212). -/

namespace Sys2Proof.Machine

/-! ### Datatype descriptors -/

/-- A descriptor's scalar fields (R110). -/
structure Descriptor where
  kind : DKind
  w : Nat
  sign : Bool
  isInteger : Bool
  isFixedPoint : Bool
  fracBits : Nat
deriving DecidableEq, Repr

/-- Whether a datatype code is valid: the table of R85. -/
def dtypeValid (d : DType) : Bool :=
  match d.kind with
  | .uint => decide (1 ≤ d.width ∧ d.width ≤ 64 ∧ d.frac = 0)
  | .int => decide (1 ≤ d.width ∧ d.width ≤ 64 ∧ d.frac = 0)
  | .fixed => decide (1 ≤ d.width ∧ d.width ≤ 64 ∧ d.frac ≤ d.width - 1)
  | .float32 => decide (d.width = 32 ∧ d.frac = 0)
  | .binary => decide (d.width = 1 ∧ d.frac = 0)
  | .ternary => decide (d.width = 2 ∧ d.frac = 0)
  | .bipolar => decide (d.width = 1 ∧ d.frac = 0)
  | .reserved => false

/-- The descriptor of a valid code: the table of R110. -/
def describe (d : DType) : Descriptor :=
  match d.kind with
  | .uint => ⟨.uint, d.width, false, true, false, 0⟩
  | .int => ⟨.int, d.width, true, true, false, 0⟩
  | .fixed => ⟨.fixed, d.width, true, false, true, d.frac⟩
  | .float32 => ⟨.float32, 32, true, false, false, 0⟩
  | .binary => ⟨.binary, 1, false, true, false, 0⟩
  | .ternary => ⟨.ternary, 2, true, true, false, 0⟩
  | .bipolar => ⟨.bipolar, 1, true, true, false, 0⟩
  | .reserved => ⟨.reserved, d.width, false, false, false, 0⟩

/-- The common check of a command that takes a DTYPE: CONFIG when the code is invalid (R85, R252 (3)). -/
def withDescriptor (s : State) (d : DType) (k : Descriptor → Host.Outcome State Fault Refusal) :
    Host.Outcome State Fault Refusal :=
  if dtypeValid d then k (describe d) else failWith s .config

/-- A real as `num * 2^exp`: the bounds of R114. -/
structure Dyadic where
  num : Int
  exp : Int
deriving DecidableEq, Repr

/-- `min()` (R114). -/
def Descriptor.min (D : Descriptor) : Dyadic :=
  match D.kind with
  | .uint => ⟨0, 0⟩
  | .int => ⟨-2 ^ (D.w - 1), 0⟩
  | .fixed => ⟨-2 ^ (D.w - 1), -D.fracBits⟩
  | .float32 => ⟨-(2 ^ 24 - 1), 104⟩
  | .binary => ⟨0, 0⟩
  | .ternary => ⟨-1, 0⟩
  | .bipolar => ⟨-1, 0⟩
  | .reserved => ⟨0, 0⟩

/-- `max()` (R114). -/
def Descriptor.max (D : Descriptor) : Dyadic :=
  match D.kind with
  | .uint => ⟨2 ^ D.w - 1, 0⟩
  | .int => ⟨2 ^ (D.w - 1) - 1, 0⟩
  | .fixed => ⟨2 ^ (D.w - 1) - 1, -D.fracBits⟩
  | .float32 => ⟨2 ^ 24 - 1, 104⟩
  | .binary => ⟨1, 0⟩
  | .ternary => ⟨1, 0⟩
  | .bipolar => ⟨1, 0⟩
  | .reserved => ⟨0, 0⟩

/-! ### Lane formats -/

/-- The bytes of a lane (R86). -/
def laneBytes : LaneFmt → Nat
  | .u8 => 1
  | .u16 => 2
  | .u32 => 4
  | .u64 => 8
  | .s8 => 1
  | .s16 => 2
  | .s32 => 4
  | .s64 => 8
  | .f32 => 4
  | .f64 => 8

/-- The value of a lane: an integer, or a float (R86). -/
inductive LaneVal where
  | int (v : Int)
  | flt (v : FVal)
deriving DecidableEq, Repr

/-- `lanevalue(L, x)`: the value of the lane pattern x (R86). -/
def laneValue (L : LaneFmt) (x : Nat) : LaneVal :=
  match L with
  | .u8 => .int x
  | .u16 => .int x
  | .u32 => .int x
  | .u64 => .int x
  | .s8 => .int (signed 8 x)
  | .s16 => .int (signed 16 x)
  | .s32 => .int (signed 32 x)
  | .s64 => .int (signed 64 x)
  | .f32 => .flt (f32Val x)
  | .f64 => .flt (f64Val x)

/-- `outlane(D)`: the table of R152. -/
def outlane (D : Descriptor) : LaneFmt :=
  match D.kind with
  | .uint => if D.w ≤ 8 then .u8 else if D.w ≤ 16 then .u16 else if D.w ≤ 32 then .u32 else .u64
  | .int => if D.w ≤ 8 then .s8 else if D.w ≤ 16 then .s16 else if D.w ≤ 32 then .s32 else .s64
  | .binary => .u8
  | .ternary => .s8
  | .bipolar => .s8
  | .fixed => .f32
  | .float32 => .f32
  | .reserved => .u8

/-- `lanevalue64(L, v)` of a bound: `rne32(v)` in the F32 lane, `bits_64(v)` in an integer lane, where every bound is
an integer (R112). -/
def laneValue64 (L : LaneFmt) (v : Dyadic) : Nat :=
  match L with
  | .f32 => rne32 v.num v.exp
  | .f64 => 0
  | .u8 => bitsOf 64 v.num
  | .u16 => bitsOf 64 v.num
  | .u32 => bitsOf 64 v.num
  | .u64 => bitsOf 64 v.num
  | .s8 => bitsOf 64 v.num
  | .s16 => bitsOf 64 v.num
  | .s32 => bitsOf 64 v.num
  | .s64 => bitsOf 64 v.num

/-! ### Slot operands -/

/-- The range check of an ACC slot operand (R170): ACC_NEW takes a slot in any state. -/
def withAccSlot (s : State) (k : Nat) (f : AccSlot → Host.Outcome State Fault Refusal) :
    Host.Outcome State Fault Refusal :=
  match s.accs[k]? with
  | none => failWith s .slot
  | some a => f a

/-- The slot check of every other ACC command: in range and LIVE (R170). -/
def withAcc (s : State) (k : Nat) (f : AccSlot → Host.Outcome State Fault Refusal) :
    Host.Outcome State Fault Refusal :=
  withAccSlot s k fun a => if a.state = .live then f a else failWith s .slot

/-- The range check of a TV slot operand (R190): TV_NEW takes a slot in any state. -/
def withTvSlot (s : State) (k : Nat) (f : TvSlot → Host.Outcome State Fault Refusal) :
    Host.Outcome State Fault Refusal :=
  match s.tvs[k]? with
  | none => failWith s .slot
  | some t => f t

/-- `tvslot` of every other TV command: in range and LIVE (R190). -/
def withTv (s : State) (k : Nat) (f : TvSlot → Host.Outcome State Fault Refusal) :
    Host.Outcome State Fault Refusal :=
  withTvSlot s k fun t => if t.state = .live then f t else failWith s .slot

/-- `rbslot`: SLOT out of range or FREE, RACE when POISONED (R212). -/
def withRing (s : State) (k : Nat) (f : RingSlot → Host.Outcome State Fault Refusal) :
    Host.Outcome State Fault Refusal :=
  match s.rbs[k]? with
  | none => failWith s .slot
  | some r =>
    match r.state with
    | .free => failWith s .slot
    | .poisoned => failWith s .race
    | .live => f r

end Sys2Proof.Machine
end

