-- ==== Sys2Proof/Machine/Datatype.lean ====
section
/-! DEFINITION. The datatype commands (41_datatype.md R111 to R113, R115). -/

namespace Sys2Proof.Machine

/-- The flags word of DT_INFO (R111): sign, isInteger << 1, isFixedPoint << 2, fracBits << 8. -/
def infoFlags (D : Descriptor) : Nat :=
  D.sign.toNat + D.isInteger.toNat * 2 + D.isFixedPoint.toNat * 4 + D.fracBits * 2 ^ 8

/-- DT_INFO (R111). -/
def execDtInfo (d : DType) (s : State) : Host.Outcome State Fault Refusal :=
  checked s <| withDescriptor s d fun D => done s true D.w (infoFlags D)

/-- DT_RANGE (R112). -/
def execDtRange (d : DType) (s : State) : Host.Outcome State Fault Refusal :=
  checked s <| withDescriptor s d fun D =>
    done s true (laneValue64 (outlane D) D.min) (laneValue64 (outlane D) D.max)

/-- `ceil(a / b)` (R11). -/
def ceilDiv (a b : Nat) : Nat := (a + b - 1) / b

/-- The storage unit widths DT_REQELEMS and ACC_SETBITS take (R113, R173). -/
abbrev unitWidth (u : Nat) : Prop := u = 8 ∨ u = 16 ∨ u = 32 ∨ u = 64

/-- DT_REQELEMS (R113). -/
def execDtReqelems (d : DType) (s : State) : Host.Outcome State Fault Refusal :=
  checked s <| withDescriptor s d fun D =>
    let u := s.lop.op0.toNat
    if unitWidth u then done s true (if D.w ≤ u then 1 else ceilDiv D.w u) 0
    else failWith s .config

end Sys2Proof.Machine
end

