-- ==== Sys2Proof/Machine/Codec.lean ====
section
/-! DEFINITION. The codec: PACK and UNPACK (42_codec.md R130 to R154). -/

namespace Sys2Proof.Machine

/-! ### Encoding one element -/

/-- A field from an integer or DRAW (R133, R136). -/
def fieldOf (w k : Nat) : Option Int → Nat
  | some t => bitsOf w t
  | none => drawBits k w

/-- `fixedfield` (R133): the value scaled left by f, then cut to W bits. -/
def fixedField (D : Descriptor) (k : Nat) : LaneVal → Nat
  | .int v => fieldOf D.w k (some (v * 2 ^ D.fracBits))
  | .flt v => fieldOf D.w k (convScaled D.fracBits v)

/-- An F64 value as a binary32 pattern (R134): NaN draws a NaN, infinities keep their sign, a finite value rounds;
the sign of a zero made from a value with its sign bit set is free (log 9). -/
def f64Field (k : Nat) : FVal → Nat
  | .nan => drawNan32 k
  | .inf neg => 0x7F800000 + neg.toNat * 2 ^ 31
  | .fin neg mag exp =>
    let p := rneMag mag exp
    if neg then (if p = 0 then drawBits k 1 * 2 ^ 31 else p + 2 ^ 31) else p

/-- `f32field` (R134): an F32 lane keeps its pattern, every other lane converts by value. -/
def f32Field (L : LaneFmt) (k x : Nat) : Nat :=
  match L with
  | .f32 => x
  | .f64 => f64Field k (f64Val x)
  | L =>
    match laneValue L x with
    | .int v => rne32 v 0
    | .flt _ => 0

/-- `bipolarfield` (R135): 1 for +1, 0 for -1, any bit otherwise. -/
def bipolarField (k : Nat) : LaneVal → Nat
  | .int v => if v = 1 then 1 else if v = -1 then 0 else drawBits k 1
  | .flt (.fin neg mag exp) => if isOne mag exp then (if neg then 0 else 1) else drawBits k 1
  | .flt _ => drawBits k 1

/-- `intfield` (R136). -/
def intField (D : Descriptor) (k : Nat) : LaneVal → Nat
  | .int v => fieldOf D.w k (some v)
  | .flt v => fieldOf D.w k (convScaled 0 v)

/-- `enc(D, L, x)` with the k-th draw (R131). The fast path of R132 gives the same field. -/
def encField (D : Descriptor) (L : LaneFmt) (k x : Nat) : Nat :=
  match D.kind with
  | .fixed => fixedField D k (laneValue L x)
  | .float32 => f32Field L k x
  | .bipolar => bipolarField k (laneValue L x)
  | .uint => intField D k (laneValue L x)
  | .int => intField D k (laneValue L x)
  | .binary => intField D k (laneValue L x)
  | .ternary => intField D k (laneValue L x)
  | .reserved => 0

/-- The sum of F[i] * 2^(i*W): fields laid end to end with no padding (R139, R62). -/
def packSum (w : Nat) : List Nat → Nat
  | [] => 0
  | f :: fs => f + 2 ^ w * packSum w fs

/-- The fields F[0..n-1] of the lanes at src (R139); element i takes draw `s.draws + i` (log 7). -/
def packFields (s : State) (D : Descriptor) (L : LaneFmt) (src n : Nat) : List Nat :=
  (List.range n).map fun i => encField D L (s.draws + i) (memRead s.dmem (src + i * laneBytes L) (laneBytes L))

/-- PACK (R139, R140). -/
def execPack (fmt : LaneFmt) (d : DType) (s : State) : Host.Outcome State Fault Refusal :=
  checked s <| withDescriptor s d fun D =>
    let lb := laneBytes fmt
    let src := s.lop.op0.toNat
    let n := s.lop.op1.toNat
    let dst := s.lop.op2.toNat
    let nb := ceilDiv (n * D.w) 8
    if ¬ s.inRange src (n * lb) then failWith s .addr
    else if ¬ s.inRange dst nb then failWith s .addr
    else if 0 < n ∧ rangesMeet src (n * lb) dst nb then failWith s .overlap
    else
      let S := packSum D.w (packFields s D fmt src n)
      done { s with dmem := memWrite s.dmem dst nb S, draws := s.draws + n } true nb (8 * nb - n * D.w)

/-! ### Decoding one element -/

/-- `raw_i`: element i of the packed bytes from src on (R150). -/
def rawField (m : Memory) (src len w i : Nat) : Nat := memRead m src len / 2 ^ (i * w) % 2 ^ w

/-- The lane pattern of a field (R151, R153) in `outlane(D)`. -/
def decLane (D : Descriptor) (raw : Nat) : Nat :=
  let bits := 8 * laneBytes (outlane D)
  match D.kind with
  | .uint => raw
  | .binary => raw
  | .int => bitsOf bits (signed D.w raw)
  | .ternary => bitsOf bits (signed D.w raw)
  | .fixed => rne32 (signed D.w raw) (-D.fracBits)
  | .float32 => raw
  | .bipolar => bitsOf bits (if raw = 1 then 1 else -1)
  | .reserved => 0

/-- UNPACK (R149). -/
def execUnpack (d : DType) (s : State) : Host.Outcome State Fault Refusal :=
  checked s <| withDescriptor s d fun D =>
    let src := s.lop.op0.toNat
    let len := s.lop.op1.toNat
    let p := s.lop.op2.toNat
    let dst := s.lop.op3.toNat
    if len = 0 then failWith s .empty
    else if 7 < p then failWith s .shape
    else if (8 * len - p) % D.w ≠ 0 then failWith s .shape
    else
      let n := (8 * len - p) / D.w
      let lb := laneBytes (outlane D)
      if ¬ s.inRange src len then failWith s .addr
      else if ¬ s.inRange dst (n * lb) then failWith s .addr
      else if rangesMeet src len dst (n * lb) then failWith s .overlap
      else
        let lanes := (List.range n).map fun i => decLane D (rawField s.dmem src len D.w i)
        done (s.setMem (writeLanes s.dmem dst lb lanes)) true n (outlane D).code

end Sys2Proof.Machine
end

