-- ==== Sys2Proof/Machine/BitAcc.lean ====
section
/-! DEFINITION. The bit accumulator commands (43_bitacc.md R170 to R178). -/

namespace Sys2Proof.Machine

/-- `nbytes` of an accumulator (R31). -/
def AccSlot.nbytes (a : AccSlot) : Nat := a.bytes.length

/-- Bit k of an accumulator image: bit k mod 8 of byte k / 8 (R62, R172). -/
def bitAt (bs : List Byte) (k : Nat) : Bool := (bs.getD (k / 8) 0).getLsbD (k % 8)

/-- ORs bit k in; a bit beyond the capacity is discarded (R172). -/
def orBit (bs : List Byte) (k : Nat) : List Byte := bs.modify (k / 8) (· ||| 1#8 <<< (k % 8))

/-- ORs the low w bits of `val` in from bit n on; bits beyond the capacity are discarded (R173). -/
def orBits (bs : List Byte) (val n w : Nat) : List Byte :=
  (List.range w).foldl (fun b j => if val.testBit j then orBit b (n + j) else b) bs

/-- The byte-wise OR of two images of one length (R174). -/
def orBytes (d s : List Byte) : List Byte := List.zipWith (· ||| ·) d s

/-- The ASCII image of an accumulator, its highest bit first (R176). -/
def bitString (bs : List Byte) : List Byte :=
  (List.range (8 * bs.length)).map fun k => if bitAt bs (8 * bs.length - 1 - k) then 0x31 else 0x30

/-- ACC_NEW (R171). -/
def execAccNew (s : State) : Host.Outcome State Fault Refusal :=
  checked s <| withAccSlot s s.lop.op0.toNat fun _ =>
    let nBits := s.lop.op1.toNat
    if s.cfg.accMaxBits < nBits then failWith s .config
    else
      let nb := ceilDiv nBits 8
      done (s.setAcc s.lop.op0.toNat { state := .live, bytes := List.replicate nb 0 }) true nb 0

/-- ACC_SETBIT (R172). -/
def execAccSetbit (s : State) : Host.Outcome State Fault Refusal :=
  checked s <| withAcc s s.lop.op0.toNat fun a =>
    done (s.setAcc s.lop.op0.toNat { a with bytes := orBit a.bytes s.lop.op1.toNat }) true 0 0

/-- ACC_SETBITS (R173). -/
def execAccSetbits (s : State) : Host.Outcome State Fault Refusal :=
  checked s <| withAcc s s.lop.op0.toNat fun a =>
    let w := s.lop.op3.toNat
    if unitWidth w then
      done (s.setAcc s.lop.op0.toNat { a with bytes := orBits a.bytes s.lop.op1.toNat s.lop.op2.toNat w }) true 0 0
    else failWith s .config

/-- ACC_ORMERGE (R174). -/
def execAccOrmerge (s : State) : Host.Outcome State Fault Refusal :=
  checked s <| withAcc s s.lop.op0.toNat fun d => withAcc s s.lop.op1.toNat fun src =>
    if d.nbytes ≠ src.nbytes then failWith s .shape
    else done (s.setAcc s.lop.op0.toNat { d with bytes := orBytes d.bytes src.bytes }) true 0 0

/-- ACC_TOBYTES (R175): the slot is CONSUMED; its bytes are unreadable from then on (log 13). -/
def execAccTobytes (s : State) : Host.Outcome State Fault Refusal :=
  checked s <| withAcc s s.lop.op0.toNat fun a =>
    let dst := s.lop.op1.toNat
    if ¬ s.inRange dst a.nbytes then failWith s .addr
    else
      done ((s.setMem (writeBytes s.dmem dst a.bytes)).setAcc s.lop.op0.toNat { a with state := .consumed })
        true a.nbytes 0

/-- ACC_BITSTR (R176). -/
def execAccBitstr (s : State) : Host.Outcome State Fault Refusal :=
  checked s <| withAcc s s.lop.op0.toNat fun a =>
    let dst := s.lop.op1.toNat
    if ¬ s.inRange dst (8 * a.nbytes) then failWith s .addr
    else done (s.setMem (writeBytes s.dmem dst (bitString a.bytes))) true (8 * a.nbytes) 0

end Sys2Proof.Machine
end

