-- ==== Sys2Proof/Machine/TensorView.lean ====
section
/-! DEFINITION. The tensor view commands (44_tensorview.md R190 to R197) and the derived values of a view (10_state.md
R34). -/

namespace Sys2Proof.Machine

/-- The product of a shape's entries, exact (R191). -/
def dimProduct (sh : List Nat) : Nat := sh.foldr (· * ·) 1

/-- The stride table of a shape: innermost 1, each outer one the next stride times the next dimension (R34). -/
def strides : List Nat → List Nat
  | [] => []
  | [_] => [1]
  | _ :: d :: t =>
    let r := strides (d :: t)
    (r.headD 1 * d) :: r

/-- `rank` of a view (R33). -/
def TvSlot.rank (t : TvSlot) : Nat := t.shape.length

/-- `inner`: the innermost dimension (R34). -/
def TvSlot.inner (t : TvSlot) : Nat := t.shape.getLastD 1

/-- `end - begin` of a view, in elements. -/
def TvSlot.extent (t : TvSlot) : Nat := t.last.toNat - t.first.toNat

/-- `nslices` (R34). -/
def TvSlot.nslices (t : TvSlot) : Nat := t.extent / t.inner

/-- `shapeload(addr, rank)` with its checks in order (R190). -/
def shapeLoad (s : State) (addr rank : Nat) (f : List Nat → Host.Outcome State Fault Refusal) :
    Host.Outcome State Fault Refusal :=
  if rank = 0 then failWith s .shape
  else if s.cfg.tvMaxRank < rank then failWith s .config
  else if ¬ s.inRange addr (8 * rank) then failWith s .addr
  else
    let sh := readLanes s.dmem addr 8 rank
    if sh.any (· == 0) then failWith s .shape else f sh

/-- The LIVE view of a range under a shape, its strides recomputed (R34, R191). -/
def TvSlot.ofShape (first last : Word) (sh : List Nat) : TvSlot :=
  { state := .live, first := first, last := last, shape := sh, stride := strides sh }

/-- TV_NEW (R191). -/
def execTvNew (s : State) : Host.Outcome State Fault Refusal :=
  checked s <| withTvSlot s s.lop.op0.toNat fun _ =>
    shapeLoad s s.lop.op3.toNat s.lop.op4.toNat fun sh =>
      if s.lop.op2.toNat < s.lop.op1.toNat then failWith s .shape
      else if dimProduct sh ≠ s.lop.op2.toNat - s.lop.op1.toNat then failWith s .shape
      else
        let t := TvSlot.ofShape s.lop.op1 s.lop.op2 sh
        done (s.setTv s.lop.op0.toNat t) true t.nslices t.inner

/-- TV_SETSHAPE (R192). -/
def execTvSetshape (s : State) : Host.Outcome State Fault Refusal :=
  checked s <| withTv s s.lop.op0.toNat fun v =>
    shapeLoad s s.lop.op3.toNat s.lop.op4.toNat fun sh =>
      if dimProduct sh ≠ v.extent then failWith s .shape
      else
        let t := TvSlot.ofShape v.first v.last sh
        done (s.setTv s.lop.op0.toNat t) true t.nslices t.inner

/-- TV_NSLICES (R193). -/
def execTvNslices (s : State) : Host.Outcome State Fault Refusal :=
  checked s <| withTv s s.lop.op0.toNat fun t => done s true t.nslices t.inner

/-- TV_SLICE (R194). -/
def execTvSlice (s : State) : Host.Outcome State Fault Refusal :=
  checked s <| withTv s s.lop.op0.toNat fun t =>
    let i := s.lop.op1.toNat
    if t.nslices ≤ i then failWith s .range
    else done s true (t.first.toNat + i * t.inner) t.inner

/-- TV_STRIDE (R195). -/
def execTvStride (s : State) : Host.Outcome State Fault Refusal :=
  checked s <| withTv s s.lop.op0.toNat fun t =>
    let i := s.lop.op1.toNat
    if t.rank ≤ i then failWith s .range
    else done s true (t.stride.getD i 0) (t.shape.getD i 0)

end Sys2Proof.Machine
end

