-- ==== Sys2Proof/Machine/RingBuffer.lean ====
section
/-! DEFINITION. The staging ring commands (45_ringbuffer.md R210 to R240). Each is `pre`, `cond` and `effect`;
`ringStep` says when each part runs in either mode. -/

namespace Sys2Proof.Machine

/-- `cap = parts * elementsPerPart` (R35, R36). -/
def RingSlot.cap (r : RingSlot) : Nat := r.parts * r.epp

/-- The m elements from position `pos` on, around the storage (R210). -/
def ringTake (r : RingSlot) (pos m : Nat) : List Word :=
  (List.range m).map fun k => r.store.getD ((pos + k) % r.cap) 0

/-- Elements put from position `pos` on, around a storage of `cap` elements (R210, R214). -/
def ringPut (store : List Word) (cap pos : Nat) : List Word → List Word
  | [] => store
  | v :: vs => ringPut (store.set (pos % cap) v) cap (pos + 1) vs

/-- The three parts of a ring command (R212) over the state, the slot index and the ring. -/
structure RingOp where
  pre : State → RingSlot → Option ErrCode
  cond : State → RingSlot → Bool
  effect : State → Nat → RingSlot → State

/-- `fail` (R214 to R216): nothing moves, RES0 = 0, RES1 = occ, `complete(0)`. -/
def ringFail (s : State) (r : RingSlot) : State := s.complete false 0 r.occ

/-- The RACE fault (R236): GSTATUS.FAULT set, the ring POISONED, the command ends with RACE. -/
def raceFault (s : State) (k : Nat) (r : RingSlot) : State :=
  ((s.setRing k { r with state := .poisoned }).setFault).raiseError .race

/-- The first step of a ring command (R212, R230 to R232; R235 step 1). -/
def ringIssue (op : RingOp) (blk : Bool) (s : State) (k : Nat) : Host.Outcome State Fault Refusal :=
  checked s <| withRing s k fun r =>
    match op.pre s r with
    | some e => failWith s e
    | none =>
      match r.mode with
      | .mt =>
        if op.cond s r then .next (op.effect s k r)
        else if blk then .next (s.enterPhase .waiting true)
        else .next (ringFail s r)
      | .st =>
        match r.owner with
        | some _ => .next (raceFault s k r)
        | none => .next ((s.setRing k { r with owner := some s.cur }).enterPhase .held (blk && !op.cond s r))

/-- A step of a WAITING port (R232): the effect once `cond` holds, no step before. -/
def ringWake (op : RingOp) (s : State) (k : Nat) : Host.Outcome State Fault Refusal :=
  match s.rbs[k]? with
  | none => .next s
  | some r => if op.cond s r then .next (op.effect s k r) else .next s

/-- Step 2 of an ST command (R235); the owner is released however the command ends (log 14). -/
def ringPerform (op : RingOp) (blk : Bool) (s : State) (k : Nat) : Host.Outcome State Fault Refusal :=
  match s.rbs[k]? with
  | none => .next s
  | some r =>
    let r' := { r with owner := none }
    let s' := s.setRing k r'
    if r.state = .poisoned then .next (s'.raiseError .race)
    else if op.cond s r then .next (op.effect s' k r')
    else if blk then .next s
    else .next (ringFail s' r')

/-- One step of a ring command in its port's phase (R230 to R236). -/
def ringStep (op : RingOp) (blk : Bool) (s : State) : Host.Outcome State Fault Refusal :=
  match s.port.phase with
  | .idle => ringIssue op blk s s.lop.op0.toNat
  | .issued => ringIssue op blk s s.lop.op0.toNat
  | .waiting => ringWake op s s.lop.op0.toNat
  | .held => ringPerform op blk s s.lop.op0.toNat

/-- RB_STORE's parts (R214). -/
def storeOp : RingOp where
  pre s r :=
    let len := s.lop.op2.toNat
    if len % r.epp ≠ 0 then some .shape
    else if r.cap < len then some .shape
    else if ¬ s.inRange s.lop.op1.toNat (len * r.ebytes) then some .addr
    else none
  cond s r := decide (r.occ + s.lop.op2.toNat ≤ r.cap)
  effect s k r :=
    let len := s.lop.op2.toNat
    let vals := (readLanes s.dmem s.lop.op1.toNat r.ebytes len).map (BitVec.ofNat 64)
    let r' := { r with store := ringPut r.store r.cap (r.rd + r.occ) vals, occ := r.occ + len }
    (s.setRing k r').complete true len r'.occ

/-- RB_READ's parts (R215). -/
def readOp : RingOp where
  pre s r := if ¬ s.inRange s.lop.op1.toNat (r.epp * r.ebytes) then some .addr else none
  cond _ r := decide (r.epp ≤ r.occ)
  effect s k r :=
    let vals := (ringTake r r.rd r.epp).map BitVec.toNat
    let r' := { r with rd := (r.rd + r.epp) % r.cap, occ := r.occ - r.epp }
    ((s.setMem (writeLanes s.dmem s.lop.op1.toNat r.ebytes vals)).setRing k r').complete true r.epp r'.occ

/-- RB_READALL's parts (R216); the range is checked in the effect step. -/
def readallOp : RingOp where
  pre _ _ := none
  cond _ r := decide (0 < r.occ)
  effect s k r :=
    if ¬ s.inRange s.lop.op1.toNat (r.occ * r.ebytes) then s.raiseError .addr
    else
      let vals := (ringTake r r.rd r.occ).map BitVec.toNat
      let r' := { r with rd := (r.rd + r.occ) % r.cap, occ := 0 }
      ((s.setMem (writeLanes s.dmem s.lop.op1.toNat r.ebytes vals)).setRing k r').complete true r.occ 0

/-- A pure query: no pre, always ready, RES0 = the answer (R217 to R219). -/
def queryOp (answer : RingSlot → Nat) : RingOp where
  pre _ _ := none
  cond _ _ := true
  effect s _ r := s.complete true (answer r) 0

/-- `size()` in the instance's unit (R219). -/
def ringSize (u : Config.SizeUnit) (r : RingSlot) : Nat :=
  match u with
  | .elements => r.occ
  | .parts => r.occ / r.epp

/-- RB_NEW (R213). -/
def execRbNew (s : State) : Host.Outcome State Fault Refusal :=
  checked s <|
    let k := s.lop.op0.toNat
    let parts := s.lop.op1.toNat
    let epp := s.lop.op2.toNat
    let mode := s.lop.op3.toNat
    let eb := s.lop.op4.toNat
    match s.rbs[k]? with
    | none => failWith s .slot
    | some r =>
      if r.state ≠ .free then failWith s .slot
      else if ¬ (mode = 0 ∨ mode = 1) then failWith s .config
      else if ¬ (eb = 1 ∨ eb = 2 ∨ eb = 4 ∨ eb = 8) then failWith s .config
      else if parts * epp = 0 then failWith s .config
      else if s.cfg.rbMaxElems < parts * epp then failWith s .config
      else
        let r' : RingSlot :=
          { state := .live, mode := if mode = 1 then .mt else .st, parts := parts, epp := epp, ebytes := eb,
            store := List.replicate (parts * epp) 0, rd := 0, occ := 0, owner := none }
        done (s.setRing k r') true r'.cap 0

/-- RB_STORE (R214). -/
def execRbStore (blk : Bool) (s : State) : Host.Outcome State Fault Refusal := ringStep storeOp blk s

/-- RB_READ (R215). -/
def execRbRead (blk : Bool) (s : State) : Host.Outcome State Fault Refusal := ringStep readOp blk s

/-- RB_READALL (R216): it never blocks. -/
def execRbReadall (s : State) : Host.Outcome State Fault Refusal := ringStep readallOp false s

/-- RB_FULL (R217). -/
def execRbFull (s : State) : Host.Outcome State Fault Refusal :=
  ringStep (queryOp fun r => if r.occ = r.cap then 1 else 0) false s

/-- RB_EMPTY (R218). -/
def execRbEmpty (s : State) : Host.Outcome State Fault Refusal :=
  ringStep (queryOp fun r => if r.occ = 0 then 1 else 0) false s

/-- RB_SIZE (R219). -/
def execRbSize (s : State) : Host.Outcome State Fault Refusal :=
  ringStep (queryOp (ringSize Config.rbSizeUnit)) false s

end Sys2Proof.Machine
end

