-- ==== Sys2Proof/Machine/Dispatch.lean ====
section
/-! DEFINITION. One step of a command on the port `cur`: one arm per constructor of Instr. -/

namespace Sys2Proof.Machine

/-- The step that the port `cur` takes of its command i (R3, R70). -/
def exec (i : Instr) (s : State) : Host.Outcome State Fault Refusal :=
  match i with
  | .dtInfo d => Sys2Proof.Machine.execDtInfo d s
  | .dtRange d => Sys2Proof.Machine.execDtRange d s
  | .dtReqelems d => Sys2Proof.Machine.execDtReqelems d s
  | .pack fmt d => Sys2Proof.Machine.execPack fmt d s
  | .unpack d => Sys2Proof.Machine.execUnpack d s
  | .accNew => Sys2Proof.Machine.execAccNew s
  | .accSetbit => Sys2Proof.Machine.execAccSetbit s
  | .accSetbits => Sys2Proof.Machine.execAccSetbits s
  | .accOrmerge => Sys2Proof.Machine.execAccOrmerge s
  | .accTobytes => Sys2Proof.Machine.execAccTobytes s
  | .accBitstr => Sys2Proof.Machine.execAccBitstr s
  | .tvNew => Sys2Proof.Machine.execTvNew s
  | .tvSetshape => Sys2Proof.Machine.execTvSetshape s
  | .tvNslices => Sys2Proof.Machine.execTvNslices s
  | .tvSlice => Sys2Proof.Machine.execTvSlice s
  | .tvStride => Sys2Proof.Machine.execTvStride s
  | .rbNew => Sys2Proof.Machine.execRbNew s
  | .rbStore blk => Sys2Proof.Machine.execRbStore blk s
  | .rbRead blk => Sys2Proof.Machine.execRbRead blk s
  | .rbReadall => Sys2Proof.Machine.execRbReadall s
  | .rbFull => Sys2Proof.Machine.execRbFull s
  | .rbEmpty => Sys2Proof.Machine.execRbEmpty s
  | .rbSize => Sys2Proof.Machine.execRbSize s

end Sys2Proof.Machine
end

