-- ==== Sys2Proof/Machine/Mmio.lean ====
section
/-! DEFINITION. The host's MMIO accesses (20_memory.md R64, R65, R71; 10_state.md R21, R28, R29) and the reset input
(70_reset_and_hazards.md R280, R281). -/

namespace Sys2Proof.Machine

/-- What an MMIO offset names (R64). -/
inductive Target where
  | gstatus
  | cmd (p : Nat)
  | status (p : Nat)
  | op (p i : Nat)
  | res0 (p : Nat)
  | res1 (p : Nat)
  | unlisted
  | dmem (a : Nat)
deriving DecidableEq, Repr

/-- Where the DMEM region starts (R64). -/
def dmemBase : Nat := 0x100000

/-- The target of an offset, for an instance with `nports` ports (R64). -/
def targetOf (nports offset : Nat) : Target :=
  if dmemBase ≤ offset then .dmem (offset - dmemBase)
  else if offset = 0 then .gstatus
  else if 0x1000 ≤ offset ∧ offset < 0x1000 + 0x100 * nports then
    let p := (offset - 0x1000) / 0x100
    let r := (offset - 0x1000) % 0x100
    if r = 0x00 then .cmd p
    else if r = 0x08 then .status p
    else if 0x10 ≤ r ∧ r < 0x50 then .op p ((r - 0x10) / 8)
    else if r = 0x50 then .res0 p
    else if r = 0x58 then .res1 p
    else .unlisted
  else .unlisted

/-- Whether a target is a CMD register. -/
def Target.isCmd : Target → Bool
  | .cmd _ => true
  | _ => false

/-- The accesses R65 gives a meaning: aligned 8-byte accesses of the register region, an aligned 4-byte access at a
CMD register, and aligned accesses of 1, 2, 4 or 8 bytes inside DMEM (log 23). -/
def accessLegal (s : State) (offset width : Nat) : Bool :=
  if dmemBase ≤ offset then
    decide ((width = 1 ∨ width = 2 ∨ width = 4 ∨ width = 8) ∧ offset % width = 0 ∧
      s.inRange (offset - dmemBase) width)
  else
    decide (width = 8 ∧ offset % 8 = 0) ||
      (decide (width = 4 ∧ offset % 8 = 0) && (targetOf s.ports.length offset).isCmd)

/-- s with port p replaced by its image. -/
def State.updatePort (s : State) (p : Nat) (f : Port → Port) : State := { s with ports := s.ports.modify p f }

/-- A host write of c to CMD (R28): issue when IDLE, else OVERRUN. -/
def Port.onCmdWrite (p : Port) (c : CmdWord) : Port :=
  if p.phase = .idle then p.issue c else { p with status := p.status.onOverrun }

/-- A host write (R64, R28, R29): read-only and unlisted targets ignore it. -/
def writeTarget (s : State) (t : Target) (width : Nat) (v : Word) : State :=
  match t with
  | .gstatus => s
  | .cmd p => s.updatePort p fun q => q.onCmdWrite (v.setWidth 32)
  | .status p => s.updatePort p fun q => { q with status := q.status.onHostWrite v }
  | .op p i => s.updatePort p fun q => { q with op := q.op.put i v }
  | .res0 _ => s
  | .res1 _ => s
  | .unlisted => s
  | .dmem a => s.setMem (memWrite s.dmem a width v.toNat)

/-- What a host read returns (R64): CMD and unlisted offsets read as 0 (R29, R64). -/
def readTarget (s : State) (t : Target) (width : Nat) : Word :=
  match t with
  | .gstatus => s.gstatus.toWord
  | .cmd _ => 0
  | .status p => (s.ports.getD p Port.reset).status.toWord
  | .op p i => (s.ports.getD p Port.reset).op.get i
  | .res0 p => (s.ports.getD p Port.reset).res0
  | .res1 p => (s.ports.getD p Port.reset).res1
  | .unlisted => 0
  | .dmem a => BitVec.ofNat 64 (memRead s.dmem a width)

/-- One host write; an access outside R65 is refused. -/
def hostWrite (s : State) (offset width : Nat) (v : Word) : Host.Outcome State Fault Refusal :=
  if accessLegal s offset width then .next (writeTarget s (targetOf s.ports.length offset) width v)
  else .refused .hostAccess

/-- One host read: it changes nothing of PKC (R71), and the model keeps the value returned (log 18). -/
def hostRead (s : State) (offset width : Nat) : Host.Outcome State Fault Refusal :=
  if accessLegal s offset width then
    .next { s with hostData := readTarget s (targetOf s.ports.length offset) width }
  else .refused .hostAccess

/-- Reset (R280, R281): every piece of the spec's state to its value of R38, DMEM to the launch image; the instance
stays, and so do the model's agenda and the counters of its free values (log 20). -/
def resetMachine (s : State) (image : List Host.Cell) : State :=
  { State.resetOf s.cfg (Memory.ofImage s.cfg.dmemBytes image) with
    agenda := s.agenda
    tick := s.tick
    draws := s.draws }

end Sys2Proof.Machine
end

