-- ==== Sys2Proof/Machine/Sequencer.lean ====
section
/-! DEFINITION. What one step of the machine is: which agent moves (20_memory.md R72, 60_exceptions.md R257, R258), a
port's step of the command it holds (R70, R252), and the ends of a run (R261, R262). -/

namespace Sys2Proof.Machine

/-- The step of the port `cur`, which holds a command: its word is decoded (R80) and one step of it runs; an ILLEGAL
word ends with ILLEGAL (R90). -/
def runPort (s : State) : Host.Outcome State Fault Refusal :=
  match decode s.port.lcw with
  | .ok i => exec i s
  | .error _ => illegalWord s

/-- Port p's step. An IDLE port has none: nothing changes (log 3). -/
def portStep (p : Nat) (s : State) : Host.Outcome State Fault Refusal :=
  match s.ports[p]? with
  | none => .refused .noSuchPort
  | some q => if q.phase = .idle then .next s else runPort { s with cur := p }

/-- Whether a ring command's condition holds (its `cond`); every other command has none. -/
def commandReady (i : Instr) (s : State) (r : RingSlot) : Bool :=
  match i with
  | .dtInfo _ => true
  | .dtRange _ => true
  | .dtReqelems _ => true
  | .pack _ _ => true
  | .unpack _ => true
  | .accNew => true
  | .accSetbit => true
  | .accSetbits => true
  | .accOrmerge => true
  | .accTobytes => true
  | .accBitstr => true
  | .tvNew => true
  | .tvSetshape => true
  | .tvNslices => true
  | .tvSlice => true
  | .tvStride => true
  | .rbNew => true
  | .rbStore _ => storeOp.cond s r
  | .rbRead _ => readOp.cond s r
  | .rbReadall => readallOp.cond s r
  | .rbFull => true
  | .rbEmpty => true
  | .rbSize => true

/-- Whether a command waits when its condition is false: BLK of RB_STORE and RB_READ (R211). -/
def blocking : Instr → Bool
  | .rbStore blk => blk
  | .rbRead blk => blk
  | _ => false

/-- Whether port p has a step: any ISSUED command (R291), a WAITING one whose condition holds (R232), a HELD one as
R235 step 2 says. -/
def hasStep (s : State) (p : Nat) : Bool :=
  match s.ports[p]? with
  | none => false
  | some q =>
    let s' := { s with cur := p }
    match q.phase, decode q.lcw, s.rbs[q.lop.op0.toNat]? with
    | .idle, _, _ => false
    | .issued, _, _ => true
    | .waiting, .ok i, some r => commandReady i s' r
    | .waiting, _, _ => false
    | .held, .ok i, some r => r.state == .poisoned || commandReady i s' r || !blocking i
    | .held, _, _ => false

/-- The ports that have a step, in order. -/
def readyPorts (s : State) : List Nat := (List.range s.ports.length).filter (hasStep s)

/-- The port that moves when no event says which: the only one ready, or any of them (R257, U14; log 2). -/
def choosePort (s : State) : Option Nat :=
  match readyPorts s with
  | [] => none
  | [p] => some p
  | p :: q :: t => some ((p :: q :: t).getD (Config.schedule s.tick % (t.length + 2)) p)

/-- One event (R72). -/
def takeEvent (e : Event) (s : State) : Host.Outcome State Fault Refusal :=
  match e with
  | .port p => portStep p s
  | .write offset width v => hostWrite s offset width v
  | .read offset width => hostRead s offset width
  | .reset image => .next (resetMachine s image)

/-- One step: the agenda's first event; with none left a ready port moves; with none ready the run has ended when every
port is IDLE (R262) and is stuck otherwise (R261). -/
def nextStep (s : State) : Host.Outcome State Fault Refusal :=
  match s.agenda with
  | e :: rest => takeEvent e { s with agenda := rest }
  | [] =>
    match choosePort s with
    | some p => portStep p { s with tick := s.tick + 1 }
    | none => if s.ports.all (fun q => q.phase == .idle) then .next s else .fault .stuck

/-- s with the command word c issued on port 0 (R28) and port 0 the next to move (log 1). -/
def State.issueNext (s : State) (c : CmdWord) : State :=
  { s with
    ports := s.ports.modify 0 (fun q => q.issue c)
    agenda := .port 0 :: s.agenda }

end Sys2Proof.Machine
end

