-- ==== Sys2Proof/Machine/Step.lean ====
section
/-! DEFINITION. The machine's step, and how a command word is placed where the next step takes it. -/

namespace Sys2Proof.Machine

/-- One step of the machine: one event of the total order of 20_memory.md R72. -/
def step (s : State) : Host.Outcome State Fault Refusal := nextStep s

/-- s with the command word of the low `nbits` bits of `w` issued on port 0 (R28), which moves next (log 1). -/
def State.withFetchWord (s : State) (nbits w : Nat) : State := s.issueNext (BitVec.ofNat 32 (w % 2 ^ nbits))

end Sys2Proof.Machine
end

