-- ==== Sys2Proof/Safety.lean ====
section
/-! DEFINITION. The terms claims use: how a run stands (60_exceptions.md R261, R262), what completion leaves as it was
(R253), the bits of a packed stream (20_memory.md R62), the elements a ring holds (10_state.md R36), and the
invariants of the machine. -/

namespace Sys2Proof.Machine

/-! ### How a run stands -/

/-- A faulted run: RACE has happened since reset (R261). -/
def State.Faulted (s : State) : Prop := s.gstatus.fault = true

/-- Port p holds a command and has no step (R261). -/
def State.PortStuck (s : State) (p : Nat) : Prop :=
  ∃ q : Port, s.ports[p]? = some q ∧ q.phase ≠ .idle ∧ hasStep s p = false

/-- The run has ended: every port is IDLE and no event is left (R262). -/
def State.RunEnded (s : State) : Prop := s.agenda = [] ∧ ∀ q ∈ s.ports, q.phase = .idle

/-- Weak fairness of an infinite run (R233): a port that has a step from some point on takes one later. -/
def WeaklyFair (run : Nat → State) : Prop :=
  ∀ p n, (∀ m, n ≤ m → hasStep (run m) p = true) →
    ∃ m, n ≤ m ∧ ∃ rest t, (run m).agenda = .port p :: rest ∧ step (run m) = .next t ∧ run (m + 1) = t

/-- Port p, holding q, is the port that takes the step from s to t: the event names it, or no event is left and it is
chosen (R257). `cur` is the model's own record of it (log 19). -/
structure Moves (s t : State) (p : Nat) (q : Port) : Prop where
  holds : s.ports[p]? = some q
  busy : q.phase ≠ .idle
  cur : t.cur = p
  event : s.agenda = [] ∨ ∃ rest, s.agenda = .port p :: rest

/-! ### One command -/

/-- The port `cur` exists, its command is ISSUED and has not started, and CFGERR is 0 (R27, R252). -/
structure Issued (s : State) : Prop where
  exists_port : s.cur < s.ports.length
  phase : s.port.phase = .issued
  littleEndian : s.gstatus.cfgerr = false

/-- From s to t the port `cur` completes by `complete(r)` with these results (R253): its other registers, every other
port and every global of the machine stay. -/
structure Completes (s t : State) (r : Bool) (res0 res1 : Nat) : Prop where
  res0 : t.port.res0 = BitVec.ofNat 64 res0
  res1 : t.port.res1 = BitVec.ofNat 64 res1
  status : t.port.status =
    { busy := false, waiting := false, result := r, overrun := s.port.status.overrun, err := .noError }
  phase : t.port.phase = .idle
  op : t.port.op = s.port.op
  lop : t.port.lop = s.port.lop
  lcw : t.port.lcw = s.port.lcw
  others : ∀ p, p ≠ s.cur → t.ports[p]? = s.ports[p]?
  cfg : t.cfg = s.cfg
  gstatus : t.gstatus = s.gstatus
  cur : t.cur = s.cur
  agenda : t.agenda = s.agenda
  tick : t.tick = s.tick
  hostData : t.hostData = s.hostData

/-- Every byte of DMEM outside the n bytes from a on reads as before. -/
def KeepsMemOutside (s t : State) (a n : Nat) : Prop :=
  ∀ x, ¬ (a ≤ x ∧ x < a + n) → t.dmem.byte x = s.dmem.byte x

/-- Every byte of DMEM reads as before. -/
def KeepsMem (s t : State) : Prop := ∀ x, t.dmem.byte x = s.dmem.byte x

/-- No slot and no byte of DMEM changes, and no free value is drawn. -/
def KeepsSlotsAndMem (s t : State) : Prop :=
  KeepsMem s t ∧ t.accs = s.accs ∧ t.tvs = s.tvs ∧ t.rbs = s.rbs ∧ t.draws = s.draws

/-- A float pattern's value is the real v (R13); NaN and the infinities have none. -/
def FVal.IsReal : FVal → ℚ → Prop
  | .nan, _ => False
  | .inf _, _ => False
  | .fin neg mag exp, v => v = (if neg then -1 else 1) * mag * 2 ^ exp

/-- The words R90 calls ILLEGAL, clause by clause, with the opcodes and fields of R88. -/
def IllegalWord (c : CmdWord) : Prop :=
  let opc := (c.extractLsb 7 0).toNat
  let fmt := (c.extractLsb 11 8).toNat
  let blk := (c.extractLsb 12 12).toNat
  let rsv := (c.extractLsb 15 13).toNat
  let dtype := (c.extractLsb 31 16).toNat
  opc ∉ [0x01, 0x02, 0x03, 0x10, 0x11, 0x20, 0x21, 0x22, 0x23, 0x24, 0x25, 0x30, 0x31, 0x32, 0x33, 0x34,
    0x40, 0x41, 0x42, 0x43, 0x44, 0x45, 0x46] ∨
  rsv ≠ 0 ∨ (opc ≠ 0x10 ∧ fmt ≠ 0) ∨ (opc = 0x10 ∧ 10 ≤ fmt) ∨ (opc ∉ [0x41, 0x42] ∧ blk = 1) ∨
  (opc ∉ [0x01, 0x02, 0x03, 0x10, 0x11] ∧ dtype ≠ 0)

/-- Stream bit k of the packed bytes from b on: bit k mod 8 of byte b + k / 8 (R62). -/
def streamBit (m : Memory) (b k : Nat) : Bool := (m.byte (b + k / 8)).getLsbD (k % 8)

/-- The valid elements of a ring, oldest first (R36). -/
def RingSlot.valid (r : RingSlot) : List Word := ringTake r r.rd r.occ

/-- `cond` of a ring command with the operands o on the ring r (R214 to R219); no other command has a condition. -/
def CondHolds (i : Instr) (o : OpRegs) (r : RingSlot) : Prop :=
  match i with
  | .rbStore _ => r.occ + o.op2.toNat ≤ r.cap
  | .rbRead _ => r.epp ≤ r.occ
  | .rbReadall => 0 < r.occ
  | _ => True

/-- `pre` of a ring command on the ring r (R214 to R219); no other command is ever WAITING or HELD. -/
def PreHolds (i : Instr) (s : State) (r : RingSlot) : Prop :=
  match i with
  | .rbStore _ =>
    s.lop.op2.toNat % r.epp = 0 ∧ s.lop.op2.toNat ≤ r.cap ∧
      s.lop.op1.toNat + s.lop.op2.toNat * r.ebytes ≤ s.cfg.dmemBytes
  | .rbRead _ => s.lop.op1.toNat + r.epp * r.ebytes ≤ s.cfg.dmemBytes
  | .rbReadall => True
  | .rbFull => True
  | .rbEmpty => True
  | .rbSize => True
  | _ => False

/-- A ring command waits when its condition is false: RB_STORE and RB_READ with BLK = 1 (R211, R231). -/
def Blocks (i : Instr) : Prop := i = .rbStore true ∨ i = .rbRead true

/-- The step in which a ring command's `cond` is taken and its effect runs on the ring r: at once on an MT ring, on
waking, or in step 2 of an ST command (R230, R232, R235). -/
def Performs (s : State) (r : RingSlot) : Prop :=
  r.state = .live ∧
  ((s.port.phase = .issued ∧ s.gstatus.cfgerr = false ∧ r.mode = .mt) ∨ s.port.phase = .waiting ∨
    s.port.phase = .held)

/-- The owner marker after such a step: an ST command releases the ring (R235). -/
def ownerAfter (s : State) (r : RingSlot) : Option Nat := if s.port.phase = .held then none else r.owner

/-! ### Invariants -/

/-- BUSY and WAITING as R26 reads them off the phase. -/
def PortOk (q : Port) : Prop :=
  (q.status.busy = true ↔ q.phase ≠ .idle) ∧ (q.phase = .waiting → q.status.waiting = true) ∧
  (q.status.waiting = true → q.phase = .waiting ∨ q.phase = .held)

/-- An accumulator slot as R31 has it. -/
def AccOk (p : Config.Params) (a : AccSlot) : Prop :=
  a.nbytes ≤ ceilDiv p.accMaxBits 8 ∧ (a.state = .free → a.bytes = [])

/-- A view slot as R33 and R34 have it. -/
def TvOk (p : Config.Params) (t : TvSlot) : Prop :=
  t.state = .live →
    t.shape ≠ [] ∧ t.rank ≤ p.tvMaxRank ∧ (∀ d ∈ t.shape, 1 ≤ d) ∧ t.first.toNat ≤ t.last.toNat ∧
    dimProduct t.shape = t.extent ∧ t.stride = strides t.shape

/-- A ring slot as R35, R36 and R240 have it. -/
def RingOk (p : Config.Params) (r : RingSlot) : Prop :=
  (r.state = .free → r.owner = none) ∧
  (r.state ≠ .free →
    0 < r.cap ∧ r.cap ≤ p.rbMaxElems ∧ (r.ebytes = 1 ∨ r.ebytes = 2 ∨ r.ebytes = 4 ∨ r.ebytes = 8) ∧
    r.store.length = r.cap ∧ r.occ ≤ r.cap ∧ r.occ % r.epp = 0 ∧ r.rd % r.epp = 0 ∧ r.rd < r.cap)

/-- A WAITING or HELD port holds a ring command whose checks passed on a ring that is not FREE (R232, R235). -/
def FlightOk (s : State) (p : Nat) (q : Port) : Prop :=
  q.phase = .waiting ∨ q.phase = .held →
    ∃ (i : Instr) (r : RingSlot), decode q.lcw = .ok i ∧ s.rbs[q.lop.op0.toNat]? = some r ∧ r.state ≠ .free ∧
      PreHolds i { s with cur := p } r

/-- The machine's invariant: an instance of R8 with the slots R20 gives it, DMEM in canonical form inside the
instance, and every port and slot as its rule says. -/
structure Inv (s : State) : Prop where
  legal : s.cfg.Legal
  cfgerr : s.gstatus.cfgerr = !s.cfg.hostLe
  nports : s.ports.length = s.cfg.nports
  nacc : s.accs.length = s.cfg.nacc
  ntv : s.tvs.length = s.cfg.ntv
  nrb : s.rbs.length = s.cfg.nrb
  memWf : s.dmem.wf
  memIn : ∀ c ∈ s.dmem, c.1 < s.cfg.dmemBytes
  ports : ∀ q ∈ s.ports, PortOk q
  accs : ∀ a ∈ s.accs, AccOk s.cfg a
  tvs : ∀ t ∈ s.tvs, TvOk s.cfg t
  rings : ∀ r ∈ s.rbs, RingOk s.cfg r
  flight : ∀ (p : Nat) (q : Port), s.ports[p]? = some q → FlightOk s p q

/-- Who waits and who holds what (R232, R235, R26): a WAITING port waits on a LIVE MT ring with a blocking command; a
HELD port owns its ST ring, and shows WAITING exactly while its blocking command's condition is false; a ring's owner
is HELD on it. -/
structure Owned (s : State) : Prop where
  waiting : ∀ (p : Nat) (q : Port), s.ports[p]? = some q → q.phase = .waiting →
    ∃ (i : Instr) (r : RingSlot), decode q.lcw = .ok i ∧ s.rbs[q.lop.op0.toNat]? = some r ∧ r.state = .live ∧ r.mode = .mt ∧
      blocking i = true
  held : ∀ (p : Nat) (q : Port), s.ports[p]? = some q → q.phase = .held →
    ∃ (i : Instr) (r : RingSlot), decode q.lcw = .ok i ∧ s.rbs[q.lop.op0.toNat]? = some r ∧ r.mode = .st ∧ r.owner = some p ∧
      q.status.waiting = (blocking i && !commandReady i { s with cur := p } r)
  owner : ∀ (k : Nat) (r : RingSlot) (p : Nat), s.rbs[k]? = some r → r.owner = some p →
    ∃ q : Port, s.ports[p]? = some q ∧ q.phase = .held ∧ q.lop.op0.toNat = k

end Sys2Proof.Machine
end

