-- ==== Sys2Proof/Certificates/Slice0/Obligations.lean ====
section
/-! DEFINITION. The statements for the provers. -/

open Sys2Proof Sys2Proof.Machine

/-! ### Encoding -/

/-- The words of 30_encoding.md R94's table decode to the commands it spells, and for every row of R88 that has no word
there, the word that is its opcode alone decodes to its command. -/
def Obligations.SpecExampleWordsDecode : Prop :=
  ∀ e ∈ ([(0x00290710, .pack .s64 ⟨.int, 5, 0⟩), (0x00290011, .unpack ⟨.int, 5, 0⟩),
      (0x10420810, .pack .f32 ⟨.fixed, 8, 4⟩), (0x10420011, .unpack ⟨.fixed, 8, 4⟩),
      (0x00400010, .pack .u8 ⟨.uint, 8, 0⟩), (0x00400011, .unpack ⟨.uint, 8, 0⟩),
      (0x01030001, .dtInfo ⟨.float32, 32, 0⟩), (0x00290002, .dtRange ⟨.int, 5, 0⟩),
      (0x00600003, .dtReqelems ⟨.uint, 12, 0⟩), (0x00180710, .pack .s64 ⟨.uint, 3, 0⟩),
      (0x000C0710, .pack .s64 ⟨.binary, 1, 0⟩), (0x00150710, .pack .s64 ⟨.ternary, 2, 0⟩),
      (0x000E0710, .pack .s64 ⟨.bipolar, 1, 0⟩), (0x00200710, .pack .s64 ⟨.uint, 4, 0⟩),
      (0x02010710, .pack .s64 ⟨.int, 64, 0⟩), (0x00000041, .rbStore false), (0x00001041, .rbStore true),
      (0x00001042, .rbRead true), (0x00000022, .accSetbits), (0x00000030, .tvNew),
      (0x00000020, .accNew), (0x00000021, .accSetbit), (0x00000023, .accOrmerge), (0x00000024, .accTobytes),
      (0x00000025, .accBitstr), (0x00000031, .tvSetshape), (0x00000032, .tvNslices), (0x00000033, .tvSlice),
      (0x00000034, .tvStride), (0x00000040, .rbNew), (0x00000043, .rbReadall), (0x00000044, .rbFull),
      (0x00000045, .rbEmpty), (0x00000046, .rbSize)] : List (CmdWord × Instr)),
    decode e.1 = .ok e.2

/-- Decoding the encoded word of any well-formed command gives the command back, with every field at every value the
word can carry (R81, R84, R88). -/
def Obligations.DecodeEncodeRoundTrip : Prop :=
  ∀ i : Instr, i.wf = true → decode (encode i) = .ok i

/-- A word that decodes is the word of the command it decodes to: no bit of an accepted word is ignored (R81, R90). -/
def Obligations.AcceptedWordsReencode : Prop :=
  ∀ (c : CmdWord) (i : Instr), decode c = .ok i → i.wf = true ∧ encode i = c

/-- The decode check of R90, clause by clause: exactly such words are rejected, and a port that steps such a word ends
with ILLEGAL (with CONFIG while CFGERR is 1, R252). -/
def Obligations.IllegalWordsEndWithIllegal : Prop :=
  ∀ c : CmdWord,
    (IllegalWord c ↔ ∃ e, decode c = .error e) ∧
    ∀ (s : State) (p : Nat) (rest : List Event) (q : Port),
      s.agenda = .port p :: rest → s.ports[p]? = some q → q.phase = .issued → q.lcw = c → IllegalWord c →
      step s = .next ((({ s with agenda := rest, cur := p } : State)).raiseError
        (if s.gstatus.cfgerr then .config else .illegal))

/-! ### The machine -/

/-- A step whose event is a port that holds a command whose word decodes runs that command on that port (the list of
events is the model's own, log 1). -/
def Obligations.StepRunsTheDecodedCommand : Prop :=
  ∀ (s : State) (p : Nat) (rest : List Event) (q : Port) (i : Instr),
    s.agenda = .port p :: rest → s.ports[p]? = some q → q.phase ≠ .idle → decode q.lcw = .ok i →
    step s = exec i { s with agenda := rest, cur := p }

/-- With no event left, only a port that has a step moves; when none has one, nothing changes if every port is IDLE
(the run has ended, R262) and otherwise the machine is stuck (R261), and it stops with that fault in no other state. A
port has a step when it is ISSUED (R291), when it is WAITING and its condition holds (R232), and when it is HELD and its
ring is POISONED, its condition holds or its command does not block (R235). The choice among several ready ports is
the model's free value, and a run ends or is stuck once no event is left (log 2). -/
def Obligations.NoEventMeansReadyPortOrEndOrStuck : Prop :=
  ∀ s : State,
    (s.agenda = [] → ∀ p, hasStep s p = true →
      ∃ p', hasStep s p' = true ∧ step s = portStep p' { s with tick := s.tick + 1 }) ∧
    (s.agenda = [] → (∀ p, hasStep s p = false) → (∀ q ∈ s.ports, q.phase = .idle) → step s = .next s) ∧
    (step s = .fault .stuck ↔ s.agenda = [] ∧ (∀ p, hasStep s p = false) ∧ ∃ p, s.PortStuck p) ∧
    (∀ p, s.ports[p]? = none → hasStep s p = false) ∧
    ∀ (p : Nat) (q : Port), s.ports[p]? = some q →
      (q.phase = .idle → hasStep s p = false) ∧
      (q.phase = .issued → hasStep s p = true) ∧
      ∀ (i : Instr) (r : RingSlot), decode q.lcw = .ok i → s.rbs[q.lop.op0.toNat]? = some r →
        (q.phase = .waiting → (hasStep s p = true ↔ CondHolds i q.lop r)) ∧
        (q.phase = .held → (hasStep s p = true ↔ r.state = .poisoned ∨ CondHolds i q.lop r ∨ ¬ Blocks i))

/-- A host write of c to CMD of port p (R28): IDLE, the word and the operands are latched, BUSY rises, WAITING falls and
the port is ISSUED, with RESULT and ERR as they were; not IDLE, the write is dropped but for OVERRUN. -/
def Obligations.CmdWriteIssuesOrOverruns : Prop :=
  ∀ (s : State) (p width : Nat) (v : Word) (rest : List Event) (q : Port),
    s.agenda = .write (0x1000 + 0x100 * p) width v :: rest → width = 4 ∨ width = 8 → s.ports[p]? = some q →
    s.ports.length ≤ 16 →
    step s = .next { s with
      agenda := rest
      ports := s.ports.set p
        (if q.phase = .idle then
          { q with
            lcw := v.setWidth 32
            lop := q.op
            phase := .issued
            status := { q.status with busy := true, waiting := false } }
        else { q with status := { q.status with overrun := true } }) }

/-- A host write of v to STATUS clears OVERRUN when bit 3 of v is 1 and does nothing else; a read of CMD returns 0
(R29). -/
def Obligations.StatusWriteClearsOverrunAndCmdReadsZero : Prop :=
  ∀ (s : State) (p : Nat) (v : Word) (rest : List Event) (q : Port),
    s.ports[p]? = some q → s.ports.length ≤ 16 →
    (s.agenda = .write (0x1000 + 0x100 * p + 0x08) 8 v :: rest →
      step s = .next { s with
        agenda := rest
        ports := s.ports.set p
          { q with status := { q.status with overrun := q.status.overrun && !v.getLsbD 3 } } }) ∧
    (s.agenda = .read (0x1000 + 0x100 * p) 8 :: rest →
      step s = .next { s with agenda := rest, hostData := 0 }) ∧
    (s.agenda = .read (0x1000 + 0x100 * p) 4 :: rest →
      step s = .next { s with agenda := rest, hostData := 0 })

/-- The host's reads over the MMIO map of R64, and that a read changes nothing but the value the host gets (R71):
GSTATUS with its two fields (R21), STATUS with its fields at the bits of R26 and ERR as the codes of R250, OP0..OP7, RES0, RES1, the little-endian
bytes of DMEM (R61), and 0 at every offset of the register region that the map does not list. The field that holds what
the host gets is the model's own (log 18). -/
def Obligations.HostReadsFollowTheMap : Prop :=
  ∀ (s : State) (rest : List Event), s.ports.length ≤ 16 →
    (s.agenda = .read 0 8 :: rest →
      step s = .next { s with
        agenda := rest
        hostData := BitVec.ofNat 64 (s.gstatus.cfgerr.toNat + 2 * s.gstatus.fault.toNat) }) ∧
    (∀ (p : Nat) (q : Port), s.ports[p]? = some q →
      (s.agenda = .read (0x1000 + 0x100 * p + 0x08) 8 :: rest →
        ∃ w : Word, step s = .next { s with agenda := rest, hostData := w } ∧
          w.getLsbD 0 = q.status.busy ∧ w.getLsbD 1 = q.status.waiting ∧ w.getLsbD 2 = q.status.result ∧
          w.getLsbD 3 = q.status.overrun ∧ w.extractLsb' 4 4 = 0 ∧ w.extractLsb' 16 48 = 0 ∧
          ∀ e ∈ [(ErrCode.noError, 0x00), (.illegal, 0x01), (.config, 0x02), (.shape, 0x03), (.empty, 0x04),
              (.addr, 0x05), (.slot, 0x06), (.overlap, 0x07), (.range, 0x08), (.race, 0x09)],
            q.status.err = e.1 → (w.extractLsb' 8 8).toNat = e.2) ∧
      (∀ i, i < 8 → s.agenda = .read (0x1000 + 0x100 * p + 0x10 + 8 * i) 8 :: rest →
        step s = .next { s with agenda := rest, hostData := q.op.get i }) ∧
      (s.agenda = .read (0x1000 + 0x100 * p + 0x50) 8 :: rest →
        step s = .next { s with agenda := rest, hostData := q.res0 }) ∧
      (s.agenda = .read (0x1000 + 0x100 * p + 0x58) 8 :: rest →
        step s = .next { s with agenda := rest, hostData := q.res1 })) ∧
    (∀ a w, w = 1 ∨ w = 2 ∨ w = 4 ∨ w = 8 → a % w = 0 → a + w ≤ s.cfg.dmemBytes →
      s.agenda = .read (0x100000 + a) w :: rest →
      ∃ v : Word, step s = .next { s with agenda := rest, hostData := v } ∧
        ∀ k, v.getLsbD k = (decide (k < 8 * w) && streamBit s.dmem a k)) ∧
    (∀ o, o < 0x100000 → o % 8 = 0 → o ≠ 0 →
      (o < 0x1000 ∨ 0x1000 + 0x100 * s.ports.length ≤ o ∨ 0x60 ≤ o % 0x100) →
      s.agenda = .read o 8 :: rest → step s = .next { s with agenda := rest, hostData := 0 })

/-- The host's writes over the MMIO map of R64: OPi takes the value; GSTATUS, RES0, RES1 and unlisted offsets ignore it
(R21, R23, R64); DMEM takes the low bytes little-endian and nothing else moves. -/
def Obligations.HostWritesFollowTheMap : Prop :=
  ∀ (s : State) (v : Word) (rest : List Event), s.ports.length ≤ 16 →
    (∀ o, o < 0x100000 → o % 8 = 0 →
      (o < 0x1000 ∨ 0x1000 + 0x100 * s.ports.length ≤ o ∨ 0x50 ≤ o % 0x100) →
      s.agenda = .write o 8 v :: rest → step s = .next { s with agenda := rest }) ∧
    (∀ (p i : Nat) (q : Port), s.ports[p]? = some q → i < 8 →
      s.agenda = .write (0x1000 + 0x100 * p + 0x10 + 8 * i) 8 v :: rest →
      ∃ q' : Port, step s = .next { s with agenda := rest, ports := s.ports.set p q' } ∧
        (∀ j, j < 8 → q'.op.get j = if j = i then v else q.op.get j) ∧ q' = { q with op := q'.op }) ∧
    (∀ a w, w = 1 ∨ w = 2 ∨ w = 4 ∨ w = 8 → a % w = 0 → a + w ≤ s.cfg.dmemBytes →
      s.agenda = .write (0x100000 + a) w v :: rest →
      ∃ t, step s = .next t ∧ t = { s with agenda := rest, dmem := t.dmem } ∧ KeepsMemOutside s t a w ∧
        ∀ k, k < 8 * w → streamBit t.dmem a k = v.getLsbD k)

/-- A host access is refused exactly when R65 gives it no meaning: it is not an aligned 8-byte access of the register
region, an aligned 4-byte access at a CMD register, or an aligned access of 1, 2, 4 or 8 bytes inside DMEM (a 4-byte
access of the upper half of CMD is refused, log 23). -/
def Obligations.HostAccessesOutsideR65AreRefused : Prop :=
  ∀ (s : State) (o w : Nat) (v : Word) (rest : List Event), s.ports.length ≤ 16 →
    s.agenda = .write o w v :: rest ∨ s.agenda = .read o w :: rest →
    (step s = .refused .hostAccess ↔
      ¬ ((o < 0x100000 ∧ w = 8 ∧ o % 8 = 0) ∨
        (w = 4 ∧ ∃ p, p < s.ports.length ∧ o = 0x1000 + 0x100 * p) ∨
        (0x100000 ≤ o ∧ (w = 1 ∨ w = 2 ∨ w = 4 ∨ w = 8) ∧ o % w = 0 ∧ o - 0x100000 + w ≤ s.cfg.dmemBytes)))

/-- Reset at any time (R280) sets every piece of the spec's state to its value of R38's table, abandoning every command;
DMEM takes the launch image (R22). The parameters stay and the image comes with the event (log 1, 4, 20). -/
def Obligations.ResetSetsTheTableOfR38 : Prop :=
  ∀ (s : State) (image : List Host.Cell) (rest : List Event), s.agenda = .reset image :: rest →
    ∃ t, step s = .next t ∧ t.cfg = s.cfg ∧ t.agenda = rest ∧
      t.gstatus = { cfgerr := !s.cfg.hostLe, fault := false } ∧
      (Memory.wf image → (∀ c ∈ image, c.1 < s.cfg.dmemBytes) → ∀ x, t.dmem.byte x = Memory.byte image x) ∧
      t.ports.length = s.cfg.nports ∧ t.accs.length = s.cfg.nacc ∧ t.tvs.length = s.cfg.ntv ∧
      t.rbs.length = s.cfg.nrb ∧
      (∀ q ∈ t.ports, q.phase = .idle ∧ q.lcw = 0 ∧ q.res0 = 0 ∧ q.res1 = 0 ∧
        (∀ i, q.op.get i = 0) ∧ (∀ i, q.lop.get i = 0) ∧ q.status.toWord = 0) ∧
      (∀ a ∈ t.accs, a.state = .free ∧ a.nbytes = 0) ∧
      (∀ v ∈ t.tvs, v.state = .free ∧ v.first = 0 ∧ v.last = 0 ∧ v.rank = 0) ∧
      (∀ r ∈ t.rbs, r.state = .free ∧ r.mode = .st ∧ r.ebytes = 1 ∧ r.parts = 0 ∧ r.epp = 0 ∧ r.cap = 0 ∧
        r.rd = 0 ∧ r.occ = 0 ∧ r.owner = none)

/-- The reference instance after reset meets both invariants of the machine. -/
def Obligations.ResetMeetsTheInvariants : Prop := Inv State.reset ∧ Owned State.reset

/-- Every step keeps the machine's invariant: the instance of R8, DMEM's canonical form inside it, BUSY and WAITING as
R26 reads them, and every accumulator, view and ring as R31, R33, R34, R36 and R240 have it. -/
def Obligations.EveryStepKeepsInv : Prop :=
  ∀ s t : State, Inv s → step s = .next t → Inv t

/-- Every step keeps who waits and who owns: a WAITING port waits on a LIVE MT ring, a HELD port owns its ST ring and
nobody else does, and STATUS.WAITING of a HELD port is 1 exactly while its blocking command's condition is false (R26,
R232, R235; the model stores that bit, log 15). That the owner is always HELD rests on log 14: an RB_READALL that ends
with ADDR in its second step releases the ring. -/
def Obligations.EveryStepKeepsOwnership : Prop :=
  ∀ s t : State, Inv s → Owned s → step s = .next t → Owned t

/-- The HOST_LE strap is sampled at reset, GSTATUS.CFGERR <- not HOST_LE, and while CFGERR = 1 every command ends with
CONFIG, whatever its word (R281, R252). -/
def Obligations.BigEndianHostGetsConfigFromEveryCommand : Prop :=
  (∀ (s t : State) (image : List Host.Cell) (rest : List Event),
    s.agenda = .reset image :: rest → step s = .next t → t.gstatus.cfgerr = !s.cfg.hostLe) ∧
  (∀ (s : State) (i : Instr), s.gstatus.cfgerr = true → s.port.phase = .issued →
    exec i s = .next (s.raiseError .config)) ∧
  ∀ (s : State) (p : Nat) (rest : List Event) (q : Port), s.gstatus.cfgerr = true → s.agenda = .port p :: rest →
    s.ports[p]? = some q → q.phase = .issued →
    step s = .next ((({ s with agenda := rest, cur := p } : State)).raiseError .config)

/-- What completion writes (R253): RES0, RES1, ERR, RESULT, BUSY, WAITING and the phase of the port, and nothing
else of the machine; OVERRUN is unchanged. -/
def Obligations.CompletionWritesOnlyItsPort : Prop :=
  ∀ s : State, s.cur < s.ports.length →
    (∀ code : ErrCode,
      let t := s.raiseError code
      t = { s with ports := t.ports } ∧ (∀ p, p ≠ s.cur → t.ports[p]? = s.ports[p]?) ∧
      t.port = { s.port with
        res0 := 0
        res1 := 0
        phase := .idle
        status := { busy := false, waiting := false, result := false, overrun := s.port.status.overrun,
                    err := code } }) ∧
    (∀ (r : Bool) (a b : Nat),
      let t := s.complete r a b
      t = { s with ports := t.ports } ∧ (∀ p, p ≠ s.cur → t.ports[p]? = s.ports[p]?) ∧
      t.port = { s.port with
        res0 := BitVec.ofNat 64 a
        res1 := BitVec.ofNat 64 b
        phase := .idle
        status := { busy := false, waiting := false, result := r, overrun := s.port.status.overrun,
                    err := .noError } })

/-- Errors are precise (R251): an ISSUED command that ends with an error has changed nothing but its port's STATUS,
RES0, RES1 and phase, except that RACE may also have set GSTATUS.FAULT and poisoned the ring (R236). That the POISONED
ring keeps its other fields is the model's choice (log 13). The errors of a HELD port are stated with RB_READALL's drain
and with the RACE fault. -/
def Obligations.ErrorsChangeNothingElse : Prop :=
  ∀ (s t : State) (i : Instr), Issued s → exec i s = .next t → t.port.phase = .idle →
    t.port.status.err ≠ .noError →
    t = s.raiseError t.port.status.err ∨
    (t.port.status.err = .race ∧ ∃ k r, s.rbs[k]? = some r ∧ r.mode = .st ∧ r.owner ≠ none ∧
      t = ((s.setRing k { r with state := .poisoned }).setFault).raiseError .race)

/-- Every command answers a next state, and on its way writes no register of another port and neither OP0..OP7, LOP nor
LCW of its own (R23, R24); it leaves the parameters, CFGERR and the host's side alone. -/
def Obligations.CommandsTouchNoOtherPortAndNoOperand : Prop :=
  ∀ (s : State) (i : Instr), s.cur < s.ports.length →
    ∃ t, exec i s = .next t ∧ t.ports.length = s.ports.length ∧
      (∀ p, p ≠ s.cur → t.ports[p]? = s.ports[p]?) ∧
      t.port.op = s.port.op ∧ t.port.lop = s.port.lop ∧ t.port.lcw = s.port.lcw ∧
      t.port.status.overrun = s.port.status.overrun ∧
      t.cfg = s.cfg ∧ t.gstatus.cfgerr = s.gstatus.cfgerr ∧ t.cur = s.cur ∧ t.agenda = s.agenda ∧
      t.tick = s.tick ∧ t.hostData = s.hostData

/-- RES0 and RES1 are written only at completion, where an error writes 0 to both; while a command stays in flight they
and RESULT and ERR keep the previous command's values; they are 0 after reset (R25, R30, R285). -/
def Obligations.ResultsHoldUntilCompletion : Prop :=
  (∀ q ∈ State.reset.ports, q.res0 = 0 ∧ q.res1 = 0) ∧
  ∀ (s t : State) (i : Instr), s.cur < s.ports.length → s.port.phase ≠ .idle → exec i s = .next t →
    (t.port.phase ≠ .idle →
      t.port.res0 = s.port.res0 ∧ t.port.res1 = s.port.res1 ∧ t.port.status.result = s.port.status.result ∧
      t.port.status.err = s.port.status.err ∧ t.port.status.busy = s.port.status.busy) ∧
    (t.port.phase = .idle →
      t.port.status.busy = false ∧ t.port.status.waiting = false ∧
      (t.port.status.err ≠ .noError → t.port.res0 = 0 ∧ t.port.res1 = 0 ∧ t.port.status.result = false))

/-- GSTATUS (R21): CFGERR changes only at reset, FAULT is never cleared but by reset, and it rises only in a step of a
port that held a command and ended it with RACE (the model's `cur` says which port moved, log 19); the parameters of the
instance never change (log 5). -/
def Obligations.FaultIsStickyAndRisesWithRace : Prop :=
  ∀ s t : State, step s = .next t → t.cfg = s.cfg ∧
    ((∀ image rest, s.agenda ≠ .reset image :: rest) →
      t.gstatus.cfgerr = s.gstatus.cfgerr ∧ (s.gstatus.fault = true → t.gstatus.fault = true) ∧
      (s.gstatus.fault = false → t.gstatus.fault = true →
        ∃ (p : Nat) (q q' : Port), Moves s t p q ∧ t.ports[p]? = some q' ∧ q'.phase = .idle ∧ q'.status.err = .race))

/-! ### Datatype commands -/

/-- R85: the codes its table calls valid are the ones the model accepts, and each of the five commands ends with CONFIG on
every other code. -/
def Obligations.InvalidDatatypeIsConfig : Prop :=
  ∀ d : DType,
    let valid := (d.kind = .uint ∧ 1 ≤ d.width ∧ d.width ≤ 64 ∧ d.frac = 0) ∨
      (d.kind = .int ∧ 1 ≤ d.width ∧ d.width ≤ 64 ∧ d.frac = 0) ∨
      (d.kind = .fixed ∧ 1 ≤ d.width ∧ d.width ≤ 64 ∧ d.frac ≤ d.width - 1) ∨
      (d.kind = .float32 ∧ d.width = 32 ∧ d.frac = 0) ∨ (d.kind = .binary ∧ d.width = 1 ∧ d.frac = 0) ∨
      (d.kind = .ternary ∧ d.width = 2 ∧ d.frac = 0) ∨ (d.kind = .bipolar ∧ d.width = 1 ∧ d.frac = 0)
    (dtypeValid d = true ↔ valid) ∧
    ∀ (s : State) (fmt : LaneFmt), Issued s → ¬ valid →
      ∀ i ∈ [Instr.dtInfo d, .dtRange d, .dtReqelems d, .pack fmt d, .unpack d],
        exec i s = .next (s.raiseError .config)

/-- DT_INFO (R111) on a valid code completes with W in RES0 and the flags of R110's table in RES1, and changes nothing
else (R115). -/
def Obligations.DtInfoReportsTheDescriptor : Prop :=
  ∀ (s : State) (d : DType), Issued s → dtypeValid d = true →
    ∃ t w flags, exec (.dtInfo d) s = .next t ∧ Completes s t true w flags ∧ KeepsSlotsAndMem s t ∧
      ((d.kind = .uint ∧ w = d.width ∧ flags = 0x002) ∨ (d.kind = .int ∧ w = d.width ∧ flags = 0x003) ∨
        (d.kind = .fixed ∧ w = d.width ∧ flags = 0x005 + d.frac * 2 ^ 8) ∨
        (d.kind = .float32 ∧ w = 32 ∧ flags = 0x001) ∨ (d.kind = .binary ∧ w = 1 ∧ flags = 0x002) ∨
        (d.kind = .ternary ∧ w = 2 ∧ flags = 0x003) ∨ (d.kind = .bipolar ∧ w = 1 ∧ flags = 0x003))

/-- DT_RANGE (R112) on a valid code completes with the bounds of R114's table: as 64-bit integers, or rounded to
binary32 for FIXED and FLOAT32 (the binary32 layout is log 11, and a bound of 0 is the pattern of +0 by log 10); it
changes nothing else (R115). -/
def Obligations.DtRangeReportsTheBounds : Prop :=
  ∀ (s : State) (d : DType), Issued s → dtypeValid d = true →
    ∃ t lo hi, exec (.dtRange d) s = .next t ∧ Completes s t true lo hi ∧ KeepsSlotsAndMem s t ∧
      ((d.kind = .uint ∧ lo = 0 ∧ hi = 2 ^ d.width - 1) ∨
        (d.kind = .int ∧ lo = 2 ^ 64 - 2 ^ (d.width - 1) ∧ hi = 2 ^ (d.width - 1) - 1) ∨
        (d.kind = .fixed ∧ lo = rne32 (-2 ^ (d.width - 1)) (-d.frac) ∧
          hi = rne32 (2 ^ (d.width - 1) - 1) (-d.frac)) ∨
        (d.kind = .float32 ∧ lo = 0xFF7FFFFF ∧ hi = 0x7F7FFFFF) ∨ (d.kind = .binary ∧ lo = 0 ∧ hi = 1) ∨
        (d.kind = .ternary ∧ lo = 2 ^ 64 - 1 ∧ hi = 1) ∨ (d.kind = .bipolar ∧ lo = 2 ^ 64 - 1 ∧ hi = 1))

/-- DT_REQELEMS (R113) on a valid code: for a unit of 8, 16, 32 or 64 bits it completes with the least count of units
that hold W bits; for any other unit it ends with CONFIG. -/
def Obligations.DtReqelemsCountsUnits : Prop :=
  ∀ (s : State) (d : DType), Issued s → dtypeValid d = true →
    let u := s.port.lop.op0.toNat
    ((u = 8 ∨ u = 16 ∨ u = 32 ∨ u = 64) →
      ∃ t n, exec (.dtReqelems d) s = .next t ∧ Completes s t true n 0 ∧ KeepsSlotsAndMem s t ∧
        1 ≤ n ∧ (describe d).w ≤ n * u ∧ (n - 1) * u < (describe d).w) ∧
    (¬ (u = 8 ∨ u = 16 ∨ u = 32 ∨ u = 64) → exec (.dtReqelems d) s = .next (s.raiseError .config))

/-! ### Codec -/

/-- PACK (R139, R140, R62) on a valid code and ranges completes: bit j of element i lies at stream bit i*W + j of the
destination, the padding bits are 0, RES0 = ceil(n*W/8) and RES1 the padding; every other byte and every slot stays. The
counter of draws is the model's own (log 7). -/
def Obligations.PackLaysFieldsEndToEnd : Prop :=
  ∀ (s : State) (fmt : LaneFmt) (d : DType), Issued s → dtypeValid d = true →
    let src := s.port.lop.op0.toNat
    let n := s.port.lop.op1.toNat
    let dst := s.port.lop.op2.toNat
    let W := (describe d).w
    let nb := ceilDiv (n * W) 8
    src + n * laneBytes fmt ≤ s.cfg.dmemBytes → dst + nb ≤ s.cfg.dmemBytes →
    (n = 0 ∨ src + n * laneBytes fmt ≤ dst ∨ dst + nb ≤ src) →
    ∃ t, exec (.pack fmt d) s = .next t ∧ Completes s t true nb (8 * nb - n * W) ∧
      t.accs = s.accs ∧ t.tvs = s.tvs ∧ t.rbs = s.rbs ∧ t.draws = s.draws + n ∧ KeepsMemOutside s t dst nb ∧
      (∀ i j, i < n → j < W →
        streamBit t.dmem dst (i * W + j) =
          (encField (describe d) fmt (s.draws + i)
            (memRead s.dmem (src + i * laneBytes fmt) (laneBytes fmt))).testBit j) ∧
      (∀ k, n * W ≤ k → k < 8 * nb → streamBit t.dmem dst k = false) ∧ 8 * nb < n * W + 8 ∧ n * W ≤ 8 * nb

/-- PACK's own errors in R139's order: a source outside DMEM or a destination outside DMEM ends with ADDR, then ranges
that share a byte end with OVERLAP. -/
def Obligations.PackErrorsInOrder : Prop :=
  ∀ (s : State) (fmt : LaneFmt) (d : DType), Issued s → dtypeValid d = true →
    let src := s.port.lop.op0.toNat
    let n := s.port.lop.op1.toNat
    let dst := s.port.lop.op2.toNat
    let nb := ceilDiv (n * (describe d).w) 8
    (s.cfg.dmemBytes < src + n * laneBytes fmt ∨ s.cfg.dmemBytes < dst + nb →
      exec (.pack fmt d) s = .next (s.raiseError .addr)) ∧
    (src + n * laneBytes fmt ≤ s.cfg.dmemBytes → dst + nb ≤ s.cfg.dmemBytes →
      (∃ x, src ≤ x ∧ x < src + n * laneBytes fmt ∧ dst ≤ x ∧ x < dst + nb) →
      exec (.pack fmt d) s = .next (s.raiseError .overlap))

/-- The field of an integer value (R133, R135, R136): integer targets and FIXED wrap modulo 2^W (FIXED after the
shift), BIPOLAR encodes -1 as 0 and +1 as 1 and draws one bit for any other value, no field has a bit above W (R131), and
a FLOAT32 target keeps an F32 lane's pattern. -/
def Obligations.IntegerLanesEncodeModuloTwoToW : Prop :=
  ∀ (d : DType) (L : LaneFmt) (k x : Nat) (v : Int), dtypeValid d = true → laneValue L x = .int v →
    let W := (describe d).w
    (d.kind = .uint ∨ d.kind = .int ∨ d.kind = .binary ∨ d.kind = .ternary →
      ((encField (describe d) L k x : Nat) : Int) = v % 2 ^ W) ∧
    (d.kind = .fixed → ((encField (describe d) L k x : Nat) : Int) = v * 2 ^ d.frac % 2 ^ W) ∧
    (d.kind = .bipolar → v = 1 → encField (describe d) L k x = 1) ∧
    (d.kind = .bipolar → v = -1 → encField (describe d) L k x = 0) ∧
    (d.kind = .bipolar → encField (describe d) L k x < 2) ∧
    encField (describe d) L k x < 2 ^ W ∧
    (d.kind = .float32 → ∀ y, encField (describe d) .f32 k y = y)

/-- The field of a float lane (R133, R135, R136): for an integer or FIXED target the converted integer wraps modulo 2^W,
for BIPOLAR exactly +1.0 gives 1 and exactly -1.0 gives 0; whatever is drawn, the field has no bit above W (R131). The
value of a float lane follows the IEEE-754 layout of log 11. -/
def Obligations.FloatLanesConvertThenWrap : Prop :=
  ∀ (d : DType) (L : LaneFmt) (k x : Nat) (v : FVal), dtypeValid d = true → laneValue L x = .flt v →
    let W := (describe d).w
    let field := encField (describe d) L k x
    (d.kind = .uint ∨ d.kind = .int ∨ d.kind = .binary ∨ d.kind = .ternary →
      ∀ t, convScaled 0 v = some t → (field : Int) = t % 2 ^ W) ∧
    (d.kind = .fixed → ∀ t, convScaled d.frac v = some t → (field : Int) = t % 2 ^ W) ∧
    (d.kind = .bipolar → FVal.IsReal v 1 → field = 1) ∧
    (d.kind = .bipolar → FVal.IsReal v (-1) → field = 0) ∧
    (d.kind ≠ .float32 → field < 2 ^ W)

/-- The FLOAT32 target (R134): an F32 lane keeps its pattern, an integer lane is rounded by value, and an F64 lane gives
a NaN pattern for NaN, the infinity of its sign, or the rounded value; the sign of a zero rounded from an F64 lane with
its sign bit set is left open (log 9), a zero of an integer lane is +0 (log 10), and the layouts are log 11. -/
def Obligations.Float32TargetConvertsByValue : Prop :=
  ∀ k x : Nat,
    let D := describe ⟨.float32, 32, 0⟩
    encField D .f32 k x = x ∧
    (∀ (L : LaneFmt) (v : Int), laneValue L x = .int v → encField D L k x = rne32 v 0) ∧
    (f64Val x = .nan →
      encField D .f64 k x / 2 ^ 23 % 2 ^ 8 = 255 ∧ encField D .f64 k x % 2 ^ 23 ≠ 0 ∧ encField D .f64 k x < 2 ^ 32) ∧
    (∀ neg, f64Val x = .inf neg → encField D .f64 k x = if neg then 0xFF800000 else 0x7F800000) ∧
    (∀ neg mag exp, f64Val x = .fin neg mag exp →
      encField D .f64 k x % 2 ^ 31 = rneMag mag exp ∧ encField D .f64 k x < 2 ^ 32 ∧
      (rneMag mag exp ≠ 0 ∨ neg = false →
        encField D .f64 k x = rneMag mag exp + (if neg then 2 ^ 31 else 0)))

/-- Conversion of a real to an integer (R137) after scaling by 2^f (R133): the truncation toward zero when it lies in
[-2^63, 2^64), and DRAW for every other finite value, for NaN and for the infinities; -0.0 converts to 0. -/
def Obligations.ConversionTruncatesOrDraws : Prop :=
  ∀ f : Nat,
    convScaled f .nan = none ∧ (∀ neg, convScaled f (.inf neg) = none) ∧
    (∀ exp, convScaled f (.fin true 0 exp) = some 0) ∧
    ∀ (neg : Bool) (mag : Nat) (exp : Int),
      let r : ℚ := (if neg then -1 else 1) * mag * 2 ^ (exp + f)
      (∀ t : Int, convScaled f (.fin neg mag exp) = some t ↔
        |(t : ℚ)| ≤ |r| ∧ |r| < |(t : ℚ)| + 1 ∧ 0 ≤ r * t ∧ -2 ^ 63 ≤ t ∧ t < 2 ^ 64) ∧
      (convScaled f (.fin neg mag exp) = none ↔
        ∃ t : Int, (|(t : ℚ)| ≤ |r| ∧ |r| < |(t : ℚ)| + 1 ∧ 0 ≤ r * t) ∧ (t < -2 ^ 63 ∨ 2 ^ 64 ≤ t))

/-- `rne32` (R13). A real nearer to zero than the midpoint above the largest binary32 value gives a pattern whose value is
no farther from it than that of any other finite pattern, and of two nearest patterns the even one; from that midpoint on
it gives the infinity of the real's sign (R134). The binary32 layout and where overflow begins are log 11. -/
def Obligations.RoundingIsToNearestEven : Prop :=
  ∀ (num exp : Int),
    let r : ℚ := (num : ℚ) * 2 ^ exp
    let midpoint : ℚ := (2 ^ 25 - 1) * 2 ^ 103
    (|r| < midpoint →
      rne32 num exp < 2 ^ 32 ∧
      ∃ v : ℚ, FVal.IsReal (f32Val (rne32 num exp)) v ∧
        ∀ (x : Nat) (w : ℚ), x < 2 ^ 32 → FVal.IsReal (f32Val x) w →
          |v - r| ≤ |w - r| ∧ (|v - r| = |w - r| → w ≠ v → rne32 num exp % 2 = 0)) ∧
    (midpoint ≤ |r| → rne32 num exp = if num < 0 then 0xFF800000 else 0x7F800000)

/-- UNPACK (R149, R150, R62) on a valid code, lengths and ranges completes: with n = (8*len - p)/W, lane i of the
destination is the lane pattern of the field whose bit j is stream bit i*W + j of the source; RES0 = n, RES1 the lane
format; every other byte and every slot stays. -/
def Obligations.UnpackExtractsEveryField : Prop :=
  ∀ (s : State) (d : DType), Issued s → dtypeValid d = true →
    let src := s.port.lop.op0.toNat
    let len := s.port.lop.op1.toNat
    let p := s.port.lop.op2.toNat
    let dst := s.port.lop.op3.toNat
    let W := (describe d).w
    let lb := laneBytes (outlane (describe d))
    let n := (8 * len - p) / W
    len ≠ 0 → p ≤ 7 → (8 * len - p) % W = 0 → src + len ≤ s.cfg.dmemBytes → dst + n * lb ≤ s.cfg.dmemBytes →
    (src + len ≤ dst ∨ dst + n * lb ≤ src) →
    ∃ t, exec (.unpack d) s = .next t ∧ Completes s t true n (outlane (describe d)).code ∧
      t.accs = s.accs ∧ t.tvs = s.tvs ∧ t.rbs = s.rbs ∧ t.draws = s.draws ∧ KeepsMemOutside s t dst (n * lb) ∧
      1 ≤ n ∧
      ∀ i, i < n → ∃ raw, raw < 2 ^ W ∧ (∀ j, j < W → raw.testBit j = streamBit s.dmem src (i * W + j)) ∧
        memRead t.dmem (dst + i * lb) lb = decLane (describe d) raw

/-- UNPACK's own errors in R149's order: EMPTY, then SHAPE for the padding, SHAPE for the length, ADDR, OVERLAP. -/
def Obligations.UnpackErrorsInOrder : Prop :=
  ∀ (s : State) (d : DType), Issued s → dtypeValid d = true →
    let src := s.port.lop.op0.toNat
    let len := s.port.lop.op1.toNat
    let p := s.port.lop.op2.toNat
    let dst := s.port.lop.op3.toNat
    let W := (describe d).w
    let m := (8 * len - p) / W * laneBytes (outlane (describe d))
    (len = 0 → exec (.unpack d) s = .next (s.raiseError .empty)) ∧
    (len ≠ 0 → 7 < p ∨ (8 * len - p) % W ≠ 0 → exec (.unpack d) s = .next (s.raiseError .shape)) ∧
    (len ≠ 0 → p ≤ 7 → (8 * len - p) % W = 0 → s.cfg.dmemBytes < src + len ∨ s.cfg.dmemBytes < dst + m →
      exec (.unpack d) s = .next (s.raiseError .addr)) ∧
    (len ≠ 0 → p ≤ 7 → (8 * len - p) % W = 0 → src + len ≤ s.cfg.dmemBytes → dst + m ≤ s.cfg.dmemBytes →
      (∃ x, src ≤ x ∧ x < src + len ∧ dst ≤ x ∧ x < dst + m) →
      exec (.unpack d) s = .next (s.raiseError .overlap))

/-- The lane and the value of an unpacked field (R151 to R153): the lane format of R152's table; zero-extended,
sign-extended or ±1 in an integer lane, which holds it; a FLOAT32 field is its own lane; a FIXED field is sext(raw) / 2^f
rounded to binary32, and is exactly that when W is at most 25 (the binary32 layout is log 11, a field of 0 gives +0 by
log 10). -/
def Obligations.LanesHoldTheFieldValue : Prop :=
  ∀ (d : DType) (raw : Nat), dtypeValid d = true → raw < 2 ^ (describe d).w →
    let D := describe d
    let y := decLane D raw
    let w := d.width
    (d.kind = .uint →
      outlane D = if w ≤ 8 then .u8 else if w ≤ 16 then .u16 else if w ≤ 32 then .u32 else .u64) ∧
    (d.kind = .int →
      outlane D = if w ≤ 8 then .s8 else if w ≤ 16 then .s16 else if w ≤ 32 then .s32 else .s64) ∧
    (d.kind = .binary → outlane D = .u8) ∧
    (d.kind = .ternary ∨ d.kind = .bipolar → outlane D = .s8) ∧
    (d.kind = .fixed ∨ d.kind = .float32 → outlane D = .f32) ∧
    y < 2 ^ (8 * laneBytes (outlane D)) ∧
    (d.kind = .uint ∨ d.kind = .binary → laneValue (outlane D) y = .int raw) ∧
    (d.kind = .int ∨ d.kind = .ternary → laneValue (outlane D) y = .int (signed D.w raw)) ∧
    (d.kind = .bipolar → laneValue (outlane D) y = .int (if raw = 1 then 1 else -1)) ∧
    (d.kind = .float32 → y = raw) ∧
    (d.kind = .fixed → y = rne32 (signed D.w raw) (-d.frac)) ∧
    (d.kind = .fixed → w ≤ 25 → FVal.IsReal (f32Val y) ((signed D.w raw : ℚ) / 2 ^ d.frac))

/-- The round trip of one value (R154): for UINT, INT, BINARY, TERNARY and BIPOLAR, any integer lane that holds a value
of D's range encodes to a field that decodes to that value; a FLOAT32 pattern in an F32 lane returns unchanged; for FIXED
of at most 25 bits a float lane that holds a value of D's range returns it exactly when it lies on the grid of 2^-f, and a
value nearer than 2^-f to it otherwise (the float layouts are log 11). -/
def Obligations.FieldRoundTrip : Prop :=
  ∀ (d : DType) (L : LaneFmt) (k x : Nat), dtypeValid d = true →
    (∀ v : Int, laneValue L x = .int v →
      (d.kind = .uint ∧ 0 ≤ v ∧ v < 2 ^ d.width) ∨
      (d.kind = .int ∧ -2 ^ (d.width - 1) ≤ v ∧ v < 2 ^ (d.width - 1)) ∨
      (d.kind = .binary ∧ (v = 0 ∨ v = 1)) ∨ (d.kind = .ternary ∧ (v = -1 ∨ v = 0 ∨ v = 1)) ∨
      (d.kind = .bipolar ∧ (v = -1 ∨ v = 1)) →
      laneValue (outlane (describe d)) (decLane (describe d) (encField (describe d) L k x)) = .int v) ∧
    (d.kind = .float32 → x < 2 ^ 32 → decLane (describe d) (encField (describe d) .f32 k x) = x) ∧
    (d.kind = .fixed → d.width ≤ 25 → ∀ (v : FVal) (u : ℚ), laneValue L x = .flt v → FVal.IsReal v u →
      -2 ^ (d.width - 1) / 2 ^ d.frac ≤ u → u ≤ (2 ^ (d.width - 1) - 1) / 2 ^ d.frac →
      ∃ w : ℚ, FVal.IsReal (f32Val (decLane (describe d) (encField (describe d) L k x))) w ∧
        |w - u| < 1 / 2 ^ d.frac ∧ ((∃ z : Int, u * 2 ^ d.frac = z) → w = u))

/-- The round trip of the machine (R154, R288), for every kind, FIXED up to 25 bits: when PACK has packed n > 0 lanes of
D's own output format, each the lane of a field of D, an UNPACK of the bytes it wrote, given its RES1 as padding, answers
RES0 = n and restores every lane. For FIXED these are the values on the grid of 2^-f, for FLOAT32 every pattern. -/
def Obligations.UnpackRestoresWhatPackPacked : Prop :=
  ∀ (s t t' : State) (d : DType), dtypeValid d = true → (d.kind = .fixed → d.width ≤ 25) →
    let L := outlane (describe d)
    let lb := laneBytes L
    let src := s.port.lop.op0.toNat
    let n := s.port.lop.op1.toNat
    let dst := s.port.lop.op2.toNat
    let out := t'.port.lop.op3.toNat
    Issued s → 0 < n →
    (∀ i, i < n → ∃ raw, raw < 2 ^ (describe d).w ∧ memRead s.dmem (src + i * lb) lb = decLane (describe d) raw) →
    exec (.pack L d) s = .next t → t.port.status.err = .noError →
    Issued t' → t'.dmem = t.dmem → t'.cfg = t.cfg → t'.port.lop.op0 = s.port.lop.op2 →
    t'.port.lop.op1 = t.port.res0 → t'.port.lop.op2 = t.port.res1 →
    out + n * lb ≤ t'.cfg.dmemBytes → t'.cfg.dmemBytes ≤ 2 ^ 20 →
    (dst + t.port.res0.toNat ≤ out ∨ out + n * lb ≤ dst) →
    ∃ u, exec (.unpack d) t' = .next u ∧ u.port.status.err = .noError ∧ u.port.res0 = BitVec.ofNat 64 n ∧
      ∀ i, i < n → memRead u.dmem (out + i * lb) lb = memRead s.dmem (src + i * lb) lb

/-- PACK and UNPACK are stateless (R130): two states that agree on the command's operands, the instance, the source
bytes (and the free values still to come, log 7) get the same results and the same destination bytes. -/
def Obligations.CodecDependsOnItsSourceAlone : Prop :=
  ∀ (s s' t : State) (fmt : LaneFmt) (d : DType), Issued s → Issued s' → s'.cfg = s.cfg → s'.draws = s.draws →
    s'.port.lop = s.port.lop →
    ((∀ x, s.port.lop.op0.toNat ≤ x → x < s.port.lop.op0.toNat + s.port.lop.op1.toNat * laneBytes fmt →
        s'.dmem.byte x = s.dmem.byte x) →
      exec (.pack fmt d) s = .next t →
      ∃ t', exec (.pack fmt d) s' = .next t' ∧ t'.port.res0 = t.port.res0 ∧ t'.port.res1 = t.port.res1 ∧
        t'.port.status.err = t.port.status.err ∧
        (t.port.status.err = .noError → ∀ x, s.port.lop.op2.toNat ≤ x →
          x < s.port.lop.op2.toNat + t.port.res0.toNat → t'.dmem.byte x = t.dmem.byte x)) ∧
    ((∀ x, s.port.lop.op0.toNat ≤ x → x < s.port.lop.op0.toNat + s.port.lop.op1.toNat →
        s'.dmem.byte x = s.dmem.byte x) →
      exec (.unpack d) s = .next t →
      ∃ t', exec (.unpack d) s' = .next t' ∧ t'.port.res0 = t.port.res0 ∧ t'.port.res1 = t.port.res1 ∧
        t'.port.status.err = t.port.status.err ∧
        (t.port.status.err = .noError → ∀ x, s.port.lop.op3.toNat ≤ x →
          x < s.port.lop.op3.toNat + t.port.res0.toNat * laneBytes (outlane (describe d)) →
          t'.dmem.byte x = t.dmem.byte x))

/-! ### Bit accumulator -/

/-- ACC_NEW (R171): SLOT for an index out of range, then CONFIG above ACC_MAX_BITS, else the slot, whatever it held, is
LIVE with ceil(nBits/8) bytes of 0; no other slot and no byte of DMEM changes. -/
def Obligations.AccNewMakesAZeroedSlot : Prop :=
  ∀ s : State, Issued s →
    let a := s.port.lop.op0.toNat
    let nBits := s.port.lop.op1.toNat
    (s.accs.length ≤ a → exec .accNew s = .next (s.raiseError .slot)) ∧
    (a < s.accs.length → s.cfg.accMaxBits < nBits → exec .accNew s = .next (s.raiseError .config)) ∧
    (a < s.accs.length → nBits ≤ s.cfg.accMaxBits →
      ∃ t x, exec .accNew s = .next t ∧ Completes s t true (ceilDiv nBits 8) 0 ∧ t.accs = s.accs.set a x ∧
        x.state = .live ∧ x.nbytes = ceilDiv nBits 8 ∧ (∀ b, bitAt x.bytes b = false) ∧
        KeepsMem s t ∧ t.tvs = s.tvs ∧ t.rbs = s.rbs ∧ t.draws = s.draws)

/-- ACC_SETBIT (R172) on a LIVE slot sets bit n when it is inside the capacity and changes no other bit, slot or byte;
on any other slot it ends with SLOT (R170). -/
def Obligations.AccSetbitSetsOneBit : Prop :=
  ∀ s : State, Issued s →
    let k := s.port.lop.op0.toNat
    ((∀ a, s.accs[k]? = some a → a.state ≠ .live) → exec .accSetbit s = .next (s.raiseError .slot)) ∧
    (∀ a, s.accs[k]? = some a → a.state = .live →
      ∃ t bs, exec .accSetbit s = .next t ∧ Completes s t true 0 0 ∧ t.accs = s.accs.set k { a with bytes := bs } ∧
        bs.length = a.nbytes ∧
        (∀ b, bitAt bs b = (bitAt a.bytes b || decide (b = s.port.lop.op1.toNat ∧ b < 8 * a.nbytes))) ∧
        KeepsMem s t ∧ t.tvs = s.tvs ∧ t.rbs = s.rbs ∧ t.draws = s.draws)

/-- ACC_SETBITS (R173) on a LIVE slot with a width of 8, 16, 32 or 64 ORs bit j of the value in at n + j, discarding what
falls beyond the capacity, and changes nothing else; another width is CONFIG, another slot SLOT. -/
def Obligations.AccSetbitsOrsTheValueIn : Prop :=
  ∀ s : State, Issued s →
    let k := s.port.lop.op0.toNat
    let val := s.port.lop.op1.toNat
    let n := s.port.lop.op2.toNat
    let w := s.port.lop.op3.toNat
    ((∀ a, s.accs[k]? = some a → a.state ≠ .live) → exec .accSetbits s = .next (s.raiseError .slot)) ∧
    (∀ a, s.accs[k]? = some a → a.state = .live →
      (¬ (w = 8 ∨ w = 16 ∨ w = 32 ∨ w = 64) → exec .accSetbits s = .next (s.raiseError .config)) ∧
      ((w = 8 ∨ w = 16 ∨ w = 32 ∨ w = 64) →
        ∃ t bs, exec .accSetbits s = .next t ∧ Completes s t true 0 0 ∧
          t.accs = s.accs.set k { a with bytes := bs } ∧ bs.length = a.nbytes ∧
          (∀ b, bitAt bs b =
            (bitAt a.bytes b || decide (n ≤ b ∧ b < n + w ∧ b < 8 * a.nbytes) && val.testBit (b - n))) ∧
          KeepsMem s t ∧ t.tvs = s.tvs ∧ t.rbs = s.rbs ∧ t.draws = s.draws))

/-- ACC_ORMERGE (R174) of two LIVE slots of one length ORs the source's bits into the destination and leaves the source
alone; unequal lengths are SHAPE, another slot SLOT. Merging is commutative and associative. -/
def Obligations.AccOrmergeOrsBytes : Prop :=
  (∀ s : State, Issued s →
    let kd := s.port.lop.op0.toNat
    let ks := s.port.lop.op1.toNat
    ((∀ a, s.accs[kd]? = some a → a.state ≠ .live) ∨ (∀ a, s.accs[ks]? = some a → a.state ≠ .live) →
      exec .accOrmerge s = .next (s.raiseError .slot)) ∧
    (∀ a b, s.accs[kd]? = some a → a.state = .live → s.accs[ks]? = some b → b.state = .live →
      (a.nbytes ≠ b.nbytes → exec .accOrmerge s = .next (s.raiseError .shape)) ∧
      (a.nbytes = b.nbytes →
        ∃ t, exec .accOrmerge s = .next t ∧ Completes s t true 0 0 ∧
          t.accs = s.accs.set kd { a with bytes := orBytes a.bytes b.bytes } ∧
          KeepsMem s t ∧ t.tvs = s.tvs ∧ t.rbs = s.rbs ∧ t.draws = s.draws))) ∧
  (∀ a b : List Byte, a.length = b.length →
    (orBytes a b).length = a.length ∧ (∀ k, bitAt (orBytes a b) k = (bitAt a k || bitAt b k)) ∧
    orBytes a b = orBytes b a ∧ ∀ c, orBytes (orBytes a b) c = orBytes a (orBytes b c))

/-- ACC_TOBYTES (R175) on a LIVE slot whose image fits DMEM writes exactly its bytes at dst and consumes the slot; an
image outside DMEM is ADDR, another slot SLOT, the slot staying as it was. -/
def Obligations.AccTobytesMovesTheBytesOut : Prop :=
  ∀ s : State, Issued s →
    let k := s.port.lop.op0.toNat
    let dst := s.port.lop.op1.toNat
    ((∀ a, s.accs[k]? = some a → a.state ≠ .live) → exec .accTobytes s = .next (s.raiseError .slot)) ∧
    (∀ a, s.accs[k]? = some a → a.state = .live →
      (s.cfg.dmemBytes < dst + a.nbytes → exec .accTobytes s = .next (s.raiseError .addr)) ∧
      (dst + a.nbytes ≤ s.cfg.dmemBytes →
        ∃ t x, exec .accTobytes s = .next t ∧ Completes s t true a.nbytes 0 ∧ t.accs = s.accs.set k x ∧
          x.state = .consumed ∧ KeepsMemOutside s t dst a.nbytes ∧
          (∀ i, i < a.nbytes → t.dmem.byte (dst + i) = a.bytes.getD i 0) ∧
          t.tvs = s.tvs ∧ t.rbs = s.rbs ∧ t.draws = s.draws))

/-- ACC_BITSTR (R176) on a LIVE slot whose text fits DMEM writes 8*nbytes ASCII characters, character k for bit m-1-k,
and leaves the slot alone; a text outside DMEM is ADDR, another slot SLOT. -/
def Obligations.AccBitstrWritesMsbFirst : Prop :=
  ∀ s : State, Issued s →
    let k := s.port.lop.op0.toNat
    let dst := s.port.lop.op1.toNat
    ((∀ a, s.accs[k]? = some a → a.state ≠ .live) → exec .accBitstr s = .next (s.raiseError .slot)) ∧
    (∀ a, s.accs[k]? = some a → a.state = .live →
      (s.cfg.dmemBytes < dst + 8 * a.nbytes → exec .accBitstr s = .next (s.raiseError .addr)) ∧
      (dst + 8 * a.nbytes ≤ s.cfg.dmemBytes →
        ∃ t, exec .accBitstr s = .next t ∧ Completes s t true (8 * a.nbytes) 0 ∧
          KeepsMemOutside s t dst (8 * a.nbytes) ∧
          (∀ i, i < 8 * a.nbytes →
            t.dmem.byte (dst + i) = if bitAt a.bytes (8 * a.nbytes - 1 - i) then 0x31 else 0x30) ∧
          t.accs = s.accs ∧ t.tvs = s.tvs ∧ t.rbs = s.rbs ∧ t.draws = s.draws))

/-- Accumulator monotonicity (R32, R178): over any step that is no reset and in which no ACC_NEW runs on the slot, a set
bit of a LIVE slot stays set while the slot stays LIVE, and the slot leaves LIVE only for CONSUMED. The model's `cur`
says which port moved (log 19). -/
def Obligations.AccumulatorBitsNeverClear : Prop :=
  ∀ (s t : State) (k b : Nat) (a : AccSlot), step s = .next t →
    (∀ image rest, s.agenda ≠ .reset image :: rest) →
    (∀ (p : Nat) (q : Port), Moves s t p q → decode q.lcw = .ok .accNew → q.lop.op0.toNat ≠ k) →
    s.accs[k]? = some a → a.state = .live → bitAt a.bytes b = true →
    ∃ a', t.accs[k]? = some a' ∧
      (a'.state = .consumed ∨ a'.state = .live ∧ a'.nbytes = a.nbytes ∧ bitAt a'.bytes b = true)

/-! ### Tensor view -/

/-- TV_NEW and TV_SETSHAPE (R190 to R192): the checks in their order, and on success the view of the range under the
shape read from DMEM, with its strides, RES0 = the slices and RES1 = their length; on an error the slot stays. -/
def Obligations.TvNewAndSetshapeInstallTheShape : Prop :=
  ∀ (s : State) (i : Instr) (first last : Word), Issued s →
    let k := s.port.lop.op0.toNat
    let addr := s.port.lop.op3.toNat
    let rank := s.port.lop.op4.toNat
    let sh := readLanes s.dmem addr 8 rank
    (i = .tvNew ∧ k < s.tvs.length ∧ first = s.port.lop.op1 ∧ last = s.port.lop.op2 ∨
      i = .tvSetshape ∧ ∃ v, s.tvs[k]? = some v ∧ v.state = .live ∧ first = v.first ∧ last = v.last ∧
        first.toNat ≤ last.toNat) →
    (rank = 0 → exec i s = .next (s.raiseError .shape)) ∧
    (rank ≠ 0 → s.cfg.tvMaxRank < rank → exec i s = .next (s.raiseError .config)) ∧
    (rank ≠ 0 → rank ≤ s.cfg.tvMaxRank → s.cfg.dmemBytes < addr + 8 * rank →
      exec i s = .next (s.raiseError .addr)) ∧
    (rank ≠ 0 → rank ≤ s.cfg.tvMaxRank → addr + 8 * rank ≤ s.cfg.dmemBytes →
      (0 ∈ sh ∨ last.toNat < first.toNat ∨ dimProduct sh ≠ last.toNat - first.toNat) →
      exec i s = .next (s.raiseError .shape)) ∧
    (rank ≠ 0 → rank ≤ s.cfg.tvMaxRank → addr + 8 * rank ≤ s.cfg.dmemBytes → 0 ∉ sh →
      first.toNat ≤ last.toNat → dimProduct sh = last.toNat - first.toNat →
      ∃ t v, exec i s = .next t ∧ Completes s t true (dimProduct sh.dropLast) (sh.getLastD 1) ∧
        t.tvs = s.tvs.set k v ∧ v.state = .live ∧ v.first = first ∧ v.last = last ∧ v.shape = sh ∧
        v.stride.length = rank ∧ (∀ j, j < rank → v.stride.getD j 0 = dimProduct (sh.drop (j + 1))) ∧
        KeepsMem s t ∧ t.accs = s.accs ∧ t.rbs = s.rbs ∧ t.draws = s.draws)

/-- The slot check of the view commands (R190): TV_NEW ends with SLOT for an index out of range, every other one also for
a slot that is not LIVE. -/
def Obligations.TvCommandsCheckTheSlot : Prop :=
  ∀ s : State, Issued s →
    let k := s.port.lop.op0.toNat
    (s.tvs.length ≤ k → exec .tvNew s = .next (s.raiseError .slot)) ∧
    ((∀ v, s.tvs[k]? = some v → v.state ≠ .live) →
      ∀ i ∈ [Instr.tvSetshape, .tvNslices, .tvSlice, .tvStride], exec i s = .next (s.raiseError .slot))

/-- TV_NSLICES, TV_SLICE and TV_STRIDE (R193 to R195) on a LIVE view complete with its counts, its slice s, its stride
and dimension i; an index out of range is RANGE; none of them changes a slot or DMEM (R197). -/
def Obligations.TvQueriesAnswer : Prop :=
  ∀ (s : State) (v : TvSlot), Issued s → s.tvs[s.port.lop.op0.toNat]? = some v → v.state = .live →
    let i := s.port.lop.op1.toNat
    (∃ t, exec .tvNslices s = .next t ∧ Completes s t true v.nslices v.inner ∧ KeepsSlotsAndMem s t) ∧
    (v.nslices ≤ i → exec .tvSlice s = .next (s.raiseError .range)) ∧
    (i < v.nslices →
      ∃ t, exec .tvSlice s = .next t ∧ Completes s t true (v.first.toNat + i * v.inner) v.inner ∧
        KeepsSlotsAndMem s t) ∧
    (v.rank ≤ i → exec .tvStride s = .next (s.raiseError .range)) ∧
    (i < v.rank →
      ∃ t, exec .tvStride s = .next t ∧ Completes s t true (v.stride.getD i 0) (v.shape.getD i 0) ∧
        KeepsSlotsAndMem s t)

/-- Slice coverage (R196) and the stride table (R34) of a view that meets its invariant: the slices tile the range in
order with no overlap and no gap, and stride[0] * shape[0] is the range. -/
def Obligations.SlicesTileTheView : Prop :=
  ∀ (p : Config.Params) (v : TvSlot), TvOk p v → v.state = .live →
    v.nslices * v.inner = v.extent ∧
    (∀ x, v.first.toNat ≤ x → x < v.last.toNat →
      ∃! i, i < v.nslices ∧ v.first.toNat + i * v.inner ≤ x ∧ x < v.first.toNat + i * v.inner + v.inner) ∧
    (∀ i, i < v.nslices → v.first.toNat + i * v.inner + v.inner ≤ v.last.toNat) ∧
    v.stride.getD (v.rank - 1) 0 = 1 ∧ v.stride.getD 0 0 * v.shape.getD 0 0 = v.extent ∧
    (∀ i, i + 1 < v.rank → v.stride.getD i 0 = v.stride.getD (i + 1) 0 * v.shape.getD (i + 1) 0)

/-! ### Ring buffer -/

/-- RB_NEW (R213): SLOT out of range or not FREE, then CONFIG for a bad mode, element size, zero size or a size above
RB_MAX_ELEMS; else the slot is LIVE and empty with the parameters given. -/
def Obligations.RbNewMakesAnEmptyRing : Prop :=
  ∀ s : State, Issued s →
    let k := s.port.lop.op0.toNat
    let parts := s.port.lop.op1.toNat
    let epp := s.port.lop.op2.toNat
    let mode := s.port.lop.op3.toNat
    let eb := s.port.lop.op4.toNat
    let good := (mode = 0 ∨ mode = 1) ∧ (eb = 1 ∨ eb = 2 ∨ eb = 4 ∨ eb = 8) ∧ parts * epp ≠ 0 ∧
      parts * epp ≤ s.cfg.rbMaxElems
    ((∀ r, s.rbs[k]? = some r → r.state ≠ .free) → exec .rbNew s = .next (s.raiseError .slot)) ∧
    (∀ r, s.rbs[k]? = some r → r.state = .free →
      (¬ good → exec .rbNew s = .next (s.raiseError .config)) ∧
      (good →
        ∃ t x, exec .rbNew s = .next t ∧ Completes s t true (parts * epp) 0 ∧ t.rbs = s.rbs.set k x ∧
          x.state = .live ∧ x.mode = (if mode = 1 then .mt else .st) ∧ x.parts = parts ∧ x.epp = epp ∧
          x.ebytes = eb ∧ x.cap = parts * epp ∧ x.rd = 0 ∧ x.occ = 0 ∧ x.owner = none ∧ x.valid = [] ∧
          KeepsMem s t ∧ t.accs = s.accs ∧ t.tvs = s.tvs ∧ t.draws = s.draws))

/-- RB_STORE's effect (R214) in either mode: with room for len elements it completes with RES0 = len and RES1 = the
occupancy, the ring's elements become the old ones followed by the len lanes at src, and nothing else moves. -/
def Obligations.RbStoreAppends : Prop :=
  ∀ (s : State) (blk : Bool) (r : RingSlot), s.cur < s.ports.length →
    let k := s.port.lop.op0.toNat
    let src := s.port.lop.op1.toNat
    let len := s.port.lop.op2.toNat
    s.rbs[k]? = some r → RingOk s.cfg r → Performs s r → len % r.epp = 0 →
    src + len * r.ebytes ≤ s.cfg.dmemBytes → r.occ + len ≤ r.cap →
    ∃ t r', exec (.rbStore blk) s = .next t ∧ Completes s t true len (r.occ + len) ∧ t.rbs = s.rbs.set k r' ∧
      r'.valid = r.valid ++ (List.range len).map (fun j => BitVec.ofNat 64 (memRead s.dmem (src + j * r.ebytes) r.ebytes)) ∧
      r' = { r with store := r'.store, occ := r.occ + len, owner := ownerAfter s r } ∧
      KeepsMem s t ∧ t.accs = s.accs ∧ t.tvs = s.tvs ∧ t.draws = s.draws

/-- RB_READ's effect (R215) in either mode: with a part present it completes with RES0 = epp and RES1 = what is left,
writes the oldest part's elements to dst as ebytes-byte lanes, removes them, and nothing else moves. -/
def Obligations.RbReadRemovesTheOldestPart : Prop :=
  ∀ (s : State) (blk : Bool) (r : RingSlot), s.cur < s.ports.length →
    let k := s.port.lop.op0.toNat
    let dst := s.port.lop.op1.toNat
    s.rbs[k]? = some r → RingOk s.cfg r → Performs s r → dst + r.epp * r.ebytes ≤ s.cfg.dmemBytes →
    r.epp ≤ r.occ →
    ∃ t r', exec (.rbRead blk) s = .next t ∧ Completes s t true r.epp (r.occ - r.epp) ∧ t.rbs = s.rbs.set k r' ∧
      r.valid = r.valid.take r.epp ++ r'.valid ∧
      r' = { r with rd := r'.rd, occ := r.occ - r.epp, owner := ownerAfter s r } ∧
      KeepsMemOutside s t dst (r.epp * r.ebytes) ∧
      (∀ j, j < r.epp →
        memRead t.dmem (dst + j * r.ebytes) r.ebytes = (r.valid.getD j 0).toNat % 2 ^ (8 * r.ebytes)) ∧
      t.accs = s.accs ∧ t.tvs = s.tvs ∧ t.draws = s.draws

/-- RB_READALL (R216) in either mode: a ring that is not empty is drained to dst oldest first, or ends with ADDR with
nothing moved (an ST ring is released, log 14); an empty ring answers false. -/
def Obligations.RbReadallDrains : Prop :=
  ∀ (s : State) (r : RingSlot), s.cur < s.ports.length →
    let k := s.port.lop.op0.toNat
    let dst := s.port.lop.op1.toNat
    s.rbs[k]? = some r → RingOk s.cfg r → Performs s r →
    (0 < r.occ → dst + r.occ * r.ebytes ≤ s.cfg.dmemBytes →
      ∃ t r', exec .rbReadall s = .next t ∧ Completes s t true r.occ 0 ∧ t.rbs = s.rbs.set k r' ∧ r'.valid = [] ∧
        r' = { r with rd := r'.rd, occ := 0, owner := ownerAfter s r } ∧
        KeepsMemOutside s t dst (r.occ * r.ebytes) ∧
        (∀ j, j < r.occ →
          memRead t.dmem (dst + j * r.ebytes) r.ebytes = (r.valid.getD j 0).toNat % 2 ^ (8 * r.ebytes)) ∧
        t.accs = s.accs ∧ t.tvs = s.tvs ∧ t.draws = s.draws) ∧
    (0 < r.occ → s.cfg.dmemBytes < dst + r.occ * r.ebytes →
      exec .rbReadall s = .next ((s.setRing k { r with owner := ownerAfter s r }).raiseError .addr)) ∧
    (r.occ = 0 → s.port.phase ≠ .waiting →
      ∃ t, exec .rbReadall s = .next t ∧ Completes s t false 0 0 ∧
        t.rbs = s.rbs.set k { r with owner := ownerAfter s r } ∧
        KeepsMem s t ∧ t.accs = s.accs ∧ t.tvs = s.tvs ∧ t.draws = s.draws)

/-- RB_FULL, RB_EMPTY and RB_SIZE (R217 to R219) in either mode complete with the answer, size() in the instance's unit,
and change nothing of the ring but an ST ring's owner (R235). -/
def Obligations.RbQueriesAnswer : Prop :=
  ∀ (s : State) (r : RingSlot), s.cur < s.ports.length → s.rbs[s.port.lop.op0.toNat]? = some r → Performs s r →
    ∀ e ∈ [(Instr.rbFull, if r.occ = r.cap then 1 else 0), (.rbEmpty, if r.occ = 0 then 1 else 0),
        (.rbSize, if Config.rbSizeUnit = .elements then r.occ else r.occ / r.epp)],
      ∃ t, exec e.1 s = .next t ∧ Completes s t true e.2 0 ∧
        t.rbs = s.rbs.set s.port.lop.op0.toNat { r with owner := ownerAfter s r } ∧
        KeepsMem s t ∧ t.accs = s.accs ∧ t.tvs = s.tvs ∧ t.draws = s.draws

/-- The checks before a ring command starts (R212, R214, R215): SLOT out of range or FREE, RACE when POISONED; then
RB_STORE's SHAPE and ADDR and RB_READ's ADDR, in that order, whatever the mode. -/
def Obligations.RingCommandsCheckFirst : Prop :=
  ∀ (s : State) (blk : Bool), Issued s →
    let k := s.port.lop.op0.toNat
    let a := s.port.lop.op1.toNat
    let len := s.port.lop.op2.toNat
    (∀ i ∈ [Instr.rbStore blk, .rbRead blk, .rbReadall, .rbFull, .rbEmpty, .rbSize],
      ((∀ r, s.rbs[k]? = some r → r.state = .free) → exec i s = .next (s.raiseError .slot)) ∧
      (∀ r, s.rbs[k]? = some r → r.state = .poisoned → exec i s = .next (s.raiseError .race))) ∧
    (∀ r, s.rbs[k]? = some r → r.state = .live →
      (len % r.epp ≠ 0 ∨ r.cap < len → exec (.rbStore blk) s = .next (s.raiseError .shape)) ∧
      (len % r.epp = 0 → len ≤ r.cap → s.cfg.dmemBytes < a + len * r.ebytes →
        exec (.rbStore blk) s = .next (s.raiseError .addr)) ∧
      (s.cfg.dmemBytes < a + r.epp * r.ebytes → exec (.rbRead blk) s = .next (s.raiseError .addr)))

/-- An RB_STORE or RB_READ on a LIVE MT ring whose checks pass and whose condition is false (R231, R232): non-blocking
it answers false with nothing moved, blocking it enters WAITING with STATUS.WAITING = 1 and holds nothing; a WAITING
port does not move while the condition stays false (an event that names it changes nothing, log 3). -/
def Obligations.MtRingFailsOrWaits : Prop :=
  ∀ (s : State) (blk : Bool) (r : RingSlot), s.cur < s.ports.length →
    let k := s.port.lop.op0.toNat
    let a := s.port.lop.op1.toNat
    let len := s.port.lop.op2.toNat
    s.rbs[k]? = some r → r.state = .live → r.mode = .mt →
    ∀ i, (i = .rbStore blk ∧ len % r.epp = 0 ∧ len ≤ r.cap ∧ a + len * r.ebytes ≤ s.cfg.dmemBytes ∧
        r.cap < r.occ + len ∨
      i = .rbRead blk ∧ a + r.epp * r.ebytes ≤ s.cfg.dmemBytes ∧ r.occ < r.epp) →
    (s.port.phase = .issued → s.gstatus.cfgerr = false → blk = false →
      ∃ t, exec i s = .next t ∧ Completes s t false 0 r.occ ∧ KeepsSlotsAndMem s t) ∧
    (s.port.phase = .issued → s.gstatus.cfgerr = false → blk = true →
      exec i s = .next (s.setPort { s.port with
        phase := .waiting
        status := { s.port.status with waiting := true } })) ∧
    (s.port.phase = .waiting → exec i s = .next s)

/-- The two steps of each of the six ring commands on a LIVE ST ring (R235). Step 1, with no owner and the checks passed,
takes the ring: owner = p, HELD, STATUS.WAITING = 1 when the command blocks on a false condition (R26, log 15), nothing
else. Step 2 with the condition true performs: the command completes with true (RB_READALL may end with ADDR) and the ring
is LIVE with no owner (log 14); what moves is said by the statement of each command. Step 2 with the condition false
ends a command that does not block with false, and leaves one that blocks stuck: it has no step (log 3). -/
def Obligations.StRingAcquiresThenPerforms : Prop :=
  ∀ (s : State) (i : Instr) (r : RingSlot), s.cur < s.ports.length →
    let k := s.port.lop.op0.toNat
    s.rbs[k]? = some r → r.state = .live → r.mode = .st → PreHolds i s r →
    (s.port.phase = .issued → s.gstatus.cfgerr = false → r.owner = none →
      ∃ w : Bool, (w = true ↔ Blocks i ∧ ¬ CondHolds i s.port.lop r) ∧
        exec i s = .next ((s.setRing k { r with owner := some s.cur }).setPort { s.port with
          phase := .held
          status := { s.port.status with waiting := w } })) ∧
    (s.port.phase = .held → CondHolds i s.port.lop r →
      ∃ t r', exec i s = .next t ∧ t.port.phase = .idle ∧ t.port.status.busy = false ∧
        t.port.status.waiting = false ∧
        (t.port.status.err = .noError ∧ t.port.status.result = true ∨
          i = .rbReadall ∧ s.cfg.dmemBytes < s.port.lop.op1.toNat + r.occ * r.ebytes ∧ t.port.status.err = .addr) ∧
        t.rbs = s.rbs.set k r' ∧ r'.owner = none ∧ r'.state = .live ∧ r'.mode = .st ∧ r'.cap = r.cap ∧
        r'.epp = r.epp ∧ r'.ebytes = r.ebytes) ∧
    (s.port.phase = .held → ¬ CondHolds i s.port.lop r → ¬ Blocks i →
      ∃ t, exec i s = .next t ∧ Completes s t false 0 r.occ ∧ t.rbs = s.rbs.set k { r with owner := none } ∧
        KeepsMem s t ∧ t.accs = s.accs ∧ t.tvs = s.tvs ∧ t.draws = s.draws) ∧
    (s.port.phase = .held → ¬ CondHolds i s.port.lop r → Blocks i → s.port.lcw = encode i →
      exec i s = .next s ∧ s.PortStuck s.cur)

/-- The RACE fault (R236): step 1 on an ST ring that has an owner sets GSTATUS.FAULT, poisons the ring and ends with
RACE; the owner's step 2 then ends with RACE too and releases the ring. That the POISONED ring keeps its other fields is
the model's choice (log 13), and so is the form of the fault as a next state (log 16). -/
def Obligations.ConcurrentStUseIsTheRaceFault : Prop :=
  ∀ (s : State) (r : RingSlot), s.cur < s.ports.length →
    let k := s.port.lop.op0.toNat
    s.rbs[k]? = some r →
    ∀ i ∈ [Instr.rbReadall, .rbFull, .rbEmpty, .rbSize, .rbStore true, .rbStore false, .rbRead true, .rbRead false],
    (s.port.phase = .issued → s.gstatus.cfgerr = false → r.state = .live → r.mode = .st → r.owner ≠ none →
      PreHolds i s r →
      ∃ t, exec i s = .next t ∧ t.gstatus = { s.gstatus with fault := true } ∧
        t.rbs = s.rbs.set k { r with state := .poisoned } ∧ t.port.phase = .idle ∧ t.port.status.err = .race ∧
        t.port.res0 = 0 ∧ t.port.res1 = 0 ∧ (∀ p, p ≠ s.cur → t.ports[p]? = s.ports[p]?) ∧
        KeepsMem s t ∧ t.accs = s.accs ∧ t.tvs = s.tvs) ∧
    (s.port.phase = .held → r.state = .poisoned →
      exec i s = .next ((s.setRing k { r with owner := none }).raiseError .race))

/-- FIFO (R238): over any step from a state that meets the invariants, a LIVE ring's elements only grow at the back or
shrink at the front, unless the step was a reset. In the step that makes the ring POISONED they stay by the model's choice
(log 13). -/
def Obligations.RingsAreFirstInFirstOut : Prop :=
  ∀ (s t : State) (k : Nat) (r : RingSlot), Inv s → step s = .next t →
    (∀ image rest, s.agenda ≠ .reset image :: rest) → s.rbs[k]? = some r → r.state = .live →
    ∃ r', t.rbs[k]? = some r' ∧ r'.cap = r.cap ∧ r'.epp = r.epp ∧
      ((∃ new, r'.valid = r.valid ++ new ∧ new.length % r.epp = 0) ∨
        (∃ old, r.valid = old ++ r'.valid ∧ old.length % r.epp = 0))

/-! ### Lanes -/

/-- Lane formats (R86): the code and the bytes of each, and the value of a lane: unsigned, two's complement, or the
binary32 or binary64 value of its pattern (the layouts of the two are IEEE-754's, log 11). -/
def Obligations.LaneFormatsFollowTheirTable : Prop :=
  (∀ e ∈ [(LaneFmt.u8, 0, 1), (.u16, 1, 2), (.u32, 2, 4), (.u64, 3, 8), (.s8, 4, 1), (.s16, 5, 2), (.s32, 6, 4),
      (.s64, 7, 8), (.f32, 8, 4), (.f64, 9, 8)], e.1.code = e.2.1 ∧ laneBytes e.1 = e.2.2) ∧
  (∀ x, ∀ L ∈ [LaneFmt.u8, .u16, .u32, .u64], laneValue L x = .int x) ∧
  (∀ x, ∀ L ∈ [LaneFmt.s8, .s16, .s32, .s64], x < 2 ^ (8 * laneBytes L) →
    ∃ v : Int, laneValue L x = .int v ∧ v % 2 ^ (8 * laneBytes L) = x ∧
      -2 ^ (8 * laneBytes L - 1) ≤ v ∧ v < 2 ^ (8 * laneBytes L - 1)) ∧
  (∀ neg e f : Nat, neg < 2 → e < 2 ^ 8 → f < 2 ^ 23 →
    ∃ v, laneValue .f32 (neg * 2 ^ 31 + e * 2 ^ 23 + f) = .flt v ∧
      (e = 255 → f = 0 → v = .inf (neg == 1)) ∧ (e = 255 → f ≠ 0 → v = .nan) ∧
      (e = 0 → FVal.IsReal v ((-1) ^ neg * f * 2 ^ (-149 : Int))) ∧
      (0 < e → e < 255 → FVal.IsReal v ((-1) ^ neg * (2 ^ 23 + f) * 2 ^ ((e : Int) - 150)))) ∧
  ∀ neg e f : Nat, neg < 2 → e < 2 ^ 11 → f < 2 ^ 52 →
    ∃ v, laneValue .f64 (neg * 2 ^ 63 + e * 2 ^ 52 + f) = .flt v ∧
      (e = 2047 → f = 0 → v = .inf (neg == 1)) ∧ (e = 2047 → f ≠ 0 → v = .nan) ∧
      (e = 0 → FVal.IsReal v ((-1) ^ neg * f * 2 ^ (-1074 : Int))) ∧
      (0 < e → e < 2047 → FVal.IsReal v ((-1) ^ neg * (2 ^ 52 + f) * 2 ^ ((e : Int) - 1075)))
end

