-- ==== Sys2Proof/Laws/State.lean ====
section
/-! SUPPORT. One lemma per field per named update of the state, each true by unfolding it, so that no later proof
unfolds a record update. -/

namespace Sys2Proof.Machine

variable (s : State)

/-! ### `State.setMem` -/

@[simp] theorem setMem_cfg (m : Memory) : (s.setMem m).cfg = s.cfg := rfl

@[simp] theorem setMem_gstatus (m : Memory) : (s.setMem m).gstatus = s.gstatus := rfl

@[simp] theorem setMem_dmem (m : Memory) : (s.setMem m).dmem = m := rfl

@[simp] theorem setMem_ports (m : Memory) : (s.setMem m).ports = s.ports := rfl

@[simp] theorem setMem_accs (m : Memory) : (s.setMem m).accs = s.accs := rfl

@[simp] theorem setMem_tvs (m : Memory) : (s.setMem m).tvs = s.tvs := rfl

@[simp] theorem setMem_rbs (m : Memory) : (s.setMem m).rbs = s.rbs := rfl

@[simp] theorem setMem_cur (m : Memory) : (s.setMem m).cur = s.cur := rfl

@[simp] theorem setMem_agenda (m : Memory) : (s.setMem m).agenda = s.agenda := rfl

@[simp] theorem setMem_tick (m : Memory) : (s.setMem m).tick = s.tick := rfl

@[simp] theorem setMem_draws (m : Memory) : (s.setMem m).draws = s.draws := rfl

@[simp] theorem setMem_hostData (m : Memory) : (s.setMem m).hostData = s.hostData := rfl

@[simp] theorem setMem_port (m : Memory) : (s.setMem m).port = s.port := rfl

@[simp] theorem setMem_lop (m : Memory) : (s.setMem m).lop = s.lop := rfl

/-! ### `State.setPort` -/

@[simp] theorem setPort_cfg (p : Port) : (s.setPort p).cfg = s.cfg := rfl

@[simp] theorem setPort_gstatus (p : Port) : (s.setPort p).gstatus = s.gstatus := rfl

@[simp] theorem setPort_dmem (p : Port) : (s.setPort p).dmem = s.dmem := rfl

@[simp] theorem setPort_ports (p : Port) : (s.setPort p).ports = s.ports.set s.cur p := rfl

@[simp] theorem setPort_accs (p : Port) : (s.setPort p).accs = s.accs := rfl

@[simp] theorem setPort_tvs (p : Port) : (s.setPort p).tvs = s.tvs := rfl

@[simp] theorem setPort_rbs (p : Port) : (s.setPort p).rbs = s.rbs := rfl

@[simp] theorem setPort_cur (p : Port) : (s.setPort p).cur = s.cur := rfl

@[simp] theorem setPort_agenda (p : Port) : (s.setPort p).agenda = s.agenda := rfl

@[simp] theorem setPort_tick (p : Port) : (s.setPort p).tick = s.tick := rfl

@[simp] theorem setPort_draws (p : Port) : (s.setPort p).draws = s.draws := rfl

@[simp] theorem setPort_hostData (p : Port) : (s.setPort p).hostData = s.hostData := rfl

/-! ### `State.setAcc` -/

@[simp] theorem setAcc_cfg (k : Nat) (a : AccSlot) : (s.setAcc k a).cfg = s.cfg := rfl

@[simp] theorem setAcc_gstatus (k : Nat) (a : AccSlot) : (s.setAcc k a).gstatus = s.gstatus := rfl

@[simp] theorem setAcc_dmem (k : Nat) (a : AccSlot) : (s.setAcc k a).dmem = s.dmem := rfl

@[simp] theorem setAcc_ports (k : Nat) (a : AccSlot) : (s.setAcc k a).ports = s.ports := rfl

@[simp] theorem setAcc_accs (k : Nat) (a : AccSlot) : (s.setAcc k a).accs = s.accs.set k a := rfl

@[simp] theorem setAcc_tvs (k : Nat) (a : AccSlot) : (s.setAcc k a).tvs = s.tvs := rfl

@[simp] theorem setAcc_rbs (k : Nat) (a : AccSlot) : (s.setAcc k a).rbs = s.rbs := rfl

@[simp] theorem setAcc_cur (k : Nat) (a : AccSlot) : (s.setAcc k a).cur = s.cur := rfl

@[simp] theorem setAcc_agenda (k : Nat) (a : AccSlot) : (s.setAcc k a).agenda = s.agenda := rfl

@[simp] theorem setAcc_tick (k : Nat) (a : AccSlot) : (s.setAcc k a).tick = s.tick := rfl

@[simp] theorem setAcc_draws (k : Nat) (a : AccSlot) : (s.setAcc k a).draws = s.draws := rfl

@[simp] theorem setAcc_hostData (k : Nat) (a : AccSlot) : (s.setAcc k a).hostData = s.hostData := rfl

@[simp] theorem setAcc_port (k : Nat) (a : AccSlot) : (s.setAcc k a).port = s.port := rfl

@[simp] theorem setAcc_lop (k : Nat) (a : AccSlot) : (s.setAcc k a).lop = s.lop := rfl

/-! ### `State.setTv` -/

@[simp] theorem setTv_cfg (k : Nat) (v : TvSlot) : (s.setTv k v).cfg = s.cfg := rfl

@[simp] theorem setTv_gstatus (k : Nat) (v : TvSlot) : (s.setTv k v).gstatus = s.gstatus := rfl

@[simp] theorem setTv_dmem (k : Nat) (v : TvSlot) : (s.setTv k v).dmem = s.dmem := rfl

@[simp] theorem setTv_ports (k : Nat) (v : TvSlot) : (s.setTv k v).ports = s.ports := rfl

@[simp] theorem setTv_accs (k : Nat) (v : TvSlot) : (s.setTv k v).accs = s.accs := rfl

@[simp] theorem setTv_tvs (k : Nat) (v : TvSlot) : (s.setTv k v).tvs = s.tvs.set k v := rfl

@[simp] theorem setTv_rbs (k : Nat) (v : TvSlot) : (s.setTv k v).rbs = s.rbs := rfl

@[simp] theorem setTv_cur (k : Nat) (v : TvSlot) : (s.setTv k v).cur = s.cur := rfl

@[simp] theorem setTv_agenda (k : Nat) (v : TvSlot) : (s.setTv k v).agenda = s.agenda := rfl

@[simp] theorem setTv_tick (k : Nat) (v : TvSlot) : (s.setTv k v).tick = s.tick := rfl

@[simp] theorem setTv_draws (k : Nat) (v : TvSlot) : (s.setTv k v).draws = s.draws := rfl

@[simp] theorem setTv_hostData (k : Nat) (v : TvSlot) : (s.setTv k v).hostData = s.hostData := rfl

@[simp] theorem setTv_port (k : Nat) (v : TvSlot) : (s.setTv k v).port = s.port := rfl

@[simp] theorem setTv_lop (k : Nat) (v : TvSlot) : (s.setTv k v).lop = s.lop := rfl

/-! ### `State.setRing` -/

@[simp] theorem setRing_cfg (k : Nat) (r : RingSlot) : (s.setRing k r).cfg = s.cfg := rfl

@[simp] theorem setRing_gstatus (k : Nat) (r : RingSlot) : (s.setRing k r).gstatus = s.gstatus := rfl

@[simp] theorem setRing_dmem (k : Nat) (r : RingSlot) : (s.setRing k r).dmem = s.dmem := rfl

@[simp] theorem setRing_ports (k : Nat) (r : RingSlot) : (s.setRing k r).ports = s.ports := rfl

@[simp] theorem setRing_accs (k : Nat) (r : RingSlot) : (s.setRing k r).accs = s.accs := rfl

@[simp] theorem setRing_tvs (k : Nat) (r : RingSlot) : (s.setRing k r).tvs = s.tvs := rfl

@[simp] theorem setRing_rbs (k : Nat) (r : RingSlot) : (s.setRing k r).rbs = s.rbs.set k r := rfl

@[simp] theorem setRing_cur (k : Nat) (r : RingSlot) : (s.setRing k r).cur = s.cur := rfl

@[simp] theorem setRing_agenda (k : Nat) (r : RingSlot) : (s.setRing k r).agenda = s.agenda := rfl

@[simp] theorem setRing_tick (k : Nat) (r : RingSlot) : (s.setRing k r).tick = s.tick := rfl

@[simp] theorem setRing_draws (k : Nat) (r : RingSlot) : (s.setRing k r).draws = s.draws := rfl

@[simp] theorem setRing_hostData (k : Nat) (r : RingSlot) : (s.setRing k r).hostData = s.hostData := rfl

@[simp] theorem setRing_port (k : Nat) (r : RingSlot) : (s.setRing k r).port = s.port := rfl

@[simp] theorem setRing_lop (k : Nat) (r : RingSlot) : (s.setRing k r).lop = s.lop := rfl

/-! ### `State.setFault` -/

@[simp] theorem setFault_cfg : s.setFault.cfg = s.cfg := rfl

@[simp] theorem setFault_gstatus : s.setFault.gstatus = { s.gstatus with fault := true } := rfl

@[simp] theorem setFault_dmem : s.setFault.dmem = s.dmem := rfl

@[simp] theorem setFault_ports : s.setFault.ports = s.ports := rfl

@[simp] theorem setFault_accs : s.setFault.accs = s.accs := rfl

@[simp] theorem setFault_tvs : s.setFault.tvs = s.tvs := rfl

@[simp] theorem setFault_rbs : s.setFault.rbs = s.rbs := rfl

@[simp] theorem setFault_cur : s.setFault.cur = s.cur := rfl

@[simp] theorem setFault_agenda : s.setFault.agenda = s.agenda := rfl

@[simp] theorem setFault_tick : s.setFault.tick = s.tick := rfl

@[simp] theorem setFault_draws : s.setFault.draws = s.draws := rfl

@[simp] theorem setFault_hostData : s.setFault.hostData = s.hostData := rfl

@[simp] theorem setFault_port : s.setFault.port = s.port := rfl

@[simp] theorem setFault_lop : s.setFault.lop = s.lop := rfl

/-! ### `State.updatePort` -/

@[simp] theorem updatePort_cfg (p : Nat) (f : Port → Port) : (s.updatePort p f).cfg = s.cfg := rfl

@[simp] theorem updatePort_gstatus (p : Nat) (f : Port → Port) : (s.updatePort p f).gstatus = s.gstatus := rfl

@[simp] theorem updatePort_dmem (p : Nat) (f : Port → Port) : (s.updatePort p f).dmem = s.dmem := rfl

@[simp] theorem updatePort_ports (p : Nat) (f : Port → Port) : (s.updatePort p f).ports = s.ports.modify p f := rfl

@[simp] theorem updatePort_accs (p : Nat) (f : Port → Port) : (s.updatePort p f).accs = s.accs := rfl

@[simp] theorem updatePort_tvs (p : Nat) (f : Port → Port) : (s.updatePort p f).tvs = s.tvs := rfl

@[simp] theorem updatePort_rbs (p : Nat) (f : Port → Port) : (s.updatePort p f).rbs = s.rbs := rfl

@[simp] theorem updatePort_cur (p : Nat) (f : Port → Port) : (s.updatePort p f).cur = s.cur := rfl

@[simp] theorem updatePort_agenda (p : Nat) (f : Port → Port) : (s.updatePort p f).agenda = s.agenda := rfl

@[simp] theorem updatePort_tick (p : Nat) (f : Port → Port) : (s.updatePort p f).tick = s.tick := rfl

@[simp] theorem updatePort_draws (p : Nat) (f : Port → Port) : (s.updatePort p f).draws = s.draws := rfl

@[simp] theorem updatePort_hostData (p : Nat) (f : Port → Port) : (s.updatePort p f).hostData = s.hostData := rfl

/-! ### `State.complete` -/

@[simp] theorem complete_cfg (r : Bool) (a b : Nat) : (s.complete r a b).cfg = s.cfg := rfl

@[simp] theorem complete_gstatus (r : Bool) (a b : Nat) : (s.complete r a b).gstatus = s.gstatus := rfl

@[simp] theorem complete_dmem (r : Bool) (a b : Nat) : (s.complete r a b).dmem = s.dmem := rfl

@[simp] theorem complete_accs (r : Bool) (a b : Nat) : (s.complete r a b).accs = s.accs := rfl

@[simp] theorem complete_tvs (r : Bool) (a b : Nat) : (s.complete r a b).tvs = s.tvs := rfl

@[simp] theorem complete_rbs (r : Bool) (a b : Nat) : (s.complete r a b).rbs = s.rbs := rfl

@[simp] theorem complete_cur (r : Bool) (a b : Nat) : (s.complete r a b).cur = s.cur := rfl

@[simp] theorem complete_agenda (r : Bool) (a b : Nat) : (s.complete r a b).agenda = s.agenda := rfl

@[simp] theorem complete_tick (r : Bool) (a b : Nat) : (s.complete r a b).tick = s.tick := rfl

@[simp] theorem complete_draws (r : Bool) (a b : Nat) : (s.complete r a b).draws = s.draws := rfl

@[simp] theorem complete_hostData (r : Bool) (a b : Nat) : (s.complete r a b).hostData = s.hostData := rfl

/-! ### `State.raiseError` -/

@[simp] theorem raiseError_cfg (e : ErrCode) : (s.raiseError e).cfg = s.cfg := rfl

@[simp] theorem raiseError_gstatus (e : ErrCode) : (s.raiseError e).gstatus = s.gstatus := rfl

@[simp] theorem raiseError_dmem (e : ErrCode) : (s.raiseError e).dmem = s.dmem := rfl

@[simp] theorem raiseError_accs (e : ErrCode) : (s.raiseError e).accs = s.accs := rfl

@[simp] theorem raiseError_tvs (e : ErrCode) : (s.raiseError e).tvs = s.tvs := rfl

@[simp] theorem raiseError_rbs (e : ErrCode) : (s.raiseError e).rbs = s.rbs := rfl

@[simp] theorem raiseError_cur (e : ErrCode) : (s.raiseError e).cur = s.cur := rfl

@[simp] theorem raiseError_agenda (e : ErrCode) : (s.raiseError e).agenda = s.agenda := rfl

@[simp] theorem raiseError_tick (e : ErrCode) : (s.raiseError e).tick = s.tick := rfl

@[simp] theorem raiseError_draws (e : ErrCode) : (s.raiseError e).draws = s.draws := rfl

@[simp] theorem raiseError_hostData (e : ErrCode) : (s.raiseError e).hostData = s.hostData := rfl

/-! ### `State.enterPhase` -/

@[simp] theorem enterPhase_cfg (ph : Phase) (w : Bool) : (s.enterPhase ph w).cfg = s.cfg := rfl

@[simp] theorem enterPhase_gstatus (ph : Phase) (w : Bool) : (s.enterPhase ph w).gstatus = s.gstatus := rfl

@[simp] theorem enterPhase_dmem (ph : Phase) (w : Bool) : (s.enterPhase ph w).dmem = s.dmem := rfl

@[simp] theorem enterPhase_accs (ph : Phase) (w : Bool) : (s.enterPhase ph w).accs = s.accs := rfl

@[simp] theorem enterPhase_tvs (ph : Phase) (w : Bool) : (s.enterPhase ph w).tvs = s.tvs := rfl

@[simp] theorem enterPhase_rbs (ph : Phase) (w : Bool) : (s.enterPhase ph w).rbs = s.rbs := rfl

@[simp] theorem enterPhase_cur (ph : Phase) (w : Bool) : (s.enterPhase ph w).cur = s.cur := rfl

@[simp] theorem enterPhase_agenda (ph : Phase) (w : Bool) : (s.enterPhase ph w).agenda = s.agenda := rfl

@[simp] theorem enterPhase_tick (ph : Phase) (w : Bool) : (s.enterPhase ph w).tick = s.tick := rfl

@[simp] theorem enterPhase_draws (ph : Phase) (w : Bool) : (s.enterPhase ph w).draws = s.draws := rfl

@[simp] theorem enterPhase_hostData (ph : Phase) (w : Bool) : (s.enterPhase ph w).hostData = s.hostData := rfl

/-! ### The port being stepped -/

/-- The image of the port `cur` after `complete(r)` (R253). -/
def completedPort (q : Port) (r : Bool) (a b : Nat) : Port :=
  { q with res0 := BitVec.ofNat 64 a, res1 := BitVec.ofNat 64 b, status := q.status.onComplete r, phase := .idle }

/-- The image of the port `cur` after `raise Error(e)` (R253). -/
def erroredPort (q : Port) (e : ErrCode) : Port :=
  { q with res0 := 0, res1 := 0, status := q.status.onError e, phase := .idle }

/-- The image of the port `cur` after it enters another phase (R232, R235). -/
def phasedPort (q : Port) (ph : Phase) (w : Bool) : Port :=
  { q with status := q.status.onWait w, phase := ph }

@[simp] theorem complete_ports (r : Bool) (a b : Nat) :
    (s.complete r a b).ports = s.ports.set s.cur (completedPort s.port r a b) := rfl

@[simp] theorem raiseError_ports (e : ErrCode) :
    (s.raiseError e).ports = s.ports.set s.cur (erroredPort s.port e) := rfl

@[simp] theorem enterPhase_ports (ph : Phase) (w : Bool) :
    (s.enterPhase ph w).ports = s.ports.set s.cur (phasedPort s.port ph w) := rfl

variable {s}

/-- The port `cur` of a state is what the list of ports holds there. -/
theorem port_of_getElem? {q : Port} (h : s.ports[s.cur]? = some q) : s.port = q := by
  simp [State.port, List.getD, h]

/-- The port `cur` exists when `cur` is in range. -/
theorem getElem?_cur (h : s.cur < s.ports.length) : s.ports[s.cur]? = some s.port := by
  simp [State.port, List.getD, List.getElem?_eq_getElem h]

theorem port_setPort (p : Port) (h : s.cur < s.ports.length) : (s.setPort p).port = p := by
  simp [State.port, List.getD, h]

theorem port_complete (r : Bool) (a b : Nat) (h : s.cur < s.ports.length) :
    (s.complete r a b).port = completedPort s.port r a b := port_setPort _ h

theorem port_raiseError (e : ErrCode) (h : s.cur < s.ports.length) :
    (s.raiseError e).port = erroredPort s.port e := port_setPort _ h

theorem port_enterPhase (ph : Phase) (w : Bool) (h : s.cur < s.ports.length) :
    (s.enterPhase ph w).port = phasedPort s.port ph w := port_setPort _ h

/-- What a completion of the command of the port `cur` leaves as it was (R253). -/
theorem complete_completes (r : Bool) (a b : Nat) (h : s.cur < s.ports.length) :
    Completes s (s.complete r a b) r a b := by
  have hp := port_complete (s := s) r a b h
  constructor <;> first | rfl | (rw [hp]; rfl) | skip
  intro p hne
  simp [Ne.symm hne]

/-- A completion in a state that keeps the ports and the globals of s is a completion from s. -/
theorem Completes.of_base {s s' t : State} {r : Bool} {a b : Nat} (h : Completes s' t r a b)
    (hp : s'.ports = s.ports) (hc : s'.cfg = s.cfg) (hg : s'.gstatus = s.gstatus) (hcur : s'.cur = s.cur)
    (ha : s'.agenda = s.agenda) (ht : s'.tick = s.tick) (hd : s'.hostData = s.hostData) : Completes s t r a b := by
  have hport : s'.port = s.port := by simp [State.port, hp, hcur]
  exact ⟨h.res0, h.res1, by rw [h.status, hport], h.phase, by rw [h.op, hport], by rw [h.lop, hport],
    by rw [h.lcw, hport], fun p hne => by rw [h.others p (by rwa [hcur]), hp], h.cfg.trans hc, h.gstatus.trans hg,
    h.cur.trans hcur, h.agenda.trans ha, h.tick.trans ht, h.hostData.trans hd⟩

end Sys2Proof.Machine
end

