-- ==== Sys2Proof/Laws/Memory.lean ====
section
/-! SUPPORT. DMEM: what a read of one byte gives after each write, the canonical form, and the little-endian bits of
`memRead` (00_scope.md R12, 20_memory.md R61, R62). -/

namespace Sys2Proof.Machine

/-! ### One byte -/

theorem byte_filter_ne (m : Memory) (a x : Nat) :
    Memory.byte (m.filter (fun c => c.1 ≠ a)) x = if x = a then Memory.blank else m.byte x := by
  induction m with
  | nil => simp [Memory.byte]
  | cons c t ih =>
    by_cases hc : c.1 = a
    · simp only [List.filter_cons, hc, ne_eq, not_true, decide_false, Bool.false_eq_true, if_false, Memory.byte]
      rw [ih]
      by_cases hx : x = a
      · simp [hx]
      · simp [hx, Ne.symm hx]
    · simp only [List.filter_cons, hc, ne_eq, not_false_eq_true, decide_true, if_true, Memory.byte]
      rw [ih]
      by_cases hx : x = a
      · subst hx; simp [hc]
      · simp [hx]

theorem byte_insert (m : Memory) (a x : Nat) (v : Byte) (h : ∀ c ∈ m, c.1 ≠ a) :
    (Memory.insert m (a, v)).byte x = if x = a then v else m.byte x := by
  induction m with
  | nil => simp [Memory.insert, Memory.byte, eq_comm]
  | cons d t ih =>
    have hd : d.1 ≠ a := h d (by simp)
    have ih := ih (fun c hc => h c (by simp [hc]))
    simp only [Memory.insert]
    split
    · simp [Memory.byte, eq_comm]
    · simp only [Memory.byte, ih]
      by_cases hx : x = a
      · subst hx; simp [hd]
      · simp [hx]

/-- Read after write: the byte written, and every other byte as it was. -/
theorem byte_put (m : Memory) (a x : Nat) (v : Byte) :
    (m.put a v).byte x = if x = a then v else m.byte x := by
  unfold Memory.put
  dsimp only
  split
  · rename_i hv; rw [byte_filter_ne, hv]
  · rw [byte_insert _ _ _ _ (by simp), byte_filter_ne]
    by_cases hx : x = a <;> simp [hx]

/-! ### The canonical form -/

theorem mem_insert {m : Memory} {c d : Host.Cell} : d ∈ Memory.insert m c ↔ d = c ∨ d ∈ m := by
  induction m with
  | nil => simp [Memory.insert]
  | cons e t ih =>
    simp only [Memory.insert]
    split
    · simp
    · simp only [List.mem_cons, ih]; tauto

theorem pairwise_insert {m : Memory} {c : Host.Cell} (h : m.Pairwise (fun x y => x.1 < y.1))
    (hc : ∀ d ∈ m, d.1 ≠ c.1) : (Memory.insert m c).Pairwise (fun x y => x.1 < y.1) := by
  induction m with
  | nil => simp [Memory.insert]
  | cons d t ih =>
    rw [List.pairwise_cons] at h
    simp only [Memory.insert]
    split
    · rename_i hlt
      refine List.pairwise_cons.2 ⟨?_, List.pairwise_cons.2 h⟩
      intro e he
      rcases List.mem_cons.1 he with rfl | he
      · exact hlt
      · exact lt_trans hlt (h.1 e he)
    · rename_i hlt
      refine List.pairwise_cons.2 ⟨?_, ih h.2 (fun e he => hc e (by simp [he]))⟩
      intro e he
      rcases mem_insert.1 he with rfl | he
      · have := hc d (by simp); omega
      · exact h.1 e he

/-- What a write can leave in DMEM: the cell written, and cells that were there. -/
theorem mem_put {m : Memory} {a : Nat} {v : Byte} {c : Host.Cell} (h : c ∈ m.put a v) : c = (a, v) ∨ c ∈ m := by
  unfold Memory.put at h
  dsimp only at h
  split at h
  · exact .inr (List.mem_filter.1 h).1
  · rcases mem_insert.1 h with h | h
    · exact .inl h
    · exact .inr (List.mem_filter.1 h).1

/-- Writing one byte keeps the canonical form. -/
theorem put_wf {m : Memory} (h : m.wf) (a : Nat) (v : Byte) : (m.put a v).wf := by
  have hf := h.1.filter (fun c => decide (c.1 ≠ a))
  unfold Memory.put
  dsimp only
  split
  · exact ⟨hf, fun c hc => h.2 c (List.mem_filter.1 hc).1⟩
  · rename_i hv
    refine ⟨pairwise_insert hf (by simp), fun c hc => ?_⟩
    rcases mem_insert.1 hc with rfl | hc
    · exact hv
    · exact h.2 c (List.mem_filter.1 hc).1

/-- Every cell of DMEM lies below n. -/
def Memory.below (m : Memory) (n : Nat) : Prop := ∀ c ∈ m, c.1 < n

theorem put_below {m : Memory} {n a : Nat} {v : Byte} (h : m.below n) (ha : a < n) : (m.put a v).below n := by
  intro c hc
  rcases mem_put hc with rfl | hc
  · exact ha
  · exact h c hc

/-! ### Runs of bytes -/

/-- Read after `MemWrite`: the bytes written, and every other byte as it was (R12). -/
theorem byte_memWrite (m : Memory) (a n v x : Nat) :
    (memWrite m a n v).byte x =
      if a ≤ x ∧ x < a + n then BitVec.ofNat 8 (v / 2 ^ (8 * (x - a))) else m.byte x := by
  induction n generalizing m a v with
  | zero => simp [memWrite]
  | succ n ih =>
    rw [memWrite, ih, byte_put]
    by_cases hx : x = a
    · subst hx; simp
    · by_cases h : a ≤ x ∧ x < a + (n + 1)
      · have h' : a + 1 ≤ x ∧ x < a + 1 + n := by omega
        obtain ⟨k, rfl⟩ : ∃ k, x = a + 1 + k := ⟨x - (a + 1), by omega⟩
        rw [if_pos h', if_pos h, Nat.div_div_eq_div_mul, ← pow_add]
        congr 3
        omega
      · have h' : ¬ (a + 1 ≤ x ∧ x < a + 1 + n) := by omega
        rw [if_neg h', if_neg h, if_neg hx]

theorem memWrite_wf {m : Memory} (h : m.wf) (a n v : Nat) : (memWrite m a n v).wf := by
  induction n generalizing m a v with
  | zero => exact h
  | succ n ih => exact ih (put_wf h _ _) _ _

theorem memWrite_below {m : Memory} {k : Nat} (h : m.below k) (a n v : Nat) (ha : a + n ≤ k) :
    (memWrite m a n v).below k := by
  induction n generalizing m a v with
  | zero => exact h
  | succ n ih => exact ih (put_below h (by omega)) _ _ (by omega)

/-- Bits of `MemRead`: bit k is bit k mod 8 of byte a + k / 8 (R12, R62). -/
theorem testBit_memRead (m : Memory) (a n k : Nat) :
    (memRead m a n).testBit k = (decide (k < 8 * n) && streamBit m a k) := by
  induction n generalizing a k with
  | zero => simp [memRead]
  | succ n ih =>
    rw [memRead, Nat.add_comm, Nat.testBit_two_pow_mul_add _ (m.byte a).isLt]
    by_cases hk : k < 8
    · have h0 : k / 8 = 0 := by omega
      have h1 : k % 8 = k := by omega
      have h2 : k < 8 * (n + 1) := by omega
      simp [hk, h2, streamBit, h0, h1, BitVec.getLsbD]
    · have h1 : a + 1 + (k - 8) / 8 = a + k / 8 := by omega
      have h2 : (k - 8) % 8 = k % 8 := by omega
      have h3 : (k - 8 < 8 * n) ↔ (k < 8 * (n + 1)) := by omega
      simp [hk, ih, streamBit, h1, h2, h3]

theorem memRead_lt (m : Memory) (a n : Nat) : memRead m a n < 2 ^ (8 * n) := by
  apply Nat.lt_pow_two_of_testBit
  intro k hk
  rw [testBit_memRead]
  simp; omega

/-- `MemRead` depends on the bytes of its range alone. -/
theorem memRead_congr {m m' : Memory} {a n : Nat} (h : ∀ x, a ≤ x → x < a + n → m.byte x = m'.byte x) :
    memRead m a n = memRead m' a n := by
  induction n generalizing a with
  | zero => rfl
  | succ n ih =>
    rw [memRead, memRead, h a (by omega) (by omega), ih (fun x h1 h2 => h x (by omega) (by omega))]

/-- Stream bits after `MemWrite` (R62). -/
theorem streamBit_memWrite (m : Memory) (b n v k : Nat) (hk : k < 8 * n) :
    streamBit (memWrite m b n v) b k = v.testBit k := by
  have h1 : b ≤ b + k / 8 ∧ b + k / 8 < b + n := by omega
  have h2 : b + k / 8 - b = k / 8 := by omega
  have h3 : k % 8 < 8 := by omega
  rw [streamBit, byte_memWrite, if_pos h1, h2, BitVec.getLsbD_ofNat, Nat.testBit_div_two_pow]
  simp only [h3, decide_true, Bool.true_and]
  congr 1; omega

/-- `MemRead` after `MemWrite` of the same range gives the value, cut to the range (R12). -/
theorem memRead_memWrite (m : Memory) (a n v : Nat) : memRead (memWrite m a n v) a n = v % 2 ^ (8 * n) := by
  apply Nat.eq_of_testBit_eq
  intro k
  rw [testBit_memRead, Nat.testBit_mod_two_pow]
  by_cases hk : k < 8 * n
  · rw [streamBit_memWrite _ _ _ _ _ hk]
  · simp [hk]

/-- `MemRead` of a range that `MemWrite` leaves alone. -/
theorem memRead_memWrite_of_disjoint (m : Memory) (a n v b k : Nat) (h : b + k ≤ a ∨ a + n ≤ b) :
    memRead (memWrite m a n v) b k = memRead m b k :=
  memRead_congr fun x h1 h2 => by rw [byte_memWrite, if_neg (by omega)]

/-! ### Byte lists and lanes -/

/-- Read after writing a list of bytes. -/
theorem byte_writeBytes (m : Memory) (a : Nat) (l : List Byte) (x : Nat) :
    (writeBytes m a l).byte x = if a ≤ x ∧ x < a + l.length then l.getD (x - a) 0 else m.byte x := by
  induction l generalizing m a with
  | nil => simp [writeBytes]
  | cons v t ih =>
    rw [writeBytes, ih, byte_put, List.length_cons]
    by_cases hx : x = a
    · subst hx; simp
    · by_cases h : a ≤ x ∧ x < a + (t.length + 1)
      · have h' : a + 1 ≤ x ∧ x < a + 1 + t.length := by omega
        obtain ⟨k, rfl⟩ : ∃ k, x = a + 1 + k := ⟨x - (a + 1), by omega⟩
        have e1 : a + 1 + k - (a + 1) = k := by omega
        have e2 : a + 1 + k - a = k + 1 := by omega
        rw [if_pos h', if_pos h, e1, e2, List.getD_cons_succ]
      · have h' : ¬ (a + 1 ≤ x ∧ x < a + 1 + t.length) := by omega
        rw [if_neg h', if_neg h, if_neg hx]

theorem writeBytes_wf {m : Memory} (h : m.wf) (a : Nat) (l : List Byte) : (writeBytes m a l).wf := by
  induction l generalizing m a with
  | nil => exact h
  | cons v t ih => exact ih (put_wf h _ _) _

theorem writeBytes_below {m : Memory} {k : Nat} (h : m.below k) (a : Nat) (l : List Byte)
    (ha : a + l.length ≤ k) : (writeBytes m a l).below k := by
  induction l generalizing m a with
  | nil => exact h
  | cons v t ih =>
    simp only [List.length_cons] at ha
    exact ih (put_below h (by omega)) _ (by omega)

/-- Writing lanes leaves every byte outside their range as it was. -/
theorem byte_writeLanes_outside (m : Memory) (a b : Nat) (l : List Nat) (x : Nat)
    (h : ¬ (a ≤ x ∧ x < a + l.length * b)) : (writeLanes m a b l).byte x = m.byte x := by
  induction l generalizing m a with
  | nil => rfl
  | cons v t ih =>
    simp only [List.length_cons, Nat.succ_mul] at h
    rw [writeLanes, ih _ _ (by omega), byte_memWrite, if_neg (by omega)]

/-- Read after writing lanes: lane i is its value, cut to the lane. -/
theorem memRead_writeLanes (m : Memory) (a b : Nat) (l : List Nat) (i : Nat) (hi : i < l.length) :
    memRead (writeLanes m a b l) (a + i * b) b = l.getD i 0 % 2 ^ (8 * b) := by
  induction l generalizing m a i with
  | nil => simp at hi
  | cons v t ih =>
    rw [writeLanes]
    cases i with
    | zero =>
      rw [Nat.zero_mul, Nat.add_zero, memRead_congr (m' := memWrite m a b v), memRead_memWrite, List.getD_cons_zero]
      intro x h1 h2
      exact byte_writeLanes_outside _ _ _ _ _ (by omega)
    | succ i =>
      have e : a + (i + 1) * b = a + b + i * b := by rw [Nat.succ_mul]; omega
      rw [e, ih _ _ _ (by simpa using hi), List.getD_cons_succ]

theorem writeLanes_wf {m : Memory} (h : m.wf) (a b : Nat) (l : List Nat) : (writeLanes m a b l).wf := by
  induction l generalizing m a with
  | nil => exact h
  | cons v t ih => exact ih (memWrite_wf h _ _ _) _

theorem writeLanes_below {m : Memory} {k : Nat} (h : m.below k) (a b : Nat) (l : List Nat)
    (ha : a + l.length * b ≤ k) : (writeLanes m a b l).below k := by
  induction l generalizing m a with
  | nil => exact h
  | cons v t ih =>
    simp only [List.length_cons, Nat.succ_mul] at ha
    exact ih (memWrite_below h _ _ _ (by omega)) _ (by omega)

@[simp] theorem readLanes_length (m : Memory) (a b n : Nat) : (readLanes m a b n).length = n := by
  simp [readLanes]

theorem getD_readLanes (m : Memory) (a b n i : Nat) (hi : i < n) :
    (readLanes m a b n).getD i 0 = memRead m (a + i * b) b := by
  simp [readLanes, List.getD, hi]

/-! ### Launch images -/

theorem ofImage_wf (size : Nat) (image : List Host.Cell) : (Memory.ofImage size image).wf := by
  have : ∀ (l : List Host.Cell) (m : Memory), m.wf →
      Memory.wf (l.foldl (fun m c => if c.1 < size then m.put c.1 c.2 else m) m) := by
    intro l
    induction l with
    | nil => exact fun m h => h
    | cons c t ih =>
      intro m h
      apply ih
      dsimp only
      split
      · exact put_wf h _ _
      · exact h
  exact this image [] (by simp [Memory.wf])

theorem ofImage_below (size : Nat) (image : List Host.Cell) : (Memory.ofImage size image).below size := by
  have : ∀ (l : List Host.Cell) (m : Memory), m.below size →
      Memory.below (l.foldl (fun m c => if c.1 < size then m.put c.1 c.2 else m) m) size := by
    intro l
    induction l with
    | nil => exact fun m h => h
    | cons c t ih =>
      intro m h
      apply ih
      dsimp only
      split
      · rename_i hc; exact put_below h hc
      · exact h
  exact this image [] (by simp [Memory.below])

/-- DMEM after reset is in canonical form. -/
theorem State.reset_mem_wf : State.reset.dmem.wf := by decide

end Sys2Proof.Machine
end

