-- ==== Sys2Proof/Laws/Codec.lean ====
section
/-! SUPPORT. Two's complement fields, the range of an encoded field, float patterns, and the bits of a packed sequence
(00_scope.md R11, R13, 42_codec.md R131 to R151). -/

namespace Sys2Proof.Machine

/-! ### Two's complement (R11) -/

theorem bitsOf_lt (n : Nat) (x : Int) : bitsOf n x < 2 ^ n := by
  have h : (0 : Int) < (2 ^ n : Nat) := by positivity
  have h1 := Int.emod_nonneg x h.ne'
  have h2 := Int.emod_lt_of_pos x h
  unfold bitsOf
  omega

theorem bitsOf_natCast (n v : Nat) : bitsOf n (v : Int) = v % 2 ^ n := by
  unfold bitsOf
  rw [← Int.natCast_emod, Int.toNat_natCast]

/-- The pattern of an integer, as an integer. -/
theorem bitsOf_cast (n : Nat) (x : Int) : ((bitsOf n x : Nat) : Int) = x % (2 ^ n : Nat) := by
  have h : (0 : Int) < (2 ^ n : Nat) := by positivity
  unfold bitsOf
  rw [Int.toNat_of_nonneg (Int.emod_nonneg x h.ne')]

/-- `sext_N` by comparison: the patterns from 2^(N-1) on are the negative values. -/
theorem signed_eq {n v : Nat} (hn : 1 ≤ n) (hv : v < 2 ^ n) :
    signed n v = if 2 ^ (n - 1) ≤ v then (v : Int) - (2 ^ n : Nat) else v := by
  obtain ⟨m, rfl⟩ : ∃ m, n = m + 1 := ⟨n - 1, by omega⟩
  unfold signed
  rw [Nat.add_sub_cancel]
  have : v.testBit m = decide (2 ^ m ≤ v) := by
    by_cases h : 2 ^ m ≤ v
    · have h2 : v = 2 ^ m + (v - 2 ^ m) := by omega
      rw [pow_succ] at hv
      rw [h2, Nat.testBit_two_pow_add_eq, Nat.testBit_lt_two_pow (by omega)]
      simp
    · rw [Nat.testBit_lt_two_pow (by omega)]
      simp [h]
  simp [this]

/-- The bounds of an N-bit two's complement value. -/
theorem signed_bounds {n v : Nat} (hn : 1 ≤ n) (hv : v < 2 ^ n) :
    -(2 ^ (n - 1) : Nat) ≤ signed n v ∧ signed n v < (2 ^ (n - 1) : Nat) := by
  obtain ⟨m, rfl⟩ : ∃ m, n = m + 1 := ⟨n - 1, by omega⟩
  rw [signed_eq hn hv, Nat.add_sub_cancel]
  have : (2 : Nat) ^ (m + 1) = 2 * 2 ^ m := by rw [pow_succ, Nat.mul_comm]
  split <;> omega

/-- `sext_N` undoes `bits_N` on the values an N-bit field holds. -/
theorem signed_bitsOf {n : Nat} {v : Int} (hn : 1 ≤ n) (h1 : -(2 ^ (n - 1) : Nat) ≤ v)
    (h2 : v < (2 ^ (n - 1) : Nat)) : signed n (bitsOf n v) = v := by
  obtain ⟨m, rfl⟩ : ∃ m, n = m + 1 := ⟨n - 1, by omega⟩
  rw [signed_eq hn (bitsOf_lt _ _), bitsOf_cast, Nat.add_sub_cancel]
  rw [Nat.add_sub_cancel] at h1 h2
  have h3 : (2 : Nat) ^ (m + 1) = 2 * 2 ^ m := by rw [pow_succ, Nat.mul_comm]
  have hb := bitsOf_cast (m + 1) v
  rcases lt_or_ge v 0 with hv | hv
  · have he : v % ((2 ^ (m + 1) : Nat) : Int) = v + (2 ^ (m + 1) : Nat) := by
      rw [← Int.add_emod_right, Int.emod_eq_of_lt] <;> omega
    rw [he] at hb ⊢
    rw [if_pos (by omega)]; omega
  · have he : v % ((2 ^ (m + 1) : Nat) : Int) = v := Int.emod_eq_of_lt hv (by omega)
    rw [he] at hb ⊢
    rw [if_neg (by omega)]

/-- `bits_N` undoes `sext_N`. -/
theorem bitsOf_signed {n v : Nat} (hn : 1 ≤ n) (hv : v < 2 ^ n) : bitsOf n (signed n v) = v := by
  have hb := bitsOf_cast n (signed n v)
  rw [signed_eq hn hv] at hb ⊢
  have hv' : ((v : Nat) : Int) % ((2 ^ n : Nat) : Int) = v := Int.emod_eq_of_lt (by omega) (by omega)
  split at hb <;> rename_i h
  · rw [if_pos h, Int.sub_emod_right, hv'] at *; omega
  · rw [if_neg h, hv'] at *; omega

/-! ### The range of a field -/

theorem drawBits_lt (k n : Nat) : drawBits k n < 2 ^ n := Nat.mod_lt _ (by positivity)

theorem fieldOf_lt (w k : Nat) (t : Option Int) : fieldOf w k t < 2 ^ w := by
  cases t with
  | none => exact drawBits_lt _ _
  | some t => exact bitsOf_lt _ _

theorem rneMag_le (mag : Nat) (exp : Int) : rneMag mag exp ≤ 0x7F800000 := by
  unfold rneMag; split
  · omega
  · exact Nat.min_le_right _ _

theorem rne32_lt (num exp : Int) : rne32 num exp < 2 ^ 32 := by
  have := rneMag_le num.natAbs exp
  unfold rne32; split <;> omega

/-- A drawn NaN is a NaN pattern (R134). -/
theorem drawNan32_isNan (k : Nat) :
    drawNan32 k < 2 ^ 32 ∧ drawNan32 k / 2 ^ 23 % 2 ^ 8 = 255 ∧ drawNan32 k % 2 ^ 23 ≠ 0 := by
  have h := drawBits_lt k 32
  unfold drawNan32
  dsimp only
  split <;> omega

theorem f64Field_lt (k : Nat) (v : FVal) : f64Field k v < 2 ^ 32 := by
  cases v with
  | nan => exact (drawNan32_isNan k).1
  | inf neg => cases neg <;> simp [f64Field]
  | fin neg mag exp =>
    have h1 := rneMag_le mag exp
    have h2 := drawBits_lt k 1
    unfold f64Field
    dsimp only
    split
    · split <;> omega
    · omega

theorem f32Field_lt (L : LaneFmt) (k x : Nat) (hx : x < 2 ^ (8 * laneBytes L)) : f32Field L k x < 2 ^ 32 := by
  cases L <;>
    first
      | exact rne32_lt _ _
      | exact hx
      | exact f64Field_lt _ _

theorem bipolarField_lt (k : Nat) (v : LaneVal) : bipolarField k v < 2 ^ 1 := by
  have h := drawBits_lt k 1
  unfold bipolarField
  split
  · split
    · omega
    · split <;> omega
  · split
    · split <;> omega
    · exact h
  · exact h

theorem fixedField_lt (D : Descriptor) (k : Nat) (v : LaneVal) : fixedField D k v < 2 ^ D.w := by
  cases v <;> (simp only [fixedField]; exact fieldOf_lt _ _ _)

theorem intField_lt (D : Descriptor) (k : Nat) (v : LaneVal) : intField D k v < 2 ^ D.w := by
  cases v <;> (simp only [intField]; exact fieldOf_lt _ _ _)

/-- The W of a valid datatype code lies between 1 and 64 (R85). -/
theorem describe_w {d : DType} (h : dtypeValid d = true) : 1 ≤ (describe d).w ∧ (describe d).w ≤ 64 := by
  rcases d with ⟨kd, w, f⟩
  cases kd <;> simp [dtypeValid, describe] at h ⊢ <;> omega

/-- Every bit of an encoded field above W is 0 (R131). -/
theorem encField_lt {d : DType} (h : dtypeValid d = true) (L : LaneFmt) (k x : Nat)
    (hx : x < 2 ^ (8 * laneBytes L)) : encField (describe d) L k x < 2 ^ (describe d).w := by
  rcases d with ⟨kd, w, f⟩
  cases kd with
  | uint => exact intField_lt _ _ _
  | int => exact intField_lt _ _ _
  | fixed => exact fixedField_lt _ _ _
  | float32 => exact f32Field_lt _ _ _ hx
  | binary => exact intField_lt _ _ _
  | ternary => exact intField_lt _ _ _
  | bipolar => exact bipolarField_lt _ _
  | reserved => simp [dtypeValid] at h

/-! ### Float patterns (R13) -/

/-- The value of a float pattern by its three fields (R13, log 11). -/
theorem floatVal_fields (eb fb : Nat) {neg e f : Nat} (hn : neg < 2) (he : e < 2 ^ eb) (hf : f < 2 ^ fb) :
    let v := floatVal eb fb (neg * 2 ^ (eb + fb) + e * 2 ^ fb + f)
    (e = 2 ^ eb - 1 → f = 0 → v = .inf (neg == 1)) ∧ (e = 2 ^ eb - 1 → f ≠ 0 → v = .nan) ∧
    (e = 0 → e ≠ 2 ^ eb - 1 → v = .fin (neg == 1) f (2 - 2 ^ (eb - 1) - fb)) ∧
    (0 < e → e < 2 ^ eb - 1 → v = .fin (neg == 1) (2 ^ fb + f) ((e : Int) + 1 - 2 ^ (eb - 1) - fb)) := by
  have hx : neg * 2 ^ (eb + fb) + e * 2 ^ fb + f = 2 ^ fb * (2 ^ eb * neg + e) + f := by rw [pow_add]; ring
  have hfrac : (2 ^ fb * (2 ^ eb * neg + e) + f) % 2 ^ fb = f := by rw [Nat.mul_add_mod, Nat.mod_eq_of_lt hf]
  have hdiv : (2 ^ fb * (2 ^ eb * neg + e) + f) / 2 ^ fb = 2 ^ eb * neg + e := by
    rw [Nat.mul_add_div (by positivity), Nat.div_eq_of_lt hf, Nat.add_zero]
  have hexp : (2 ^ eb * neg + e) % 2 ^ eb = e := by rw [Nat.mul_add_mod, Nat.mod_eq_of_lt he]
  have hsign : (2 ^ fb * (2 ^ eb * neg + e) + f).testBit (eb + fb) = (neg == 1) := by
    rw [Nat.testBit_eq_decide_div_mod_eq, Nat.add_comm eb fb, pow_add, ← Nat.div_div_eq_div_mul, hdiv,
      Nat.mul_add_div (by positivity), Nat.div_eq_of_lt he]
    interval_cases neg <;> rfl
  simp only [floatVal, hx, hfrac, hdiv, hexp, hsign]
  refine ⟨fun h1 h2 => by simp [h1, h2], fun h1 h2 => by simp [h1, h2], fun h1 h2 => ?_, fun h1 h2 => ?_⟩
  · rw [if_neg h2, if_pos h1]
  · rw [if_neg (by omega), if_neg (by omega)]

/-! ### The packed sequence (R62, R139, R140) -/

theorem packSum_lt {w : Nat} {fs : List Nat} (h : ∀ f ∈ fs, f < 2 ^ w) : packSum w fs < 2 ^ (fs.length * w) := by
  induction fs with
  | nil => simp [packSum]
  | cons f t ih =>
    have h1 := h f (by simp)
    have h2 := ih (fun g hg => h g (by simp [hg]))
    rw [packSum, List.length_cons, Nat.succ_mul, Nat.add_comm (t.length * w), pow_add]
    calc f + 2 ^ w * packSum w t < 2 ^ w * 1 + 2 ^ w * packSum w t := by omega
      _ = 2 ^ w * (1 + packSum w t) := by ring
      _ ≤ 2 ^ w * 2 ^ (t.length * w) := Nat.mul_le_mul_left _ (by omega)

/-- Bit j of field i lies at stream bit i*W + j (R62). -/
theorem testBit_packSum {w : Nat} {fs : List Nat} (h : ∀ f ∈ fs, f < 2 ^ w) {i j : Nat} (hi : i < fs.length)
    (hj : j < w) : (packSum w fs).testBit (i * w + j) = (fs.getD i 0).testBit j := by
  induction fs generalizing i with
  | nil => simp at hi
  | cons f t ih =>
    rw [packSum, Nat.add_comm, Nat.testBit_two_pow_mul_add _ (h f (by simp))]
    cases i with
    | zero => simp [hj]
    | succ i =>
      have e : (i + 1) * w + j - w = i * w + j := by rw [Nat.succ_mul]; omega
      have hlt : ¬ (i + 1) * w + j < w := by rw [Nat.succ_mul]; omega
      rw [if_neg hlt, e, ih (fun g hg => h g (by simp [hg])) (by simpa using hi), List.getD_cons_succ]

@[simp] theorem packFields_length (s : State) (D : Descriptor) (L : LaneFmt) (src n : Nat) :
    (packFields s D L src n).length = n := by simp [packFields]

theorem getD_packFields (s : State) (D : Descriptor) (L : LaneFmt) (src n i : Nat) (hi : i < n) :
    (packFields s D L src n).getD i 0 =
      encField D L (s.draws + i) (memRead s.dmem (src + i * laneBytes L) (laneBytes L)) := by
  simp [packFields, List.getD, hi]

theorem packFields_lt (s : State) {d : DType} (h : dtypeValid d = true) (L : LaneFmt) (src n : Nat) :
    ∀ f ∈ packFields s (describe d) L src n, f < 2 ^ (describe d).w := by
  intro f hf
  obtain ⟨i, -, rfl⟩ := List.mem_map.1 hf
  exact encField_lt h _ _ _ (memRead_lt _ _ _)

/-- `ceil(a / 8)` bytes hold a bits, with at most 7 to spare (R63). -/
theorem ceilDiv_eight (a : Nat) : a ≤ 8 * ceilDiv a 8 ∧ 8 * ceilDiv a 8 < a + 8 := by
  unfold ceilDiv; omega

/-- Bits of an extracted field (R150). -/
theorem testBit_rawField (m : Memory) (src len w i j : Nat) (hj : j < w) (hb : i * w + j < 8 * len) :
    (rawField m src len w i).testBit j = streamBit m src (i * w + j) := by
  rw [rawField, Nat.testBit_mod_two_pow, Nat.testBit_div_two_pow, testBit_memRead]
  have e : j + i * w = i * w + j := by omega
  simp [hj, hb, e]

theorem rawField_lt (m : Memory) (src len w i : Nat) : rawField m src len w i < 2 ^ w :=
  Nat.mod_lt _ (by positivity)

end Sys2Proof.Machine
end

