-- ==== Sys2Proof/Laws/BitAcc.lean ====
section
/-! SUPPORT. The bits of an accumulator after each operation (43_bitacc.md R172 to R176). -/

namespace Sys2Proof.Machine

@[simp] theorem orBit_length (bs : List Byte) (k : Nat) : (orBit bs k).length = bs.length := by simp [orBit]

theorem orBits_length (bs : List Byte) (val n w : Nat) : (orBits bs val n w).length = bs.length := by
  have : ∀ (l : List Nat) (b : List Byte),
      (l.foldl (fun b j => if val.testBit j then orBit b (n + j) else b) b).length = b.length := by
    intro l
    induction l with
    | nil => exact fun _ => rfl
    | cons j t ih =>
      intro b
      rw [List.foldl_cons, ih]
      split <;> simp
  exact this _ _

/-- The bit that a one-bit byte has set. -/
theorem getLsbD_one_shift (i j : Nat) (hj : j < 8) : (1#8 <<< i).getLsbD j = decide (j = i) := by
  rw [BitVec.getLsbD_shiftLeft, BitVec.getLsbD_one, Bool.eq_iff_iff]
  simp only [Bool.and_eq_true, decide_eq_true_eq, Bool.not_eq_true', decide_eq_false_iff_not]
  omega

/-- `setBit(k)` sets bit k, if it is inside the capacity, and no other (R172). -/
theorem bitAt_orBit (bs : List Byte) (k b : Nat) :
    bitAt (orBit bs k) b = (bitAt bs b || decide (b = k ∧ b < 8 * bs.length)) := by
  have hmod : b % 8 < 8 := by omega
  unfold bitAt orBit
  simp only [List.getD, List.getElem?_modify]
  by_cases hd : k / 8 = b / 8
  · by_cases hl : b / 8 < bs.length
    · have h8 : b < 8 * bs.length := by omega
      have hk : b % 8 = k % 8 ↔ b = k := by omega
      simp [hd, hl, h8, BitVec.getLsbD_or, getLsbD_one_shift _ _ hmod, hk]
    · have h8 : ¬ b < 8 * bs.length := by omega
      simp [hd, hl, h8]
  · have hne : ¬ b = k := by rintro rfl; exact hd rfl
    simp [hd, hne]

/-- `setBits(value, n)` sets exactly the bits of the value that fall inside the capacity (R173). -/
theorem bitAt_orBits (bs : List Byte) (val n w b : Nat) :
    bitAt (orBits bs val n w) b =
      (bitAt bs b || decide (n ≤ b ∧ b < n + w ∧ b < 8 * bs.length) && val.testBit (b - n)) := by
  unfold orBits
  induction w with
  | zero =>
    have : ¬ (n ≤ b ∧ b < n + 0 ∧ b < 8 * bs.length) := by omega
    rw [decide_eq_false this]
    simp
  | succ w ih =>
    rw [List.range_succ, List.foldl_append, List.foldl_cons, List.foldl_nil]
    have hlen : ((List.range w).foldl (fun b j => if val.testBit j then orBit b (n + j) else b) bs).length =
        bs.length := orBits_length bs val n w
    by_cases hv : val.testBit w
    · rw [if_pos hv, bitAt_orBit, ih, hlen]
      by_cases hb : b = n + w
      · subst hb
        have : n + w - n = w := by omega
        simp [this, hv]
      · have h1 : (n ≤ b ∧ b < n + (w + 1) ∧ b < 8 * bs.length) ↔ (n ≤ b ∧ b < n + w ∧ b < 8 * bs.length) := by
          omega
        simp [hb, h1]
    · rw [if_neg hv, ih]
      by_cases hb : b = n + w
      · subst hb
        have : n + w - n = w := by omega
        simp [this, hv]
      · have h1 : (n ≤ b ∧ b < n + (w + 1) ∧ b < 8 * bs.length) ↔ (n ≤ b ∧ b < n + w ∧ b < 8 * bs.length) := by
          omega
        simp [h1]

/-- A bit beyond the capacity reads as 0. -/
theorem bitAt_beyond (bs : List Byte) (b : Nat) (h : 8 * bs.length ≤ b) : bitAt bs b = false := by
  have : bs.length ≤ b / 8 := by omega
  simp [bitAt, List.getD, List.getElem?_eq_none this]

@[simp] theorem orBytes_length (d s : List Byte) (h : d.length = s.length) : (orBytes d s).length = d.length := by
  simp [orBytes, h]

/-- `orMerge` ORs bit by bit (R174). -/
theorem bitAt_orBytes (d s : List Byte) (h : d.length = s.length) (b : Nat) :
    bitAt (orBytes d s) b = (bitAt d b || bitAt s b) := by
  unfold bitAt orBytes
  by_cases hl : b / 8 < d.length
  · have hl' : b / 8 < s.length := by omega
    simp [List.getD, hl, hl', BitVec.getLsbD_or]
  · have hl' : ¬ b / 8 < s.length := by omega
    simp [List.getD, hl, hl']

theorem orBytes_comm (d s : List Byte) : orBytes d s = orBytes s d := by
  unfold orBytes
  rw [List.zipWith_comm]
  congr 1
  funext x y
  exact BitVec.or_comm y x

theorem orBytes_assoc (a b c : List Byte) : orBytes (orBytes a b) c = orBytes a (orBytes b c) := by
  unfold orBytes
  induction a generalizing b c with
  | nil => simp
  | cons x t ih =>
    cases b with
    | nil => simp
    | cons y u =>
      cases c with
      | nil => simp
      | cons z v => simp [ih, BitVec.or_assoc]

/-- A fresh accumulator has every bit 0 (R171). -/
theorem bitAt_replicate (n b : Nat) : bitAt (List.replicate n 0) b = false := by
  unfold bitAt
  by_cases h : b / 8 < n <;> simp [List.getD, h]

@[simp] theorem bitString_length (bs : List Byte) : (bitString bs).length = 8 * bs.length := by simp [bitString]

/-- Character k of the text is bit m - 1 - k (R176). -/
theorem getD_bitString (bs : List Byte) (k : Nat) (h : k < 8 * bs.length) :
    (bitString bs).getD k 0 = if bitAt bs (8 * bs.length - 1 - k) then 0x31 else 0x30 := by
  simp [bitString, List.getD, h]

end Sys2Proof.Machine
end

