-- ==== Sys2Proof/Laws/TensorView.lean ====
section
/-! SUPPORT. Shapes, strides and slices (10_state.md R34, 44_tensorview.md R191, R196). -/

namespace Sys2Proof.Machine

@[simp] theorem dimProduct_nil : dimProduct [] = 1 := rfl

@[simp] theorem dimProduct_cons (d : Nat) (sh : List Nat) : dimProduct (d :: sh) = d * dimProduct sh := rfl

theorem dimProduct_append (a b : List Nat) : dimProduct (a ++ b) = dimProduct a * dimProduct b := by
  induction a with
  | nil => simp
  | cons d t ih => simp [ih, Nat.mul_assoc]

@[simp] theorem strides_length (sh : List Nat) : (strides sh).length = sh.length := by
  induction sh with
  | nil => rfl
  | cons d t ih =>
    cases t with
    | nil => rfl
    | cons e u => simp only [strides, List.length_cons] at ih ⊢; omega

/-- The head of a stride table is the product of the other dimensions. -/
theorem strides_cons (d : Nat) (sh : List Nat) : strides (d :: sh) = dimProduct sh :: strides sh := by
  induction sh generalizing d with
  | nil => rfl
  | cons e u ih =>
    simp only [strides]
    rw [ih e]
    simp [Nat.mul_comm]

/-- Stride i is the product of the dimensions inside dimension i. -/
theorem getD_strides (sh : List Nat) (i : Nat) (h : i < sh.length) :
    (strides sh).getD i 0 = dimProduct (sh.drop (i + 1)) := by
  induction sh generalizing i with
  | nil => simp at h
  | cons d t ih =>
    rw [strides_cons]
    cases i with
    | zero => simp
    | succ i => simpa using ih i (by simpa using h)

/-- A shape of positive dimensions has a positive product. -/
theorem dimProduct_pos {sh : List Nat} (h : ∀ d ∈ sh, 1 ≤ d) : 0 < dimProduct sh := by
  induction sh with
  | nil => simp
  | cons d t ih =>
    have h1 := h d (by simp)
    have h2 := ih (fun e he => h e (by simp [he]))
    rw [dimProduct_cons]
    exact Nat.mul_pos h1 h2

/-- The product splits at the innermost dimension. -/
theorem dimProduct_inner {sh : List Nat} (h : sh ≠ []) :
    dimProduct sh = dimProduct sh.dropLast * sh.getLastD 1 := by
  have e : sh = sh.dropLast ++ [sh.getLast h] := (List.dropLast_append_getLast h).symm
  conv_lhs => rw [e]
  rw [dimProduct_append]
  congr 1
  rw [List.getLastD_eq_getLast?, List.getLast?_eq_getLast_of_ne_nil h]
  simp

end Sys2Proof.Machine
end

