-- ==== Sys2Proof/Laws/Ops.lean ====
section
/-! SUPPORT. What each shared check can answer: the error it raises, or the rest of the command (60_exceptions.md R252;
43_bitacc.md R170, 44_tensorview.md R190, 45_ringbuffer.md R212). -/

namespace Sys2Proof.Machine

variable {s : State} {o : Host.Outcome State Fault Refusal}

/-- With CFGERR 0 the common check passes (R252). -/
theorem checked_of_littleEndian (h : s.gstatus.cfgerr = false) : checked s o = o := by simp [checked, h]

/-- With CFGERR 1 every command ends with CONFIG (R252, R281). -/
theorem checked_of_cfgerr (h : s.gstatus.cfgerr = true) : checked s o = .next (s.raiseError .config) := by
  simp [checked, failWith, h]

/-- The common check answers CONFIG or the rest of the command. -/
theorem checked_cases (s : State) (o : Host.Outcome State Fault Refusal) :
    (s.gstatus.cfgerr = true ∧ checked s o = .next (s.raiseError .config)) ∨
    (s.gstatus.cfgerr = false ∧ checked s o = o) := by
  cases h : s.gstatus.cfgerr
  · exact .inr ⟨rfl, checked_of_littleEndian h⟩
  · exact .inl ⟨rfl, checked_of_cfgerr h⟩

/-- The DTYPE check answers CONFIG or the rest of the command (R85). -/
theorem withDescriptor_cases (s : State) (d : DType) (k : Descriptor → Host.Outcome State Fault Refusal) :
    (dtypeValid d = false ∧ withDescriptor s d k = .next (s.raiseError .config)) ∨
    (dtypeValid d = true ∧ withDescriptor s d k = k (describe d)) := by
  cases h : dtypeValid d <;> simp [withDescriptor, failWith, h]

theorem withAccSlot_some {k : Nat} {a : AccSlot} (h : s.accs[k]? = some a)
    (f : AccSlot → Host.Outcome State Fault Refusal) : withAccSlot s k f = f a := by simp [withAccSlot, h]

theorem withAccSlot_none {k : Nat} (h : s.accs[k]? = none) (f : AccSlot → Host.Outcome State Fault Refusal) :
    withAccSlot s k f = .next (s.raiseError .slot) := by simp [withAccSlot, failWith, h]

theorem withAcc_live {k : Nat} {a : AccSlot} (h : s.accs[k]? = some a) (hl : a.state = .live)
    (f : AccSlot → Host.Outcome State Fault Refusal) : withAcc s k f = f a := by
  simp [withAcc, withAccSlot, h, hl]

/-- The accumulator slot check answers SLOT, or the command on a LIVE slot (R170). -/
theorem withAcc_cases (s : State) (k : Nat) (f : AccSlot → Host.Outcome State Fault Refusal) :
    ((∀ a, s.accs[k]? = some a → a.state ≠ .live) ∧ withAcc s k f = .next (s.raiseError .slot)) ∨
    ∃ a, s.accs[k]? = some a ∧ a.state = .live ∧ withAcc s k f = f a := by
  cases h : s.accs[k]? with
  | none => exact .inl ⟨by simp, by simp [withAcc, withAccSlot, failWith, h]⟩
  | some a =>
    by_cases hl : a.state = .live
    · exact .inr ⟨a, rfl, hl, withAcc_live h hl f⟩
    · exact .inl ⟨by rintro b hb; cases hb; exact hl, by simp [withAcc, withAccSlot, failWith, h, hl]⟩

theorem withTvSlot_some {k : Nat} {v : TvSlot} (h : s.tvs[k]? = some v)
    (f : TvSlot → Host.Outcome State Fault Refusal) : withTvSlot s k f = f v := by simp [withTvSlot, h]

theorem withTv_live {k : Nat} {v : TvSlot} (h : s.tvs[k]? = some v) (hl : v.state = .live)
    (f : TvSlot → Host.Outcome State Fault Refusal) : withTv s k f = f v := by
  simp [withTv, withTvSlot, h, hl]

/-- The view slot check answers SLOT, or the command on a LIVE slot (R190). -/
theorem withTv_cases (s : State) (k : Nat) (f : TvSlot → Host.Outcome State Fault Refusal) :
    ((∀ v, s.tvs[k]? = some v → v.state ≠ .live) ∧ withTv s k f = .next (s.raiseError .slot)) ∨
    ∃ v, s.tvs[k]? = some v ∧ v.state = .live ∧ withTv s k f = f v := by
  cases h : s.tvs[k]? with
  | none => exact .inl ⟨by simp, by simp [withTv, withTvSlot, failWith, h]⟩
  | some v =>
    by_cases hl : v.state = .live
    · exact .inr ⟨v, rfl, hl, withTv_live h hl f⟩
    · exact .inl ⟨by rintro b hb; cases hb; exact hl, by simp [withTv, withTvSlot, failWith, h, hl]⟩

/-- `shapeload` answers one of its errors, or the rest of the command on the shape it read (R190). -/
theorem shapeLoad_cases (s : State) (addr rank : Nat) (f : List Nat → Host.Outcome State Fault Refusal) :
    (∃ e, (e = .shape ∨ e = .config ∨ e = .addr) ∧ shapeLoad s addr rank f = .next (s.raiseError e)) ∨
    (rank ≠ 0 ∧ rank ≤ s.cfg.tvMaxRank ∧ s.inRange addr (8 * rank) ∧
      (∀ d ∈ readLanes s.dmem addr 8 rank, 1 ≤ d) ∧
      shapeLoad s addr rank f = f (readLanes s.dmem addr 8 rank)) := by
  unfold shapeLoad
  split
  · exact .inl ⟨_, .inl rfl, rfl⟩
  split
  · exact .inl ⟨_, .inr (.inl rfl), rfl⟩
  split
  · exact .inl ⟨_, .inr (.inr rfl), rfl⟩
  dsimp only
  split
  · exact .inl ⟨_, .inl rfl, rfl⟩
  · rename_i h0 h1 h2 h3
    refine .inr ⟨h0, by omega, not_not.1 h2, fun d hd => ?_, rfl⟩
    by_contra hc
    exact h3 (List.any_eq_true.2 ⟨d, hd, by simp; omega⟩)

theorem withRing_live {k : Nat} {r : RingSlot} (h : s.rbs[k]? = some r) (hl : r.state = .live)
    (f : RingSlot → Host.Outcome State Fault Refusal) : withRing s k f = f r := by
  simp [withRing, h, hl]

/-- `rbslot` answers SLOT, RACE, or the command on a LIVE ring (R212). -/
theorem withRing_cases (s : State) (k : Nat) (f : RingSlot → Host.Outcome State Fault Refusal) :
    ((∀ r, s.rbs[k]? = some r → r.state = .free) ∧ withRing s k f = .next (s.raiseError .slot)) ∨
    (∃ r, s.rbs[k]? = some r ∧ r.state = .poisoned ∧ withRing s k f = .next (s.raiseError .race)) ∨
    ∃ r, s.rbs[k]? = some r ∧ r.state = .live ∧ withRing s k f = f r := by
  cases h : s.rbs[k]? with
  | none => exact .inl ⟨by simp, by simp [withRing, failWith, h]⟩
  | some r =>
    cases hr : r.state with
    | free => exact .inl ⟨by rintro r' hr'; cases hr'; exact hr, by simp [withRing, failWith, h, hr]⟩
    | poisoned => exact .inr (.inl ⟨r, rfl, hr, by simp [withRing, failWith, h, hr]⟩)
    | live => exact .inr (.inr ⟨r, rfl, hr, withRing_live h hr f⟩)

end Sys2Proof.Machine
end

