-- ==== Sys2Proof/Laws/Ring.lean ====
section
/-! SUPPORT. Rings: the elements a ring holds after a store and a read (45_ringbuffer.md R210, R238), and everything one
step of a ring command can do (R230 to R236). -/

namespace Sys2Proof.Machine

/-! ### The circular storage -/

@[simp] theorem ringPut_length (store : List Word) (cap pos : Nat) (vals : List Word) :
    (ringPut store cap pos vals).length = store.length := by
  induction vals generalizing store pos with
  | nil => rfl
  | cons v t ih => simp [ringPut, ih]

/-- The element k places after `pos`: the k-th one put there, or the old one beyond them. -/
theorem getD_ringPut {cap : Nat} (vals store : List Word) (pos k : Nat) (hs : store.length = cap) (hk : k < cap)
    (hv : vals.length ≤ cap) :
    (ringPut store cap pos vals).getD ((pos + k) % cap) 0 =
      if k < vals.length then vals.getD k 0 else store.getD ((pos + k) % cap) 0 := by
  induction vals generalizing store pos k with
  | nil => simp [ringPut]
  | cons v t ih =>
    have hcap : 0 < cap := by omega
    simp only [List.length_cons] at hv ⊢
    rw [ringPut]
    have hs' : (store.set (pos % cap) v).length = cap := by simp [hs]
    cases k with
    | zero =>
      have e : (pos + 0) % cap = (pos + 1 + (cap - 1)) % cap := by
        rw [show pos + 1 + (cap - 1) = pos + cap by omega, Nat.add_mod_right, Nat.add_zero]
      rw [e, ih _ _ _ hs' (by omega) (by omega), if_neg (by omega), ← e]
      have hp : pos % cap < store.length := by rw [hs]; exact Nat.mod_lt _ hcap
      simp [List.getD, hp]
    | succ k =>
      have e : pos + (k + 1) = pos + 1 + k := by omega
      rw [e, ih _ _ _ hs' (by omega) (by omega)]
      by_cases hkt : k < t.length
      · simp [hkt]
      · rw [if_neg hkt, if_neg (by omega)]
        have hne : pos % cap ≠ (pos + 1 + k) % cap := by
          intro h
          have h1 : (pos + 0) % cap = (pos + (k + 1)) % cap := by
            rw [Nat.add_zero, h]; congr 1; omega
          have h2 := Nat.ModEq.add_left_cancel' pos (show pos + 0 ≡ pos + (k + 1) [MOD cap] from h1)
          have h3 := Nat.ModEq.eq_of_lt_of_lt h2 hcap hk
          omega
        simp [List.getD, hne]

@[simp] theorem ringTake_length (r : RingSlot) (pos m : Nat) : (ringTake r pos m).length = m := by
  simp [ringTake]

theorem getD_ringTake (r : RingSlot) (pos m k : Nat) (hk : k < m) :
    (ringTake r pos m).getD k 0 = r.store.getD ((pos + k) % r.cap) 0 := by
  simp [ringTake, List.getD, hk]

/-- A run of elements splits anywhere. -/
theorem ringTake_add (r : RingSlot) (pos a b : Nat) :
    ringTake r pos (a + b) = ringTake r pos a ++ ringTake r (pos + a) b := by
  unfold ringTake
  rw [List.range_add, List.map_append, List.map_map]
  congr 1
  apply List.map_congr_left
  intro k _
  simp [Nat.add_assoc]

/-- A run starts anew after a turn around the storage. -/
theorem ringTake_mod (r : RingSlot) (pos m : Nat) : ringTake r (pos % r.cap) m = ringTake r pos m := by
  unfold ringTake
  apply List.map_congr_left
  intro k _
  rw [Nat.mod_add_mod]

/-- A store appends (R210, R238): the valid elements become the old ones and then the new ones. -/
theorem valid_store (r : RingSlot) (vals : List Word) (hs : r.store.length = r.cap)
    (hroom : r.occ + vals.length ≤ r.cap) :
    RingSlot.valid { r with store := ringPut r.store r.cap (r.rd + r.occ) vals, occ := r.occ + vals.length } =
      r.valid ++ vals := by
  unfold RingSlot.valid
  rw [ringTake_add]
  congr 1
  · unfold ringTake
    apply List.map_congr_left
    intro k hk
    have hk := List.mem_range.1 hk
    have hcap : 0 < r.cap := by omega
    have e : (r.rd + k) % r.cap = (r.rd + r.occ + (r.cap - r.occ + k)) % r.cap := by
      rw [show r.rd + r.occ + (r.cap - r.occ + k) = r.rd + k + r.cap by omega, Nat.add_mod_right]
    change (ringPut r.store r.cap (r.rd + r.occ) vals).getD ((r.rd + k) % r.cap) 0 = _
    rw [e, getD_ringPut vals _ _ _ hs (by omega) (by omega), if_neg (by omega)]
  · apply List.ext_getElem (by simp)
    intro k h1 h2
    have hk : k < vals.length := h2
    have := getD_ringPut vals r.store (r.rd + r.occ) k hs (by omega) (by omega)
    rw [if_pos hk] at this
    simp only [ringTake, List.getElem_map, List.getElem_range]
    change (ringPut r.store r.cap (r.rd + r.occ) vals).getD ((r.rd + r.occ + k) % r.cap) 0 = _
    rw [this]
    simp [List.getD, hk]

/-- A read removes the oldest elements (R210, R238). -/
theorem valid_read (r : RingSlot) (m : Nat) (hm : m ≤ r.occ) :
    r.valid = ringTake r r.rd m ++
      RingSlot.valid { r with rd := (r.rd + m) % r.cap, occ := r.occ - m } := by
  unfold RingSlot.valid
  conv_lhs => rw [show r.occ = m + (r.occ - m) by omega, ringTake_add]
  congr 1
  exact (ringTake_mod r (r.rd + m) (r.occ - m)).symm

/-! ### One step of a ring command -/

/-- Everything one step of a ring command on slot `k` can do (R230 to R236). -/
inductive RingStep (op : RingOp) (blk : Bool) (s : State) (k : Nat) : State → Prop
  | configError (h : s.gstatus.cfgerr = true) : RingStep op blk s k (s.raiseError .config)
  | slotError (h : ∀ r, s.rbs[k]? = some r → r.state = .free) : RingStep op blk s k (s.raiseError .slot)
  | poisonedError (r : RingSlot) (h : s.rbs[k]? = some r) (hp : r.state = .poisoned) :
      RingStep op blk s k (s.raiseError .race)
  | preError (r : RingSlot) (e : ErrCode) (h : s.rbs[k]? = some r) (hl : r.state = .live)
      (he : op.pre s r = some e) : RingStep op blk s k (s.raiseError e)
  | effect (r : RingSlot) (h : s.rbs[k]? = some r) (hl : r.state = .live) (hpre : op.pre s r = none)
      (hm : r.mode = .mt) (hc : op.cond s r = true) : RingStep op blk s k (op.effect s k r)
  | wait (r : RingSlot) (h : s.rbs[k]? = some r) (hl : r.state = .live) (hpre : op.pre s r = none)
      (hm : r.mode = .mt) (hc : op.cond s r = false) (hb : blk = true) :
      RingStep op blk s k (s.enterPhase .waiting true)
  | fail (r : RingSlot) (h : s.rbs[k]? = some r) (hl : r.state = .live) (hpre : op.pre s r = none)
      (hm : r.mode = .mt) (hc : op.cond s r = false) (hb : blk = false) : RingStep op blk s k (ringFail s r)
  | race (r : RingSlot) (p : Nat) (h : s.rbs[k]? = some r) (hl : r.state = .live) (hpre : op.pre s r = none)
      (hm : r.mode = .st) (ho : r.owner = some p) : RingStep op blk s k (raceFault s k r)
  | acquire (r : RingSlot) (h : s.rbs[k]? = some r) (hl : r.state = .live) (hpre : op.pre s r = none)
      (hm : r.mode = .st) (ho : r.owner = none) :
      RingStep op blk s k
        ((s.setRing k { r with owner := some s.cur }).enterPhase .held (blk && !op.cond s r))
  | none (h : s.port.phase = .waiting ∨ s.port.phase = .held) : RingStep op blk s k s
  | wake (r : RingSlot) (hw : s.port.phase = .waiting) (h : s.rbs[k]? = some r) (hc : op.cond s r = true) :
      RingStep op blk s k (op.effect s k r)
  | poisoned (r : RingSlot) (hw : s.port.phase = .held) (h : s.rbs[k]? = some r) (hp : r.state = .poisoned) :
      RingStep op blk s k ((s.setRing k { r with owner := Option.none }).raiseError .race)
  | perform (r : RingSlot) (hw : s.port.phase = .held) (h : s.rbs[k]? = some r) (hp : r.state ≠ .poisoned)
      (hc : op.cond s r = true) :
      RingStep op blk s k
        (op.effect (s.setRing k { r with owner := Option.none }) k { r with owner := Option.none })
  | performFail (r : RingSlot) (hw : s.port.phase = .held) (h : s.rbs[k]? = some r) (hp : r.state ≠ .poisoned)
      (hc : op.cond s r = false) (hb : blk = false) :
      RingStep op blk s k
        (ringFail (s.setRing k { r with owner := Option.none }) { r with owner := Option.none })

theorem ringIssue_cases (op : RingOp) (blk : Bool) (s : State) (k : Nat) :
    ∃ t, ringIssue op blk s k = .next t ∧ RingStep op blk s k t := by
  unfold ringIssue
  rcases checked_cases s (withRing s k fun r => _) with ⟨h, e⟩ | ⟨-, e⟩
  · exact ⟨_, e, .configError h⟩
  rw [e]
  rcases withRing_cases s k _ with ⟨h, e⟩ | ⟨r, h, hp, e⟩ | ⟨r, h, hl, e⟩
  · exact ⟨_, e, .slotError h⟩
  · exact ⟨_, e, .poisonedError r h hp⟩
  rw [e]
  cases hpre : op.pre s r with
  | some c => exact ⟨_, rfl, .preError r c h hl hpre⟩
  | none =>
    obtain hm | hm : r.mode = .mt ∨ r.mode = .st := by cases r.mode <;> simp
    · cases hc : op.cond s r with
      | true => exact ⟨_, by simp [hm], .effect r h hl hpre hm hc⟩
      | false =>
        cases blk with
        | true => exact ⟨_, by simp [hm], .wait r h hl hpre hm hc rfl⟩
        | false => exact ⟨_, by simp [hm], .fail r h hl hpre hm hc rfl⟩
    · cases ho : r.owner with
      | some p => exact ⟨_, by simp [hm], .race r p h hl hpre hm ho⟩
      | none => exact ⟨_, by simp [hm], .acquire r h hl hpre hm ho⟩

/-- A ring command's step always answers a next state, one of those `RingStep` lists. -/
theorem ringStep_cases (op : RingOp) (blk : Bool) (s : State) :
    ∃ t, ringStep op blk s = .next t ∧ RingStep op blk s s.lop.op0.toNat t := by
  unfold ringStep
  cases hph : s.port.phase with
  | idle => exact ringIssue_cases _ _ _ _
  | issued => exact ringIssue_cases _ _ _ _
  | waiting =>
    dsimp only
    unfold ringWake
    cases h : s.rbs[s.lop.op0.toNat]? with
    | none => exact ⟨_, rfl, .none (.inl hph)⟩
    | some r =>
      dsimp only
      cases hc : op.cond s r with
      | true => exact ⟨_, rfl, .wake r hph h hc⟩
      | false => exact ⟨_, rfl, .none (.inl hph)⟩
  | held =>
    dsimp only
    unfold ringPerform
    cases h : s.rbs[s.lop.op0.toNat]? with
    | none => exact ⟨_, rfl, .none (.inr hph)⟩
    | some r =>
      dsimp only
      by_cases hp : r.state = .poisoned
      · rw [if_pos hp]; exact ⟨_, rfl, .poisoned r hph h hp⟩
      rw [if_neg hp]
      cases hc : op.cond s r with
      | true => exact ⟨_, rfl, .perform r hph h hp hc⟩
      | false =>
        cases blk with
        | true => exact ⟨_, rfl, .none (.inr hph)⟩
        | false => exact ⟨_, rfl, .performFail r hph h hp hc rfl⟩

end Sys2Proof.Machine
end

