-- ==== Sys2Proof/Laws/Exec.lean ====
section
/-! SUPPORT. Everything one step of a command that is not a ring transfer or query can do. -/

namespace Sys2Proof.Machine

/-- The outcomes of the atomic commands: an error, or one completion over one change of the machine. -/
inductive AtomicStep (s : State) : State → Prop
  | error (e : ErrCode) (h : e ≠ .noError ∧ e ≠ .race ∧ e ≠ .illegal) : AtomicStep s (s.raiseError e)
  | query (a b : Nat) : AtomicStep s (s.complete true a b)
  | memory (m : Memory) (d a b : Nat) (hw : s.dmem.wf → m.wf)
      (hb : s.dmem.below s.cfg.dmemBytes → m.below s.cfg.dmemBytes) :
      AtomicStep s ({ s with dmem := m, draws := d }.complete true a b)
  | acc (m : Memory) (k : Nat) (x : AccSlot) (a b : Nat) (hw : s.dmem.wf → m.wf)
      (hb : s.dmem.below s.cfg.dmemBytes → m.below s.cfg.dmemBytes)
      (hx : (∀ y ∈ s.accs, AccOk s.cfg y) → AccOk s.cfg x) :
      AtomicStep s (((s.setMem m).setAcc k x).complete true a b)
  | tv (k : Nat) (v : TvSlot) (a b : Nat) (hv : (∀ u ∈ s.tvs, TvOk s.cfg u) → TvOk s.cfg v) :
      AtomicStep s ((s.setTv k v).complete true a b)
  | ring (k : Nat) (r r' : RingSlot) (a b : Nat) (hr : s.rbs[k]? = some r) (hf : r.state = .free)
      (hok : RingOk s.cfg r') (ho : r'.owner = none) : AtomicStep s ((s.setRing k r').complete true a b)

/-- An atomic step is the answer of an outcome. -/
def AnswersAtomic (s : State) (o : Host.Outcome State Fault Refusal) : Prop := ∃ t, o = .next t ∧ AtomicStep s t

variable {s : State}

theorem AnswersAtomic.fail {e : ErrCode} (h : e ≠ .noError ∧ e ≠ .race ∧ e ≠ .illegal) :
    AnswersAtomic s (failWith s e) := ⟨_, rfl, .error e h⟩

theorem AnswersAtomic.checked {o : Host.Outcome State Fault Refusal} (h : AnswersAtomic s o) :
    AnswersAtomic s (checked s o) := by
  rcases checked_cases s o with ⟨-, e⟩ | ⟨-, e⟩
  · rw [e]; exact .fail (by decide)
  · rwa [e]

theorem AnswersAtomic.descriptor {d : DType} {k : Descriptor → Host.Outcome State Fault Refusal}
    (h : dtypeValid d = true → AnswersAtomic s (k (describe d))) : AnswersAtomic s (withDescriptor s d k) := by
  rcases withDescriptor_cases s d k with ⟨-, e⟩ | ⟨hv, e⟩
  · rw [e]; exact .fail (by decide)
  · rw [e]; exact h hv

theorem AnswersAtomic.withAcc {k : Nat} {f : AccSlot → Host.Outcome State Fault Refusal}
    (h : ∀ a, s.accs[k]? = some a → a.state = .live → AnswersAtomic s (f a)) :
    AnswersAtomic s (withAcc s k f) := by
  rcases withAcc_cases s k f with ⟨-, e⟩ | ⟨a, ha, hl, e⟩
  · rw [e]; exact .fail (by decide)
  · rw [e]; exact h a ha hl

theorem AnswersAtomic.withTv {k : Nat} {f : TvSlot → Host.Outcome State Fault Refusal}
    (h : ∀ v, s.tvs[k]? = some v → v.state = .live → AnswersAtomic s (f v)) :
    AnswersAtomic s (withTv s k f) := by
  rcases withTv_cases s k f with ⟨-, e⟩ | ⟨a, ha, hl, e⟩
  · rw [e]; exact .fail (by decide)
  · rw [e]; exact h a ha hl

theorem AnswersAtomic.shapeLoad {addr rank : Nat} {f : List Nat → Host.Outcome State Fault Refusal}
    (h : ∀ sh, sh.length = rank → rank ≠ 0 → rank ≤ s.cfg.tvMaxRank → (∀ d ∈ sh, 1 ≤ d) → AnswersAtomic s (f sh)) :
    AnswersAtomic s (shapeLoad s addr rank f) := by
  rcases shapeLoad_cases s addr rank f with ⟨e, he, h'⟩ | ⟨h0, hr, -, hd, h'⟩
  · rw [h']; exact .fail (by rcases he with rfl | rfl | rfl <;> decide)
  · rw [h']; exact h _ (readLanes_length _ _ _ _) h0 hr hd

theorem AnswersAtomic.done {a b : Nat} : AnswersAtomic s (done s true a b) := ⟨_, rfl, .query a b⟩

theorem execDtInfo_atomic (d : DType) (s : State) : AnswersAtomic s (execDtInfo d s) :=
  .checked <| .descriptor fun _ => .done

theorem execDtRange_atomic (d : DType) (s : State) : AnswersAtomic s (execDtRange d s) :=
  .checked <| .descriptor fun _ => .done

theorem execDtReqelems_atomic (d : DType) (s : State) : AnswersAtomic s (execDtReqelems d s) := by
  refine .checked <| .descriptor fun _ => ?_
  dsimp only
  split
  · exact .done
  · exact .fail (by decide)

theorem execPack_atomic (fmt : LaneFmt) (d : DType) (s : State) : AnswersAtomic s (execPack fmt d s) := by
  refine .checked <| .descriptor fun _ => ?_
  dsimp only
  split
  · exact .fail (by decide)
  split
  · exact .fail (by decide)
  split
  · exact .fail (by decide)
  · rename_i h _
    exact ⟨_, rfl, .memory _ _ _ _ (fun hw => memWrite_wf hw _ _ _)
      (fun hb => memWrite_below hb _ _ _ (not_not.1 h))⟩

theorem execUnpack_atomic (d : DType) (s : State) : AnswersAtomic s (execUnpack d s) := by
  refine .checked <| .descriptor fun _ => ?_
  dsimp only
  split
  · exact .fail (by decide)
  split
  · exact .fail (by decide)
  split
  · exact .fail (by decide)
  split
  · exact .fail (by decide)
  split
  · exact .fail (by decide)
  split
  · exact .fail (by decide)
  · rename_i h _
    exact ⟨_, rfl, .memory _ s.draws _ _ (fun hw => writeLanes_wf hw _ _ _)
      (fun hb => writeLanes_below hb _ _ _ (by simpa using h))⟩

theorem ceilDiv_mono {a b : Nat} (h : a ≤ b) : ceilDiv a 8 ≤ ceilDiv b 8 := by unfold ceilDiv; omega

theorem execAccNew_atomic (s : State) : AnswersAtomic s (execAccNew s) := by
  refine .checked ?_
  unfold withAccSlot
  split
  · exact .fail (by decide)
  dsimp only
  split
  · exact .fail (by decide)
  · rename_i h
    refine ⟨_, rfl, .acc s.dmem _ _ _ _ id id fun _ => ⟨?_, by simp⟩⟩
    simpa [AccSlot.nbytes] using ceilDiv_mono (Nat.le_of_not_lt h)

/-- An accumulator image of the same length keeps its slot as R31 has it. -/
theorem AccOk.of_length {p : Config.Params} {a : AccSlot} {st : AccState} {bs : List Byte} (h : AccOk p a)
    (hl : bs.length = a.bytes.length) (hs : st ≠ .free) : AccOk p { state := st, bytes := bs } :=
  ⟨by simpa [AccSlot.nbytes, hl] using h.1, fun h => absurd h hs⟩

theorem execAccSetbit_atomic (s : State) : AnswersAtomic s (execAccSetbit s) :=
  .checked <| .withAcc fun a ha hl =>
    ⟨_, rfl, .acc s.dmem _ _ _ _ id id fun h =>
      (h a (List.mem_of_getElem? ha)).of_length (by simp) (by simp [hl])⟩

theorem execAccSetbits_atomic (s : State) : AnswersAtomic s (execAccSetbits s) := by
  refine .checked <| .withAcc fun a ha hl => ?_
  dsimp only
  split
  · exact ⟨_, rfl, .acc s.dmem _ _ _ _ id id fun h =>
      (h a (List.mem_of_getElem? ha)).of_length (orBits_length _ _ _ _) (by simp [hl])⟩
  · exact .fail (by decide)

theorem execAccOrmerge_atomic (s : State) : AnswersAtomic s (execAccOrmerge s) := by
  refine .checked <| .withAcc fun a ha hl => .withAcc fun b _ _ => ?_
  split
  · exact .fail (by decide)
  · rename_i h
    exact ⟨_, rfl, .acc s.dmem _ _ _ _ id id fun h' =>
      (h' a (List.mem_of_getElem? ha)).of_length (orBytes_length _ _ (not_not.1 h)) (by simp [hl])⟩

theorem execAccTobytes_atomic (s : State) : AnswersAtomic s (execAccTobytes s) := by
  refine .checked <| .withAcc fun a ha hl => ?_
  dsimp only
  split
  · exact .fail (by decide)
  · rename_i h
    exact ⟨_, rfl, .acc _ _ _ _ _ (fun hw => writeBytes_wf hw _ _)
      (fun hb => writeBytes_below hb _ _ (not_not.1 h))
      fun h' => (h' a (List.mem_of_getElem? ha)).of_length rfl (by simp)⟩

theorem execAccBitstr_atomic (s : State) : AnswersAtomic s (execAccBitstr s) := by
  refine .checked <| .withAcc fun a _ _ => ?_
  dsimp only
  split
  · exact .fail (by decide)
  · rename_i h
    exact ⟨_, rfl, .memory _ s.draws _ _ (fun hw => writeBytes_wf hw _ _)
      (fun hb => writeBytes_below hb _ _ (by simpa [AccSlot.nbytes] using h))⟩

/-- A shape that passed `shapeload` and matches its range makes a view as R33 has it. -/
theorem tvOk_ofShape {p : Config.Params} {first last : Word} {sh : List Nat} (h0 : sh ≠ [])
    (hr : sh.length ≤ p.tvMaxRank) (hd : ∀ d ∈ sh, 1 ≤ d) (hp : dimProduct sh = last.toNat - first.toNat) :
    TvOk p (TvSlot.ofShape first last sh) := by
  intro _
  have := dimProduct_pos hd
  exact ⟨h0, hr, hd, by simp only [TvSlot.ofShape]; omega, hp, rfl⟩

theorem execTvNew_atomic (s : State) : AnswersAtomic s (execTvNew s) := by
  refine .checked ?_
  unfold withTvSlot
  split
  · exact .fail (by decide)
  refine .shapeLoad fun sh hlen h0 hr hd => ?_
  split
  · exact .fail (by decide)
  split
  · exact .fail (by decide)
  · rename_i hp
    exact ⟨_, rfl, .tv _ _ _ _ fun _ =>
      tvOk_ofShape (by rintro rfl; simp at hlen; omega) (by omega) hd (not_not.1 hp)⟩

theorem execTvSetshape_atomic (s : State) : AnswersAtomic s (execTvSetshape s) := by
  refine .checked <| .withTv fun v _ _ => .shapeLoad fun sh hlen h0 hr hd => ?_
  split
  · exact .fail (by decide)
  · rename_i hp
    exact ⟨_, rfl, .tv _ _ _ _ fun _ =>
      tvOk_ofShape (by rintro rfl; simp at hlen; omega) (by omega) hd (not_not.1 hp)⟩

theorem execTvNslices_atomic (s : State) : AnswersAtomic s (execTvNslices s) :=
  .checked <| .withTv fun _ _ _ => .done

theorem execTvSlice_atomic (s : State) : AnswersAtomic s (execTvSlice s) := by
  refine .checked <| .withTv fun _ _ _ => ?_
  dsimp only
  split
  · exact .fail (by decide)
  · exact .done

theorem execTvStride_atomic (s : State) : AnswersAtomic s (execTvStride s) := by
  refine .checked <| .withTv fun _ _ _ => ?_
  dsimp only
  split
  · exact .fail (by decide)
  · exact .done

theorem execRbNew_atomic (s : State) : AnswersAtomic s (execRbNew s) := by
  refine .checked ?_
  dsimp only
  split
  · exact .fail (by decide)
  rename_i r hr
  split
  · exact .fail (by decide)
  split
  · exact .fail (by decide)
  split
  · exact .fail (by decide)
  split
  · exact .fail (by decide)
  split
  · exact .fail (by decide)
  · rename_i hf _ heb hz hmax
    refine ⟨_, rfl, .ring _ r _ _ _ hr (not_not.1 hf) ⟨fun _ => rfl, fun _ => ?_⟩ rfl⟩
    have hpos := Nat.pos_of_ne_zero hz
    exact ⟨hpos, Nat.le_of_not_lt hmax, not_not.1 heb, by simp [RingSlot.cap], Nat.zero_le _, Nat.zero_mod _,
      Nat.zero_mod _, hpos⟩

/-- The commands that are one atomic step whatever the port's phase: all but the ring transfers and queries. -/
def atomicCommand : Instr → Bool
  | .rbStore _ => false
  | .rbRead _ => false
  | .rbReadall => false
  | .rbFull => false
  | .rbEmpty => false
  | .rbSize => false
  | _ => true

/-- An atomic command always answers a next state, one of those `AtomicStep` lists. -/
theorem exec_atomic (i : Instr) (s : State) (h : atomicCommand i = true) : AnswersAtomic s (exec i s) := by
  cases i with
  | dtInfo d => exact execDtInfo_atomic d s
  | dtRange d => exact execDtRange_atomic d s
  | dtReqelems d => exact execDtReqelems_atomic d s
  | pack fmt d => exact execPack_atomic fmt d s
  | unpack d => exact execUnpack_atomic d s
  | accNew => exact execAccNew_atomic s
  | accSetbit => exact execAccSetbit_atomic s
  | accSetbits => exact execAccSetbits_atomic s
  | accOrmerge => exact execAccOrmerge_atomic s
  | accTobytes => exact execAccTobytes_atomic s
  | accBitstr => exact execAccBitstr_atomic s
  | tvNew => exact execTvNew_atomic s
  | tvSetshape => exact execTvSetshape_atomic s
  | tvNslices => exact execTvNslices_atomic s
  | tvSlice => exact execTvSlice_atomic s
  | tvStride => exact execTvStride_atomic s
  | rbNew => exact execRbNew_atomic s
  | _ => simp [atomicCommand] at h

/-- The parts of a ring transfer or query. -/
def ringOpOf : Instr → Option (RingOp × Bool)
  | .rbStore blk => some (storeOp, blk)
  | .rbRead blk => some (readOp, blk)
  | .rbReadall => some (readallOp, false)
  | .rbFull => some (queryOp fun r => if r.occ = r.cap then 1 else 0, false)
  | .rbEmpty => some (queryOp fun r => if r.occ = 0 then 1 else 0, false)
  | .rbSize => some (queryOp (ringSize Config.rbSizeUnit), false)
  | _ => none

/-- A ring transfer or query is one `ringStep` over its parts. -/
theorem exec_ring {i : Instr} {op : RingOp} {blk : Bool} (h : ringOpOf i = some (op, blk)) (s : State) :
    exec i s = ringStep op blk s := by
  cases i <;> simp [ringOpOf] at h <;> obtain ⟨rfl, rfl⟩ := h <;> rfl

/-- A command is atomic or a ring transfer or query. -/
theorem atomic_or_ring (i : Instr) : atomicCommand i = true ∨ ∃ op blk, ringOpOf i = some (op, blk) := by
  cases i <;> simp [atomicCommand, ringOpOf]

end Sys2Proof.Machine
end

