-- ==== Sys2Proof/Laws/Step.lean ====
section
/-! SUPPORT. Everything one step of the machine can do (20_memory.md R72, 60_exceptions.md R257, R261, R262). -/

namespace Sys2Proof.Machine

/-! ### One step of a port -/

/-- Everything a port that holds a command can do in one step (R90, R252). -/
inductive PortMove (s : State) : State → Prop
  | illegal (e : DecodeReject) (h : decode s.port.lcw = .error e) (c : ErrCode) (hc : c = .config ∨ c = .illegal) :
      PortMove s (s.raiseError c)
  | atomic (i : Instr) (t : State) (h : decode s.port.lcw = .ok i) (ha : atomicCommand i = true)
      (he : exec i s = .next t) (ht : AtomicStep s t) : PortMove s t
  | ring (i : Instr) (op : RingOp) (blk : Bool) (t : State) (h : decode s.port.lcw = .ok i)
      (ho : ringOpOf i = some (op, blk)) (he : exec i s = .next t) (ht : RingStep op blk s s.lop.op0.toNat t) :
      PortMove s t

/-- A port's step always answers a next state, one of those `PortMove` lists. -/
theorem runPort_cases (s : State) : ∃ t, runPort s = .next t ∧ PortMove s t := by
  unfold runPort
  cases hd : decode s.port.lcw with
  | error e =>
    refine ⟨s.raiseError (if s.gstatus.cfgerr then .config else .illegal), ?_, .illegal e hd _ ?_⟩
    · cases h : s.gstatus.cfgerr <;> simp [illegalWord, checked, failWith, h]
    · split <;> simp
  | ok i =>
    rcases atomic_or_ring i with ha | ⟨op, blk, ho⟩
    · obtain ⟨t, he, ht⟩ := exec_atomic i s ha
      exact ⟨t, he, .atomic i t hd ha he ht⟩
    · obtain ⟨t, he, ht⟩ := ringStep_cases op blk s
      exact ⟨t, by rw [← he]; exact exec_ring ho s, .ring i op blk t hd ho (by rw [exec_ring ho, he]) ht⟩

/-- Port p's step: refused, nothing, or what its command does. -/
theorem portStep_cases (p : Nat) (s : State) :
    (s.ports[p]? = none ∧ portStep p s = .refused .noSuchPort) ∨
    (∃ q : Port, s.ports[p]? = some q ∧ q.phase = .idle ∧ portStep p s = .next s) ∨
    ∃ (q : Port) (t : State), s.ports[p]? = some q ∧ q.phase ≠ .idle ∧ portStep p s = .next t ∧
      PortMove { s with cur := p } t := by
  unfold portStep
  cases hq : s.ports[p]? with
  | none => exact .inl ⟨rfl, rfl⟩
  | some q =>
    by_cases hp : q.phase = .idle
    · exact .inr (.inl ⟨q, rfl, hp, by simp [hp]⟩)
    · obtain ⟨t, ht, hm⟩ := runPort_cases { s with cur := p }
      exact .inr (.inr ⟨q, t, rfl, hp, by simp [hp, ht], hm⟩)

/-! ### One step of the machine -/

/-- Everything one step of the machine can do when it answers a next state. -/
inductive Move (s : State) : State → Prop
  /-- The run has ended (R262). -/
  | ended (h : s.agenda = []) (hp : ∀ q ∈ s.ports, q.phase = .idle) : Move s s
  /-- An event for an IDLE port (log 3). -/
  | idle (p : Nat) (rest : List Event) (h : s.agenda = .port p :: rest) : Move s { s with agenda := rest }
  /-- A port takes a step of the command it holds, named by an event or, with none left, chosen (R257). -/
  | port (p : Nat) (rest : List Event) (k : Nat) (q : Port) (t : State)
      (h : (s.agenda = .port p :: rest ∧ k = s.tick) ∨ (s.agenda = [] ∧ rest = [] ∧ k = s.tick + 1))
      (hq : s.ports[p]? = some q) (hp : q.phase ≠ .idle)
      (ht : PortMove { s with agenda := rest, tick := k, cur := p } t) : Move s t
  /-- The host writes (R64, R65). -/
  | write (o w : Nat) (v : Word) (rest : List Event) (h : s.agenda = .write o w v :: rest)
      (hl : accessLegal { s with agenda := rest } o w = true) :
      Move s (writeTarget { s with agenda := rest } (targetOf s.ports.length o) w v)
  /-- The host reads (R64, R65, R71). -/
  | read (o w : Nat) (rest : List Event) (v : Word) (h : s.agenda = .read o w :: rest) :
      Move s { s with agenda := rest, hostData := v }
  /-- Reset (R280). -/
  | reset (image : List Host.Cell) (rest : List Event) (h : s.agenda = .reset image :: rest) :
      Move s (resetMachine { s with agenda := rest } image)

theorem mem_readyPorts {s : State} {p : Nat} : p ∈ readyPorts s ↔ hasStep s p = true := by
  simp only [readyPorts, List.mem_filter, List.mem_range, and_iff_right_iff_imp]
  intro h
  by_contra hn
  simp [hasStep, List.getElem?_eq_none (Nat.le_of_not_lt hn)] at h

/-- The free choice takes a port that has a step (R257). -/
theorem choosePort_some {s : State} {p : Nat} (h : choosePort s = some p) : hasStep s p = true := by
  rw [← mem_readyPorts]
  unfold choosePort at h
  split at h
  · cases h
  · rename_i q hq; cases h; simp [hq]
  · rename_i a b t ht
    cases h
    have hlt : Config.schedule s.tick % (t.length + 2) < (a :: b :: t).length := by
      simpa using Nat.mod_lt _ (Nat.succ_pos _)
    rw [ht, List.getD_eq_getElem _ _ hlt]
    exact List.getElem_mem _

theorem choosePort_none {s : State} : choosePort s = none ↔ ∀ p, hasStep s p = false := by
  have : choosePort s = none ↔ readyPorts s = [] := by
    unfold choosePort
    split <;> simp_all
  rw [this, List.eq_nil_iff_forall_not_mem]
  simp [mem_readyPorts]

/-- A port that has a step holds a command. -/
theorem hasStep_phase {s : State} {p : Nat} (h : hasStep s p = true) :
    ∃ q : Port, s.ports[p]? = some q ∧ q.phase ≠ .idle := by
  unfold hasStep at h
  cases hq : s.ports[p]? with
  | none => simp [hq] at h
  | some q => exact ⟨q, rfl, by rintro hp; simp [hq, hp] at h⟩

/-- A step that answers a next state is one of those `Move` lists. -/
theorem step_move {s t : State} (h : step s = .next t) : Move s t := by
  unfold step nextStep at h
  split at h
  · rename_i e rest ha
    cases e with
    | port p =>
      rcases portStep_cases p { s with agenda := rest } with ⟨-, e⟩ | ⟨q, -, -, e⟩ | ⟨q, t', hq, hp, e, hm⟩ <;>
        simp only [takeEvent, e] at h <;> cases h
      · exact .idle p rest ha
      · exact .port p rest s.tick q _ (.inl ⟨ha, rfl⟩) hq hp hm
    | write o w v =>
      simp only [takeEvent, hostWrite] at h
      split at h
      · rename_i hl; cases h; exact .write o w v rest ha hl
      · cases h
    | read o w =>
      simp only [takeEvent, hostRead] at h
      split at h
      · cases h; exact .read o w rest _ ha
      · cases h
    | reset image => cases h; exact .reset image rest ha
  · rename_i ha
    split at h
    · rename_i p hc
      obtain ⟨q, hq, hp⟩ := hasStep_phase (choosePort_some hc)
      rcases portStep_cases p { s with tick := s.tick + 1 } with ⟨hn, -⟩ | ⟨q', hq', hp', -⟩ | ⟨q', t', -, -, e, hm⟩
      · simp [hq] at hn
      · simp [hq] at hq'; subst hq'; exact absurd hp' hp
      · rw [e] at h; cases h
        refine .port p [] (s.tick + 1) q _ (.inr ⟨ha, rfl, rfl⟩) hq hp ?_
        rw [show ({ s with agenda := [], tick := s.tick + 1, cur := p } : State) =
          { { s with tick := s.tick + 1 } with cur := p } by rw [← ha]]
        exact hm
    · split at h
      · rename_i hall
        cases h
        exact .ended ha (by simpa using hall)
      · cases h

/-- A step faults in no other way than `stuck`, with no event and no port that has a step (R261). -/
theorem step_fault {s : State} {f : Fault} (h : step s = .fault f) :
    s.agenda = [] ∧ choosePort s = none ∧ ∃ q ∈ s.ports, q.phase ≠ .idle := by
  unfold step nextStep at h
  split at h
  · rename_i e rest ha
    cases e with
    | port p =>
      rcases portStep_cases p { s with agenda := rest } with ⟨-, e⟩ | ⟨q, -, -, e⟩ | ⟨q, t', -, -, e, -⟩ <;>
        simp [takeEvent, e] at h
    | write o w v => simp only [takeEvent, hostWrite] at h; split at h <;> cases h
    | read o w => simp only [takeEvent, hostRead] at h; split at h <;> cases h
    | reset image => cases h
  · rename_i ha
    split at h
    · rename_i p hc
      rcases portStep_cases p { s with tick := s.tick + 1 } with ⟨-, e⟩ | ⟨q, -, -, e⟩ | ⟨q, t', -, -, e, -⟩ <;>
        simp [e] at h
    · rename_i hc
      refine ⟨ha, hc, ?_⟩
      split at h
      · cases h
      · rename_i hall; simpa using hall

end Sys2Proof.Machine
end

