-- ==== Sys2Proof/Laws/Effect.lean ====
section
/-! SUPPORT. What the effect of a ring command does to the ring, to DMEM and to the port (45_ringbuffer.md R214 to R219,
R238), and what the parts of a ring command depend on. -/

namespace Sys2Proof.Machine

/-- The parameters a ring keeps for its lifetime (R36). -/
def SameShape (r r' : RingSlot) : Prop := r'.epp = r.epp ∧ r'.cap = r.cap ∧ r'.ebytes = r.ebytes

/-- The elements of r' are those of r with whole parts added at the back or taken from the front (R210, R238). -/
def QueueStep (r r' : RingSlot) : Prop :=
  (∃ new, r'.valid = r.valid ++ new ∧ new.length % r.epp = 0) ∨
    ∃ old, r.valid = old ++ r'.valid ∧ old.length % r.epp = 0

theorem QueueStep.same {r r' : RingSlot} (h : r'.valid = r.valid) : QueueStep r r' :=
  .inl ⟨[], by simp [h], by simp⟩

/-- The checks of a ring command depend on the operands, the instance and the ring's fixed parameters alone (R232). -/
theorem preHolds_congr {i : Instr} {s s' : State} {r r' : RingSlot} (hl : s'.lop = s.lop) (hc : s'.cfg = s.cfg)
    (h : SameShape r r') (hp : PreHolds i s r) : PreHolds i s' r' := by
  obtain ⟨h1, h2, h3⟩ := h
  cases i <;> simp_all [PreHolds]

/-- The condition of a ring command depends on the operands, the occupancy and the ring's fixed parameters alone. -/
theorem cond_congr {i : Instr} {op : RingOp} {blk : Bool} (hi : ringOpOf i = some (op, blk)) {s s' : State}
    {r r' : RingSlot} (hl : s'.lop = s.lop) (h : SameShape r r') (ho : r'.occ = r.occ) :
    op.cond s' r' = op.cond s r := by
  obtain ⟨h1, h2, h3⟩ := h
  cases i <;> simp [ringOpOf] at hi <;> obtain ⟨rfl, rfl⟩ := hi <;> simp_all [storeOp, readOp, readallOp, queryOp]

/-- The condition and the BLK bit of a command are those of its parts (R211). -/
theorem commandReady_ring {i : Instr} {op : RingOp} {blk : Bool} (hi : ringOpOf i = some (op, blk)) (s : State)
    (r : RingSlot) : commandReady i s r = op.cond s r ∧ blocking i = blk := by
  cases i <;> simp [ringOpOf] at hi <;> obtain ⟨rfl, rfl⟩ := hi <;> exact ⟨rfl, rfl⟩

/-- A command whose checks passed is a ring transfer or query. -/
theorem PreHolds.ring {i : Instr} {s : State} {r : RingSlot} (h : PreHolds i s r) :
    ∃ op blk, ringOpOf i = some (op, blk) := by
  cases i <;> first | exact ⟨_, _, rfl⟩ | exact h.elim

/-- A ring command's parts check what `PreHolds` says (R214, R215). -/
theorem pre_eq_none {i : Instr} {op : RingOp} {blk : Bool} (hi : ringOpOf i = some (op, blk)) {s : State}
    {r : RingSlot} : op.pre s r = none ↔ PreHolds i s r := by
  cases i <;> simp [ringOpOf] at hi <;> obtain ⟨rfl, rfl⟩ := hi <;>
    simp [PreHolds, storeOp, readOp, readallOp, queryOp]
  split_ifs <;> simp <;> omega

/-- `pre` of a ring command's parts is its check. -/
theorem preHolds_of_pre {i : Instr} {op : RingOp} {blk : Bool} (hi : ringOpOf i = some (op, blk)) {s : State}
    {r : RingSlot} (h : op.pre s r = none) : PreHolds i s r := (pre_eq_none hi).1 h

/-- A command's condition is what `CondHolds` says (R214 to R219). -/
theorem commandReady_iff (i : Instr) (s : State) (r : RingSlot) :
    commandReady i s r = true ↔ CondHolds i s.lop r := by
  cases i <;> simp [commandReady, CondHolds, storeOp, readOp, readallOp]

/-- A command waits when `Blocks` says so (R211). -/
theorem blocking_iff (i : Instr) : blocking i = true ↔ Blocks i := by cases i <;> simp [blocking, Blocks]

/-- The operands of port p's command, seen with p as the port being stepped. -/
theorem lop_at {s : State} {p : Nat} {q : Port} (h : s.ports[p]? = some q) :
    ({ s with cur := p } : State).lop = q.lop := by
  simp [State.lop, State.port, List.getD, h]

/-- What a ring command's effect can leave in place of the ring r. -/
structure EffectRing (s : State) (r r' : RingSlot) : Prop where
  ok : RingOk s.cfg r'
  shape : SameShape r r'
  state : r'.state = r.state
  owner : r'.owner = r.owner
  mode : r'.mode = r.mode
  queue : QueueStep r r'

/-- Everything the effect of a ring command can do, once its checks and its condition hold: an error that moves
nothing, a change of the ring and of DMEM, or an answer. -/
inductive Effect (s : State) (k : Nat) (r : RingSlot) : State → Prop
  | error (c : ErrCode) (h : c ≠ .noError ∧ c ≠ .race) : Effect s k r (s.raiseError c)
  | move (m : Memory) (r' : RingSlot) (a b : Nat) (hw : s.dmem.wf → m.wf)
      (hb : s.dmem.below s.cfg.dmemBytes → m.below s.cfg.dmemBytes) (hr : EffectRing s r r') :
      Effect s k r (((s.setMem m).setRing k r').complete true a b)
  | answer (a : Nat) : Effect s k r (s.complete true a 0)

theorem effect_cases {i : Instr} {op : RingOp} {blk : Bool} (hi : ringOpOf i = some (op, blk)) (s : State) (k : Nat)
    {r : RingSlot} (hok : RingOk s.cfg r) (hnf : r.state ≠ .free) (hpre : PreHolds i s r)
    (hc : op.cond s r = true) : Effect s k r (op.effect s k r) := by
  obtain ⟨h0, hcp, heb, hst, hoc, hoe, hre, hrl⟩ := hok.2 hnf
  have hdvd : r.epp ∣ r.cap := Dvd.intro_left _ rfl
  have hmod : ∀ m, m % r.epp = 0 → ((r.rd + m) % r.cap) % r.epp = 0 := by
    intro m hm
    rw [Nat.mod_mod_of_dvd _ hdvd]
    rw [← Nat.dvd_iff_mod_eq_zero] at *
    exact Nat.dvd_add hre hm
  cases i <;> simp [ringOpOf] at hi <;> obtain ⟨rfl, rfl⟩ := hi
  · simp only [storeOp, decide_eq_true_eq] at hc
    obtain ⟨hl', -, -⟩ := hpre
    refine .move s.dmem _ _ _ id id ⟨⟨fun h => absurd h hnf, fun _ => ?_⟩, ⟨rfl, rfl, rfl⟩, rfl, rfl, rfl, ?_⟩
    · refine ⟨h0, hcp, heb, (ringPut_length _ _ _ _).trans hst, hc, ?_, hre, hrl⟩
      rw [← Nat.dvd_iff_mod_eq_zero] at *
      exact Nat.dvd_add hoe hl'
    · have := valid_store r ((readLanes s.dmem s.lop.op1.toNat r.ebytes s.lop.op2.toNat).map (BitVec.ofNat 64)) hst
        (by simpa using hc)
      simp only [List.length_map, readLanes_length] at this
      exact .inl ⟨_, this, by simpa using hl'⟩
  · simp only [readOp, decide_eq_true_eq] at hc
    refine .move _ _ _ _ (fun h => writeLanes_wf h _ _ _)
      (fun h => writeLanes_below h _ _ _ (by simpa [PreHolds] using hpre))
      ⟨⟨fun h => absurd h hnf, fun _ => ?_⟩, ⟨rfl, rfl, rfl⟩, rfl, rfl, rfl, ?_⟩
    · refine ⟨h0, hcp, heb, hst, (Nat.sub_le _ _).trans hoc, ?_, hmod _ (Nat.mod_self _), Nat.mod_lt _ h0⟩
      rw [← Nat.dvd_iff_mod_eq_zero] at *
      exact Nat.dvd_sub hoe (dvd_refl _)
    · exact .inr ⟨_, (valid_read r r.epp hc), by simp⟩
  · simp only [readallOp, decide_eq_true_eq] at hc
    simp only [readallOp]
    split
    · exact .error _ (by decide)
    rename_i hl
    refine .move _ _ _ _ (fun h => writeLanes_wf h _ _ _) (fun h => writeLanes_below h _ _ _ (by simpa using hl))
      ⟨⟨fun h => absurd h hnf, fun _ => ?_⟩, ⟨rfl, rfl, rfl⟩, rfl, rfl, rfl, ?_⟩
    · exact ⟨h0, hcp, heb, hst, Nat.zero_le _, Nat.zero_mod _, hmod _ hoe, Nat.mod_lt _ h0⟩
    · have := valid_read r r.occ le_rfl
      rw [Nat.sub_self] at this
      exact .inr ⟨_, this, by simpa using hoe⟩
  · exact .answer _
  · exact .answer _
  · exact .answer _

end Sys2Proof.Machine
end

