-- ==== Sys2Proof/Laws/Mmio.lean ====
section
/-! SUPPORT. The host's MMIO map at each register (20_memory.md R64), the accesses R65 gives a meaning, and what the
machine's step is on each event of the agenda (R72). -/

namespace Sys2Proof.Machine

/-! ### The map -/

theorem targetOf_cmd {n p : Nat} (hp : p < n) (hn : n ≤ 16) : targetOf n (0x1000 + 0x100 * p) = .cmd p := by
  unfold targetOf dmemBase
  rw [if_neg (by omega), if_neg (by omega), if_pos (by omega)]
  simp only [show (0x1000 + 0x100 * p - 0x1000) % 0x100 = 0 by omega]
  simp

theorem targetOf_status {n p : Nat} (hp : p < n) (hn : n ≤ 16) :
    targetOf n (0x1000 + 0x100 * p + 0x08) = .status p := by
  unfold targetOf dmemBase
  rw [if_neg (by omega), if_neg (by omega), if_pos (by omega)]
  simp only [show (0x1000 + 0x100 * p + 0x08 - 0x1000) % 0x100 = 8 by omega]
  simp; omega

theorem targetOf_op {n p i : Nat} (hp : p < n) (hn : n ≤ 16) (hi : i < 8) :
    targetOf n (0x1000 + 0x100 * p + 0x10 + 8 * i) = .op p i := by
  have h1 : (0x1000 + 0x100 * p + 0x10 + 8 * i - 0x1000) % 0x100 = 0x10 + 8 * i := by omega
  have h2 : (0x1000 + 0x100 * p + 0x10 + 8 * i - 0x1000) / 0x100 = p := by omega
  have h3 : (0x10 + 8 * i - 0x10) / 8 = i := by omega
  unfold targetOf dmemBase
  rw [if_neg (by omega), if_neg (by omega), if_pos (by omega)]
  simp only [h1, h2, h3]
  rw [if_neg (by omega), if_neg (by omega), if_pos (by omega)]

theorem targetOf_res0 {n p : Nat} (hp : p < n) (hn : n ≤ 16) : targetOf n (0x1000 + 0x100 * p + 0x50) = .res0 p := by
  unfold targetOf dmemBase
  rw [if_neg (by omega), if_neg (by omega), if_pos (by omega)]
  simp only [show (0x1000 + 0x100 * p + 0x50 - 0x1000) % 0x100 = 0x50 by omega]
  simp; omega

theorem targetOf_res1 {n p : Nat} (hp : p < n) (hn : n ≤ 16) : targetOf n (0x1000 + 0x100 * p + 0x58) = .res1 p := by
  unfold targetOf dmemBase
  rw [if_neg (by omega), if_neg (by omega), if_pos (by omega)]
  simp only [show (0x1000 + 0x100 * p + 0x58 - 0x1000) % 0x100 = 0x58 by omega]
  simp; omega

theorem targetOf_dmem (n a : Nat) : targetOf n (0x100000 + a) = .dmem a := by
  unfold targetOf dmemBase
  rw [if_pos (by omega), show 0x100000 + a - 0x100000 = a by omega]

/-- The offsets of the register region that the map does not list (R64). -/
theorem targetOf_unlisted {n o : Nat} (h : o < 0x100000) (h0 : o ≠ 0)
    (hx : o < 0x1000 ∨ 0x1000 + 0x100 * n ≤ o ∨ 0x60 ≤ o % 0x100) : targetOf n o = .unlisted := by
  unfold targetOf dmemBase
  rw [if_neg (by omega), if_neg (by omega)]
  split
  · dsimp only
    rw [if_neg (by omega), if_neg (by omega), if_neg (by omega), if_neg (by omega), if_neg (by omega)]
  · rfl

/-! ### Legal accesses -/

theorem accessLegal_register (s : State) {o : Nat} (h : o < 0x100000) (h8 : o % 8 = 0) :
    accessLegal s o 8 = true := by
  unfold accessLegal dmemBase
  rw [if_neg (by omega)]
  simp [h8]

theorem accessLegal_cmd4 (s : State) {p : Nat} (hp : p < s.ports.length) (hn : s.ports.length ≤ 16) :
    accessLegal s (0x1000 + 0x100 * p) 4 = true := by
  unfold accessLegal dmemBase
  rw [if_neg (by omega), targetOf_cmd hp hn]
  simp [Target.isCmd]
  omega

theorem accessLegal_dmem (s : State) {a w : Nat} (hw : w = 1 ∨ w = 2 ∨ w = 4 ∨ w = 8) (h : a % w = 0)
    (hl : a + w ≤ s.cfg.dmemBytes) : accessLegal s (0x100000 + a) w = true := by
  unfold accessLegal dmemBase
  rw [if_pos (by omega)]
  simp only [State.inRange, decide_eq_true_eq]
  refine ⟨hw, ?_, by omega⟩
  rcases hw with rfl | rfl | rfl | rfl <;> omega

/-! ### One event -/

theorem step_port {s : State} {p : Nat} {rest : List Event} (h : s.agenda = .port p :: rest) :
    step s = portStep p { s with agenda := rest } := by
  unfold step nextStep
  rw [h]
  rfl

theorem step_write {s : State} {o w : Nat} {v : Word} {rest : List Event} (h : s.agenda = .write o w v :: rest)
    (hl : accessLegal { s with agenda := rest } o w = true) :
    step s = .next (writeTarget { s with agenda := rest } (targetOf s.ports.length o) w v) := by
  unfold step nextStep
  rw [h]
  simp only [takeEvent, hostWrite, hl, if_true]

theorem step_read {s : State} {o w : Nat} {rest : List Event} (h : s.agenda = .read o w :: rest)
    (hl : accessLegal { s with agenda := rest } o w = true) :
    step s = .next { s with
      agenda := rest
      hostData := readTarget { s with agenda := rest } (targetOf s.ports.length o) w } := by
  unfold step nextStep
  rw [h]
  simp only [takeEvent, hostRead, hl, if_true]

/-- An access is refused exactly when R65 gives it no meaning. -/
theorem step_access_refused {s : State} {o w : Nat} {v : Word} {rest : List Event}
    (h : s.agenda = .write o w v :: rest ∨ s.agenda = .read o w :: rest) :
    step s = .refused .hostAccess ↔ accessLegal { s with agenda := rest } o w = false := by
  rcases h with h | h <;> unfold step nextStep <;> rw [h] <;> simp only [takeEvent, hostWrite, hostRead] <;>
    split <;> simp_all

/-- Replacing one port by its image. -/
theorem updatePort_eq_set {s : State} {p : Nat} {q : Port} (h : s.ports[p]? = some q) (f : Port → Port) :
    s.updatePort p f = { s with ports := s.ports.set p (f q) } := by
  unfold State.updatePort
  congr 1
  apply List.ext_getElem?
  intro j
  obtain ⟨hp, e⟩ := List.getElem?_eq_some_iff.1 h
  rw [List.getElem?_modify, List.getElem?_set]
  by_cases hj : p = j
  · subst hj
    simp [hp, e]
  · simp [hj]

end Sys2Proof.Machine
end

