-- ==== Sys2Proof/Laws/PerInstr.lean ====
section
/-! SUPPORT. A family of statements about each command as syntax: the low half of its word (30_encoding.md R81, R88). -/

namespace Sys2Proof.Laws

/-- The opcode of every row fits its field (R81). -/
theorem op_code_lt (o : Op) : o.code < 2 ^ 8 := by cases o <;> decide

/-- The codes of FMT in use are 0 to 9 (R86). -/
theorem laneFmt_code_lt (f : LaneFmt) : f.code < 10 := by cases f <;> decide

theorem fmtCode_lt (i : Instr) : i.fmtCode < 10 := by
  cases i <;> first | exact laneFmt_code_lt _ | exact Nat.succ_pos 9

theorem blkCode_lt (i : Instr) : i.blkCode < 2 := by
  cases i <;> first | exact Bool.toNat_lt _ | exact Nat.succ_pos 1

/-- The low half of a command's word: OPC, FMT and BLK at their fields and RSV = 0 (R81). -/
theorem encode_low (i : Instr) :
    bitField (encode i) 0 8 = i.op.code ∧ bitField (encode i) 8 4 = i.fmtCode ∧ bitField (encode i) 12 1 = i.blkCode ∧
      bitField (encode i) 13 3 = 0 := by
  have h1 := op_code_lt i.op
  have h2 := fmtCode_lt i
  have h3 := blkCode_lt i
  simp only [bitField, encode, BitVec.toNat_ofNat]
  refine ⟨?_, ?_, ?_, ?_⟩ <;> omega

/-- The word of a command carries its opcode, and FMT and BLK are 0 wherever R88 says so; RSV is 0. -/
def LowHalf.Statement (i : Instr) : Prop :=
  bitField (encode i) 0 8 = i.op.code ∧ bitField (encode i) 13 3 = 0 ∧
    (i.op.usesFmt = false → bitField (encode i) 8 4 = 0) ∧ (i.op.usesBlk = false → bitField (encode i) 12 1 = 0)

/-- A command whose syntax has FMT and BLK at 0 where R88 says so meets the family's statement. -/
theorem lowHalf_of_syntax {i : Instr} (hf : i.op.usesFmt = false → i.fmtCode = 0)
    (hb : i.op.usesBlk = false → i.blkCode = 0) : LowHalf.Statement i := by
  obtain ⟨h1, h2, h3, h4⟩ := encode_low i
  exact ⟨h1, h4, fun h => h2.trans (hf h), fun h => h3.trans (hb h)⟩

theorem LowHalf.dtInfo (d : DType) : LowHalf.Statement (.dtInfo d) := lowHalf_of_syntax (fun _ => rfl) (fun _ => rfl)

theorem LowHalf.dtRange (d : DType) : LowHalf.Statement (.dtRange d) := lowHalf_of_syntax (fun _ => rfl) (fun _ => rfl)

theorem LowHalf.dtReqelems (d : DType) : LowHalf.Statement (.dtReqelems d) := lowHalf_of_syntax (fun _ => rfl) (fun _ => rfl)

theorem LowHalf.pack (fmt : LaneFmt) (d : DType) : LowHalf.Statement (.pack fmt d) := lowHalf_of_syntax (fun h => by cases h) (fun _ => rfl)

theorem LowHalf.unpack (d : DType) : LowHalf.Statement (.unpack d) := lowHalf_of_syntax (fun _ => rfl) (fun _ => rfl)

theorem LowHalf.accNew : LowHalf.Statement .accNew := lowHalf_of_syntax (fun _ => rfl) (fun _ => rfl)

theorem LowHalf.accSetbit : LowHalf.Statement .accSetbit := lowHalf_of_syntax (fun _ => rfl) (fun _ => rfl)

theorem LowHalf.accSetbits : LowHalf.Statement .accSetbits := lowHalf_of_syntax (fun _ => rfl) (fun _ => rfl)

theorem LowHalf.accOrmerge : LowHalf.Statement .accOrmerge := lowHalf_of_syntax (fun _ => rfl) (fun _ => rfl)

theorem LowHalf.accTobytes : LowHalf.Statement .accTobytes := lowHalf_of_syntax (fun _ => rfl) (fun _ => rfl)

theorem LowHalf.accBitstr : LowHalf.Statement .accBitstr := lowHalf_of_syntax (fun _ => rfl) (fun _ => rfl)

theorem LowHalf.tvNew : LowHalf.Statement .tvNew := lowHalf_of_syntax (fun _ => rfl) (fun _ => rfl)

theorem LowHalf.tvSetshape : LowHalf.Statement .tvSetshape := lowHalf_of_syntax (fun _ => rfl) (fun _ => rfl)

theorem LowHalf.tvNslices : LowHalf.Statement .tvNslices := lowHalf_of_syntax (fun _ => rfl) (fun _ => rfl)

theorem LowHalf.tvSlice : LowHalf.Statement .tvSlice := lowHalf_of_syntax (fun _ => rfl) (fun _ => rfl)

theorem LowHalf.tvStride : LowHalf.Statement .tvStride := lowHalf_of_syntax (fun _ => rfl) (fun _ => rfl)

theorem LowHalf.rbNew : LowHalf.Statement .rbNew := lowHalf_of_syntax (fun _ => rfl) (fun _ => rfl)

theorem LowHalf.rbStore (blk : Bool) : LowHalf.Statement (.rbStore blk) := lowHalf_of_syntax (fun _ => rfl) (fun h => by cases h)

theorem LowHalf.rbRead (blk : Bool) : LowHalf.Statement (.rbRead blk) := lowHalf_of_syntax (fun _ => rfl) (fun h => by cases h)

theorem LowHalf.rbReadall : LowHalf.Statement .rbReadall := lowHalf_of_syntax (fun _ => rfl) (fun _ => rfl)

theorem LowHalf.rbFull : LowHalf.Statement .rbFull := lowHalf_of_syntax (fun _ => rfl) (fun _ => rfl)

theorem LowHalf.rbEmpty : LowHalf.Statement .rbEmpty := lowHalf_of_syntax (fun _ => rfl) (fun _ => rfl)

theorem LowHalf.rbSize : LowHalf.Statement .rbSize := lowHalf_of_syntax (fun _ => rfl) (fun _ => rfl)

end Sys2Proof.Laws
end

