-- ==== Sys2Proof/Tests/Slice0.lean ====
section
/-! SUPPORT. The model's own tests: the checks of WellFormed, the decoding of words written out from 30_encoding.md,
one-step results of the spec's examples (41 to 45, 95_test_vectors.md). -/

namespace Sys2Proof.Tests

open Sys2Proof.Machine

/-! ### Small states -/

/-- A bank of operands OP0..OP4. -/
def regs (a b c d e : Nat) : OpRegs :=
  { OpRegs.reset with
    op0 := BitVec.ofNat 64 a, op1 := BitVec.ofNat 64 b, op2 := BitVec.ofNat 64 c, op3 := BitVec.ofNat 64 d
    op4 := BitVec.ofNat 64 e }

/-- A port in a phase, holding the command word w with its operands. -/
def portIn (ph : Phase) (w : CmdWord) (r : OpRegs) : Port :=
  { Port.reset with phase := ph, lcw := w, lop := r, status := { Status.reset with busy := true } }

/-- The reference instance after reset with port 0 replaced and DMEM set. -/
def withPort (q : Port) (m : Memory) : State := { State.reset with ports := [q, Port.reset], dmem := m }

/-- The reference instance with the command word w ISSUED on port 0. -/
def issuedWord (w : CmdWord) (r : OpRegs) (m : Memory) : State := withPort (portIn .issued w r) m

/-- Bytes placed from address a on. -/
def cells (a : Nat) (l : List Byte) : Memory := writeBytes [] a l

/-- The state an outcome answers. -/
def answered : Host.Outcome State Fault Refusal → Option State
  | .next s => some s
  | _ => none

/-- RES0, RES1 and STATUS of port 0 after the machine's step of port 0. -/
def result (s : State) : Option (Nat × Nat × Nat) :=
  (answered (step { s with agenda := [.port 0] })).map fun t =>
    ((t.ports.getD 0 Port.reset).res0.toNat, (t.ports.getD 0 Port.reset).res1.toNat,
      (t.ports.getD 0 Port.reset).status.toWord.toNat)

/-- The n bytes from a on after the machine's step of port 0. -/
def bytesAfter (s : State) (a n : Nat) : Option (List Nat) :=
  (answered (step { s with agenda := [.port 0] })).map fun t => (List.range n).map fun k => (t.dmem.byte (a + k)).toNat

/-- A LIVE accumulator of these bytes in slot 0, and another in slot 1. -/
def withAccs (s : State) (a b : List Byte) : State :=
  { s with accs := [{ state := .live, bytes := a }, { state := .live, bytes := b }, AccSlot.reset, AccSlot.reset] }

/-- A LIVE view of [0, n) under a shape in slot 0. -/
def withView (s : State) (n : Nat) (sh : List Nat) : State :=
  { s with tvs := [TvSlot.ofShape 0 (BitVec.ofNat 64 n) sh, TvSlot.reset, TvSlot.reset, TvSlot.reset] }

/-- A LIVE ring of two-element parts, one byte an element. -/
def ring (mode : RbMode) (parts : Nat) (store : List Word) (rd occ : Nat) (owner : Option Nat) : RingSlot :=
  { state := .live, mode := mode, parts := parts, epp := 2, ebytes := 1, store := store, rd := rd, occ := occ,
    owner := owner }

/-- s with a ring in slot 0. -/
def withRing0 (s : State) (r : RingSlot) : State :=
  { s with rbs := [r, RingSlot.reset, RingSlot.reset, RingSlot.reset] }

/-! ### WellFormed: a term each check refuses -/

theorem test_wf_refuses_wide_width : (Instr.dtInfo ⟨.uint, 128, 0⟩).wf = false := by decide

theorem test_wf_refuses_wide_frac : (Instr.unpack ⟨.fixed, 64, 64⟩).wf = false := by decide

theorem test_wf_accepts_the_largest_fields : (Instr.pack .f64 ⟨.reserved, 127, 63⟩).wf = true := by decide

/-! ### Decode: words written out from R81, R84, R86 and R88 -/

/-- Every opcode of R88, with its fields at non-zero values where it uses them. -/
theorem test_decode_every_opcode :
    ([(0x01030001, .dtInfo ⟨.float32, 32, 0⟩), (0x00290002, .dtRange ⟨.int, 5, 0⟩),
      (0x00600003, .dtReqelems ⟨.uint, 12, 0⟩), (0x10420810, .pack .f32 ⟨.fixed, 8, 4⟩),
      (0x10420011, .unpack ⟨.fixed, 8, 4⟩), (0x00000020, .accNew), (0x00000021, .accSetbit),
      (0x00000022, .accSetbits), (0x00000023, .accOrmerge), (0x00000024, .accTobytes), (0x00000025, .accBitstr),
      (0x00000030, .tvNew), (0x00000031, .tvSetshape), (0x00000032, .tvNslices), (0x00000033, .tvSlice),
      (0x00000034, .tvStride), (0x00000040, .rbNew), (0x00001041, .rbStore true), (0x00001042, .rbRead true),
      (0x00000043, .rbReadall), (0x00000044, .rbFull), (0x00000045, .rbEmpty), (0x00000046, .rbSize)] :
      List (Nat × Instr)).all (fun e => decodeTableWord 32 e.1 == some e.2) = true := by decide

/-- Each field at the top of its range: KIND 7, WIDTH 127, FRAC 63, FMT 9. -/
theorem test_decode_extreme_fields :
    decode 0xFFFF0910 = .ok (.pack .f64 ⟨.reserved, 127, 63⟩) ∧ decode 0x00010011 = .ok (.unpack ⟨.int, 0, 0⟩) := by
  decide

/-- One word for each clause of R90. -/
theorem test_decode_rejects_by_name :
    decode 0x00000000 = .error .reservedOpcode ∧ decode 0x00000047 = .error .reservedOpcode ∧
    decode 0x00008020 = .error .reservedBits ∧ decode 0x00400111 = .error .fmtNotUsed ∧
    decode 0x00400A10 = .error .fmtReserved ∧ decode 0x00001043 = .error .blkNotUsed ∧
    decode 0x00010041 = .error .dtypeNotUsed := by decide

/-! ### Datatype commands (41_datatype.md examples) -/

theorem test_dt_info_fixed : result (issuedWord 0x10420001 (regs 0 0 0 0 0) []) = some (8, 0x405, 4) := by
  decide +kernel

theorem test_dt_info_invalid_is_config : result (issuedWord 0x20420001 (regs 0 0 0 0 0) []) = some (0, 0, 0x200) := by
  decide +kernel

theorem test_dt_range_int5 :
    result (issuedWord 0x00290002 (regs 0 0 0 0 0) []) = some (0xFFFFFFFFFFFFFFF0, 15, 4) := by decide +kernel

theorem test_dt_range_fixed_rounds :
    result (issuedWord 0x41020002 (regs 0 0 0 0 0) []) = some (0xC7000000, 0x47000000, 4) := by decide +kernel

theorem test_dt_reqelems_uint12 : result (issuedWord 0x00600003 (regs 8 0 0 0 0) []) = some (2, 0, 4) := by
  decide +kernel

theorem test_dt_reqelems_unit_is_config : result (issuedWord 0x00600003 (regs 12 0 0 0 0) []) = some (0, 0, 0x200) := by
  decide +kernel

/-! ### Codec (95_test_vectors.md V1, V4, V5, V20) -/

/-- V1's source: the S64 lanes -3, 2, 1, -1. -/
def lanesV1 : Memory := writeLanes [] 0 8 [2 ^ 64 - 3, 2, 1, 2 ^ 64 - 1]

theorem test_pack_int5 :
    result (issuedWord 0x00290710 (regs 0 4 0x100 0 0) lanesV1) = some (3, 4, 4) ∧
      bytesAfter (issuedWord 0x00290710 (regs 0 4 0x100 0 0) lanesV1) 0x100 4 = some [0x5D, 0x84, 0x0F, 0] := by
  decide +kernel

theorem test_pack_fixed :
    bytesAfter (issuedWord 0x10420810 (regs 0 1 0x100 0 0) (cells 0 [0, 0, 0xC0, 0x3F])) 0x100 1 = some [0x18] := by
  decide +kernel

theorem test_unpack_int5 :
    result (issuedWord 0x00290011 (regs 0x100 3 4 0x200 0) (cells 0x100 [0x5D, 0x84, 0x0F])) = some (4, 4, 4) ∧
      bytesAfter (issuedWord 0x00290011 (regs 0x100 3 4 0x200 0) (cells 0x100 [0x5D, 0x84, 0x0F])) 0x200 4 =
        some [0xFD, 2, 1, 0xFF] := by decide +kernel

theorem test_unpack_fixed_and_empty :
    bytesAfter (issuedWord 0x10420011 (regs 0x100 1 0 0x200 0) (cells 0x100 [0x18])) 0x200 4 =
        some [0, 0, 0xC0, 0x3F] ∧
      result (issuedWord 0x00400011 (regs 0x100 0 0 0x200 0) []) = some (0, 0, 0x400) := by decide +kernel

/-! ### Bit accumulator (43_bitacc.md examples) -/

theorem test_acc_new : result (issuedWord 0x00000020 (regs 0 10 0 0 0) []) = some (2, 0, 4) := by decide +kernel

theorem test_acc_setbit : orBit [0, 0] 9 = [0x00, 0x02] ∧ orBit [0, 0] 16 = [0, 0] := by decide +kernel

theorem test_acc_setbits : orBits [0x00, 0x02] 0x1F 6 8 = [0xC0, 0x07] := by decide +kernel

theorem test_acc_ormerge : orBytes [0x0F, 0x00] [0xF0, 0x01] = [0xFF, 0x01] := by decide +kernel

theorem test_acc_tobytes :
    bytesAfter (withAccs (issuedWord 0x00000024 (regs 0 0x100 0 0 0) []) [0xC0, 0x07] []) 0x100 2 =
      some [0xC0, 0x07] := by decide +kernel

theorem test_acc_bitstr :
    bytesAfter (withAccs (issuedWord 0x00000025 (regs 0 0x100 0 0 0) []) [0x05, 0x80] []) 0x100 16 =
      some [0x31, 0x30, 0x30, 0x30, 0x30, 0x30, 0x30, 0x30, 0x30, 0x30, 0x30, 0x30, 0x30, 0x31, 0x30, 0x31] := by
  decide +kernel

theorem test_acc_free_slot_is_slot : result (issuedWord 0x00000021 (regs 3 0 0 0 0) []) = some (0, 0, 0x600) := by
  decide +kernel

/-! ### Tensor view (44_tensorview.md examples, V3) -/

/-- The shape {a, b} at 0x500. -/
def shapeAt (a b : Nat) : Memory := writeLanes [] 0x500 8 [a, b]

theorem test_tv_new : result (issuedWord 0x00000030 (regs 0 0 6 0x500 2) (shapeAt 2 3)) = some (2, 3, 4) := by
  decide +kernel

theorem test_tv_setshape :
    result (withView (issuedWord 0x00000031 (regs 0 0 0 0x500 2) (shapeAt 3 2)) 6 [2, 3]) = some (3, 2, 4) ∧
      result (withView (issuedWord 0x00000031 (regs 0 0 0 0x500 2) (shapeAt 4 2)) 6 [2, 3]) = some (0, 0, 0x300) := by
  decide +kernel

theorem test_tv_nslices : result (withView (issuedWord 0x00000032 (regs 0 0 0 0 0) []) 24 [2, 3, 4]) = some (6, 4, 4) := by
  decide +kernel

theorem test_tv_slice :
    result (withView (issuedWord 0x00000033 (regs 0 1 0 0 0) []) 6 [2, 3]) = some (3, 3, 4) ∧
      result (withView (issuedWord 0x00000033 (regs 0 2 0 0 0) []) 6 [2, 3]) = some (0, 0, 0x800) := by decide +kernel

theorem test_tv_stride :
    result (withView (issuedWord 0x00000034 (regs 0 0 0 0 0) []) 24 [2, 3, 4]) = some (12, 2, 4) ∧
      result (withView (issuedWord 0x00000034 (regs 0 2 0 0 0) []) 24 [2, 3, 4]) = some (1, 4, 4) := by decide +kernel

/-! ### Ring buffer (45_ringbuffer.md examples, V2) -/

theorem test_rb_new : result (issuedWord 0x00000040 (regs 0 3 4 1 1) []) = some (12, 0, 4) := by decide +kernel

/-- A store that does not fit answers false and keeps the occupancy (V2 step 3). -/
theorem test_rb_store :
    result (withRing0 (issuedWord 0x00000041 (regs 0 0 2 0 0) []) (ring .mt 2 [1, 2, 0, 0] 0 2 none)) = some (2, 4, 4) ∧
      result (withRing0 (issuedWord 0x00000041 (regs 0 0 4 0 0) []) (ring .mt 2 [1, 2, 0, 0] 0 2 none)) =
        some (0, 2, 0) := by decide +kernel

/-- A read around the end of the storage, oldest first. -/
theorem test_rb_read :
    bytesAfter (withRing0 (issuedWord 0x00000042 (regs 0 0x10 0 0 0) []) (ring .mt 2 [3, 4, 1, 2] 2 4 none)) 0x10 2 =
      some [1, 2] := by decide +kernel

theorem test_rb_readall :
    bytesAfter (withRing0 (issuedWord 0x00000043 (regs 0 0x10 0 0 0) []) (ring .mt 2 [3, 4, 1, 2] 2 4 none)) 0x10 4 =
      some [1, 2, 3, 4] := by decide +kernel

theorem test_rb_full :
    result (withRing0 (issuedWord 0x00000044 (regs 0 0 0 0 0) []) (ring .mt 2 [3, 4, 1, 2] 2 4 none)) = some (1, 0, 4) := by
  decide +kernel

theorem test_rb_empty :
    result (withRing0 (issuedWord 0x00000045 (regs 0 0 0 0 0) []) (ring .mt 2 [0, 0, 0, 0] 2 0 none)) = some (1, 0, 4) := by
  decide +kernel

theorem test_rb_size : ringSize .elements (ring .mt 2 [] 0 4 none) = 4 ∧ ringSize .parts (ring .mt 2 [] 0 4 none) = 2 := by
  decide +kernel

/-- A second port on an owned ST ring: RACE (R236). -/
theorem test_st_race :
    result (withRing0 (issuedWord 0x00000044 (regs 0 0 0 0 0) []) (ring .st 2 [0, 0, 0, 0] 0 0 (some 1))) =
      some (0, 0, 0x900) := by decide +kernel

/-- A blocking read that owns an empty ST ring, with nothing else to do: stuck (R235, R261). -/
theorem test_st_stuck :
    (step (withRing0 (withPort (portIn .held 0x00001042 (regs 0 0 0 0 0)) []) (ring .st 2 [0, 0, 0, 0] 0 0 (some 0)))
      matches .fault .stuck) = true := by decide +kernel

end Sys2Proof.Tests
end

