-- ==== Sys2Proof/Tests/Witnesses.lean ====
section
/-! SUPPORT. For every statement of Certificates/Slice0/Obligations.lean that has hypotheses: a concrete state and
operands that meet them together, each clause at a boundary value of its range. -/

namespace Sys2Proof.Tests

open Sys2Proof.Machine

/-- A freshly issued command on the reference instance is Issued. -/
theorem issued_word (w : CmdWord) (r : OpRegs) (m : Memory) : Issued (issuedWord w r m) := ⟨Nat.succ_pos 1, rfl, rfl⟩

theorem issued_accs (w : CmdWord) (r : OpRegs) (m : Memory) (a b : List Byte) :
    Issued (withAccs (issuedWord w r m) a b) := ⟨Nat.succ_pos 1, rfl, rfl⟩

theorem issued_view (w : CmdWord) (r : OpRegs) (m : Memory) (n : Nat) (sh : List Nat) :
    Issued (withView (issuedWord w r m) n sh) := ⟨Nat.succ_pos 1, rfl, rfl⟩

theorem issued_ring (w : CmdWord) (r : OpRegs) (m : Memory) (x : RingSlot) :
    Issued (withRing0 (issuedWord w r m) x) := ⟨Nat.succ_pos 1, rfl, rfl⟩

/-- The reference instance after reset with these events to come. -/
def withEvents (e : List Event) : State := { State.reset with agenda := e }

/-! ### Encoding -/

theorem witness_DecodeEncodeRoundTrip : (Instr.pack .f64 ⟨.reserved, 127, 63⟩).wf = true := by decide

theorem witness_AcceptedWordsReencode : decode 0x00290710 = .ok (.pack .s64 ⟨.int, 5, 0⟩) := by decide

/-- A port that steps an ILLEGAL word, and a word for each clause of R90 at its boundary. -/
theorem witness_IllegalWordsEndWithIllegal :
    (∃ (s : State) (q : Port), s.agenda = [.port 0] ∧ s.ports[0]? = some q ∧ q.phase = .issued ∧ q.lcw = 0 ∧
      IllegalWord 0) ∧
    ∀ c ∈ ([0x00000000, 0x00000047, 0x00002020, 0x00008020, 0x00000121, 0x00400A10, 0x00400F10, 0x00001040, 0x00010020] :
      List CmdWord), IllegalWord c := by
  refine ⟨⟨{ issuedWord 0 (regs 0 0 0 0 0) [] with agenda := [.port 0] }, portIn .issued 0 (regs 0 0 0 0 0),
    rfl, rfl, rfl, rfl, .inl (by decide)⟩, ?_⟩
  intro c hc
  fin_cases hc
  · exact .inl (by decide)
  · exact .inl (by decide)
  · exact .inr (.inl (by decide))
  · exact .inr (.inl (by decide))
  · exact .inr (.inr (.inl (by decide)))
  · exact .inr (.inr (.inr (.inl (by decide))))
  · exact .inr (.inr (.inr (.inl (by decide))))
  · exact .inr (.inr (.inr (.inr (.inl (by decide)))))
  · exact .inr (.inr (.inr (.inr (.inr (by decide)))))

/-! ### The machine -/

/-- Steps of a port that holds a command, in each phase. -/
theorem witness_StepRunsTheDecodedCommand : ∀ ph ∈ [Phase.issued, .waiting, .held],
    ∃ (s : State) (q : Port), s.agenda = [.port 0] ∧ s.ports[0]? = some q ∧ q.phase = ph ∧ q.phase ≠ .idle ∧
      decode q.lcw = .ok .rbReadall := by
  intro ph hph
  refine ⟨{ withPort (portIn ph 0x43 (regs 0 0 0 0 0)) [] with agenda := [.port 0] }, portIn ph 0x43 (regs 0 0 0 0 0),
    rfl, rfl, rfl, ?_, by show decode 0x43 = _; decide⟩
  rintro h
  change ph = .idle at h
  simp [h] at hph

/-- A ready port, an ended run and a stuck one, all with no event; and a port in each phase with a ring command whose
condition is true, and false. -/
theorem witness_NoEventMeansReadyPortOrEndOrStuck :
    (hasStep (issuedWord 0 (regs 0 0 0 0 0) []) 0 = true ∧ (issuedWord 0 (regs 0 0 0 0 0) []).agenda = []) ∧
    (State.reset.agenda = [] ∧ readyPorts State.reset = [] ∧ ∀ q ∈ State.reset.ports, q.phase = .idle) ∧
    (let s := withRing0 (withPort (portIn .held 0x1042 (regs 0 0 0 0 0)) []) (ring .st 1 [0, 0] 0 0 (some 0))
     s.agenda = [] ∧ readyPorts s = [] ∧ ∃ q ∈ s.ports, q.phase ≠ .idle) ∧
    ∀ ph ∈ [Phase.waiting, .held], ∀ occ ∈ [0, 2],
      let s := withRing0 (withPort (portIn ph 0x1042 (regs 0 0 0 0 0)) []) (ring .mt 1 [1, 2] 0 occ none)
      s.ports[0]? = some (portIn ph 0x1042 (regs 0 0 0 0 0)) ∧ decode 0x1042 = .ok (.rbRead true) ∧
      s.rbs[0]? = some (ring .mt 1 [1, 2] 0 occ none) ∧ (hasStep s 0 = true ↔ occ = 2) := by decide +kernel

/-- CMD of the first and the last port, with both widths, on an IDLE and on a busy port. -/
theorem witness_CmdWriteIssuesOrOverruns :
    ((withEvents [.write (0x1000 + 0x100 * 0) 4 0x20]).ports[0]?.map Port.phase = some .idle) ∧
    ((withEvents [.write (0x1000 + 0x100 * 1) 8 0x20]).ports[1]?.map Port.phase = some .idle) ∧
    ((withPort (portIn .held 0x43 (regs 0 0 0 0 0)) []).ports[0]?.map Port.phase = some .held) ∧
    (withEvents []).ports.length ≤ 16 := by decide +kernel

/-- The hypotheses of the accesses to STATUS and CMD. -/
theorem witness_StatusWriteClearsOverrunAndCmdReadsZero :
    State.reset.ports[1]? = some Port.reset ∧ State.reset.ports.length ≤ 16 ∧
    (withEvents [.write (0x1000 + 0x100 * 1 + 0x08) 8 8]).agenda = .write (0x1000 + 0x100 * 1 + 0x08) 8 8 :: [] ∧
    (withEvents [.read (0x1000 + 0x100 * 1) 4]).agenda = .read (0x1000 + 0x100 * 1) 4 :: [] := by decide

/-- The ranges of the read clauses at their ends: the last port, OP7, the last byte and the last word of DMEM, and the
unlisted offsets beside the listed ones. -/
theorem witness_HostReadsFollowTheMap :
    State.reset.ports.length ≤ 16 ∧ State.reset.ports[1]? = some Port.reset ∧
    (∀ e ∈ [(65535, 1), (65528, 8), (0, 4)],
      (e.2 = 1 ∨ e.2 = 2 ∨ e.2 = 4 ∨ e.2 = 8) ∧ e.1 % e.2 = 0 ∧ e.1 + e.2 ≤ State.reset.cfg.dmemBytes) ∧
    (∀ o ∈ [0x8, 0xFF8, 0x1060, 0x10F8, 0x1200, 0xFFFF8], o < 0x100000 ∧ o % 8 = 0 ∧ o ≠ 0 ∧
      (o < 0x1000 ∨ 0x1000 + 0x100 * State.reset.ports.length ≤ o ∨ 0x60 ≤ o % 0x100)) := by decide +kernel

/-- The same for the write clauses: GSTATUS, RES0 and RES1 among the offsets that ignore a write. -/
theorem witness_HostWritesFollowTheMap :
    State.reset.ports.length ≤ 16 ∧ State.reset.ports[1]? = some Port.reset ∧
    (∀ e ∈ [(65535, 1), (65528, 8), (0, 4)],
      (e.2 = 1 ∨ e.2 = 2 ∨ e.2 = 4 ∨ e.2 = 8) ∧ e.1 % e.2 = 0 ∧ e.1 + e.2 ≤ State.reset.cfg.dmemBytes) ∧
    (∀ o ∈ [0x0, 0xFF8, 0x1050, 0x1158, 0x1200, 0xFFFF8], o < 0x100000 ∧ o % 8 = 0 ∧
      (o < 0x1000 ∨ 0x1000 + 0x100 * State.reset.ports.length ≤ o ∨ 0x50 ≤ o % 0x100)) := by decide +kernel

/-- A host write and a host read with nothing after them. -/
theorem witness_HostAccessesOutsideR65AreRefused :
    State.reset.ports.length ≤ 16 ∧ (withEvents [.write 4 4 0]).agenda = .write 4 4 0 :: [] ∧
    (withEvents [.read 0x10FFFF 2]).agenda = .read 0x10FFFF 2 :: [] := by decide

/-- A reset with a launch image in canonical form that reaches the last byte of DMEM. -/
theorem witness_ResetSetsTheTableOfR38 :
    (withEvents [.reset [(0, 1), (65535, 2)]]).agenda = .reset [(0, 1), (65535, 2)] :: [] ∧
    Memory.wf [(0, 1), (65535, 2)] ∧ ∀ c ∈ ([(0, 1), (65535, 2)] : Memory), c.1 < State.reset.cfg.dmemBytes := by
  decide +kernel

/-- A state with an ST ring held by port 0, a LIVE accumulator and a LIVE view; port 0's store is its next step. -/
def heldState : State :=
  { withRing0 (withView (withAccs (withPort (portIn .held 0x41 (regs 0 0 2 0 0)) [(1, 7)]) [1] []) 6 [2, 3])
      (ring .st 1 [0, 0] 0 0 (some 0)) with agenda := [.port 0] }

/-- Both invariants hold of that state. -/
theorem heldState_inv : Inv heldState := by
  have hs : heldState.rbs[0]? = some (ring .st 1 [0, 0] 0 0 (some 0)) := rfl
  refine ⟨by decide, rfl, rfl, rfl, rfl, rfl, by decide, by decide, ?_, ?_, ?_, ?_, ?_⟩
  · simp [heldState, withRing0, withView, withAccs, withPort, portIn, PortOk, Port.reset, Status.reset]
  · simp [heldState, withRing0, withView, withAccs, withPort, AccOk, AccSlot.reset, AccSlot.nbytes, State.reset,
      State.resetOf, Config.Params.reference, ceilDiv]
  · simp [heldState, withRing0, withView, withAccs, withPort, TvOk, TvSlot.reset, TvSlot.ofShape, TvSlot.rank,
      TvSlot.extent, dimProduct, strides, State.reset, State.resetOf, Config.Params.reference]
  · simp [heldState, withRing0, withView, withAccs, withPort, RingOk, RingSlot.reset, ring, RingSlot.cap, State.reset,
      State.resetOf, Config.Params.reference]
  · intro p q hq
    match p, hq with
    | 0, hq =>
      cases hq
      exact fun _ => ⟨.rbStore false, _, by show decode 0x41 = _; decide, hs, by simp [ring],
        ⟨rfl, by decide, by decide⟩⟩
    | 1, hq => cases hq; simp [FlightOk, Port.reset]
    | n + 2, hq => simp [heldState, withRing0, withView, withAccs, withPort] at hq

theorem heldState_owned : Owned heldState := by
  refine ⟨?_, ?_, ?_⟩
  · intro p q hq h
    match p, hq with
    | 0, hq => cases hq; cases h
    | 1, hq => cases hq; cases h
    | n + 2, hq => simp [heldState, withRing0, withView, withAccs, withPort] at hq
  · intro p q hq h
    match p, hq with
    | 0, hq => cases hq; exact ⟨.rbStore false, _, by show decode 0x41 = _; decide, rfl, rfl, rfl, by decide⟩
    | 1, hq => cases hq; cases h
    | n + 2, hq => simp [heldState, withRing0, withView, withAccs, withPort] at hq
  · intro k r p hr ho
    match k, hr with
    | 0, hr => cases hr; cases ho; exact ⟨_, rfl, rfl, rfl⟩
    | 1, hr => cases hr; cases ho
    | 2, hr => cases hr; cases ho
    | 3, hr => cases hr; cases ho
    | n + 4, hr => simp [heldState, withRing0] at hr

theorem witness_EveryStepKeepsInv : Inv heldState ∧ ∃ t, step heldState = .next t := ⟨heldState_inv, _, rfl⟩

theorem witness_EveryStepKeepsOwnership : Inv heldState ∧ Owned heldState ∧ ∃ t, step heldState = .next t :=
  ⟨heldState_inv, heldState_owned, _, rfl⟩

theorem witness_RingsAreFirstInFirstOut :
    Inv heldState ∧ (∃ t, step heldState = .next t) ∧ (∀ image rest, heldState.agenda ≠ .reset image :: rest) ∧
      ∃ r, heldState.rbs[0]? = some r ∧ r.state = .live :=
  ⟨heldState_inv, ⟨_, rfl⟩, (by intro i r h; cases h), _, rfl, rfl⟩

/-- A reset event, and an issued command under CFGERR. -/
theorem witness_BigEndianHostGetsConfigFromEveryCommand :
    (∃ t, step (withEvents [.reset []]) = .next t) ∧
    ∃ (s : State) (q : Port), s.gstatus.cfgerr = true ∧ s.port.phase = .issued ∧ s.agenda = [.port 0] ∧
      s.ports[0]? = some q ∧ q.phase = .issued :=
  ⟨⟨_, rfl⟩, { issuedWord 0x20 (regs 0 0 0 0 0) [] with
    gstatus := { cfgerr := true, fault := false }
    agenda := [.port 0] }, _, rfl, rfl, rfl, rfl, rfl⟩

theorem witness_CompletionWritesOnlyItsPort : State.reset.cur < State.reset.ports.length := by decide

/-- An ordinary error, and a RACE. -/
theorem witness_ErrorsChangeNothingElse :
    (Issued (issuedWord 0x21 (regs 4 0 0 0 0) []) ∧
      ∃ t, exec .accSetbit (issuedWord 0x21 (regs 4 0 0 0 0) []) = .next t ∧ t.port.phase = .idle ∧
        t.port.status.err ≠ .noError) ∧
    (let s := withRing0 (issuedWord 0x44 (regs 0 0 0 0 0) []) (ring .st 1 [0, 0] 0 0 (some 1))
     Issued s ∧ ∃ t, exec .rbFull s = .next t ∧ t.port.phase = .idle ∧ t.port.status.err ≠ .noError) :=
  ⟨⟨issued_word _ _ _, _, rfl, rfl, by decide⟩, issued_ring _ _ _ _, _, rfl, rfl, by decide⟩

theorem witness_CommandsTouchNoOtherPortAndNoOperand : heldState.cur < heldState.ports.length := by decide

/-- A command that ends and one that stays in flight. -/
theorem witness_ResultsHoldUntilCompletion :
    (let s := issuedWord 0x21 (regs 4 0 0 0 0) []
     s.cur < s.ports.length ∧ s.port.phase ≠ .idle ∧ ∃ t, exec .accSetbit s = .next t ∧ t.port.phase = .idle ∧
       t.port.status.err ≠ .noError) ∧
    (let s := withRing0 (issuedWord 0x1042 (regs 0 0 0 0 0) []) (ring .mt 1 [0, 0] 0 0 none)
     s.cur < s.ports.length ∧ s.port.phase ≠ .idle ∧ ∃ t, exec (.rbRead true) s = .next t ∧ t.port.phase ≠ .idle) :=
  ⟨⟨by decide, by decide, _, rfl, rfl, by decide⟩, by decide, by decide, _, rfl, by decide⟩

/-- A step in which FAULT rises. -/
theorem witness_FaultIsStickyAndRisesWithRace :
    let s := { withRing0 (issuedWord 0x44 (regs 0 0 0 0 0) []) (ring .st 1 [0, 0] 0 0 (some 1)) with
      agenda := [.port 0] }
    (∃ t, step s = .next t ∧ s.gstatus.fault = false ∧ t.gstatus.fault = true) ∧
      ∀ image rest, s.agenda ≠ .reset image :: rest :=
  ⟨⟨_, rfl, rfl, rfl⟩, by intro i r h; cases h⟩

/-! ### Datatype commands -/

/-- Invalid codes at the edges of R85's ranges, and the valid ones beside them. -/
theorem witness_InvalidDatatypeIsConfig :
    Issued (issuedWord 0x01 (regs 0 0 0 0 0) []) ∧
    ∀ d ∈ ([⟨.uint, 0, 0⟩, ⟨.uint, 65, 0⟩, ⟨.int, 8, 1⟩, ⟨.fixed, 8, 8⟩, ⟨.float32, 31, 0⟩, ⟨.binary, 2, 0⟩,
        ⟨.ternary, 1, 0⟩, ⟨.bipolar, 1, 1⟩, ⟨.reserved, 8, 0⟩] : List DType),
      ¬ ((d.kind = .uint ∧ 1 ≤ d.width ∧ d.width ≤ 64 ∧ d.frac = 0) ∨
        (d.kind = .int ∧ 1 ≤ d.width ∧ d.width ≤ 64 ∧ d.frac = 0) ∨
        (d.kind = .fixed ∧ 1 ≤ d.width ∧ d.width ≤ 64 ∧ d.frac ≤ d.width - 1) ∨
        (d.kind = .float32 ∧ d.width = 32 ∧ d.frac = 0) ∨ (d.kind = .binary ∧ d.width = 1 ∧ d.frac = 0) ∨
        (d.kind = .ternary ∧ d.width = 2 ∧ d.frac = 0) ∨ (d.kind = .bipolar ∧ d.width = 1 ∧ d.frac = 0)) :=
  ⟨issued_word _ _ _, by decide⟩

/-- Valid codes of every kind at the edges of R85's ranges. -/
def validCodes : List DType :=
  [⟨.uint, 1, 0⟩, ⟨.uint, 64, 0⟩, ⟨.int, 1, 0⟩, ⟨.int, 64, 0⟩, ⟨.fixed, 1, 0⟩, ⟨.fixed, 64, 63⟩, ⟨.float32, 32, 0⟩,
    ⟨.binary, 1, 0⟩, ⟨.ternary, 2, 0⟩, ⟨.bipolar, 1, 0⟩]

theorem witness_DtInfoReportsTheDescriptor :
    Issued (issuedWord 0x01 (regs 0 0 0 0 0) []) ∧ ∀ d ∈ validCodes, dtypeValid d = true :=
  ⟨issued_word _ _ _, by decide⟩

theorem witness_DtRangeReportsTheBounds :
    Issued (issuedWord 0x02 (regs 0 0 0 0 0) []) ∧ ∀ d ∈ validCodes, dtypeValid d = true :=
  ⟨issued_word _ _ _, by decide⟩

/-- The units at both ends of their set and one beside each. -/
theorem witness_DtReqelemsCountsUnits :
    (∀ u ∈ [8, 64], let s := issuedWord 0x03 (regs u 0 0 0 0) []
      Issued s ∧ (s.port.lop.op0.toNat = 8 ∨ s.port.lop.op0.toNat = 16 ∨ s.port.lop.op0.toNat = 32 ∨
        s.port.lop.op0.toNat = 64)) ∧
    (∀ u ∈ [0, 7, 65], let s := issuedWord 0x03 (regs u 0 0 0 0) []
      Issued s ∧ ¬ (s.port.lop.op0.toNat = 8 ∨ s.port.lop.op0.toNat = 16 ∨ s.port.lop.op0.toNat = 32 ∨
        s.port.lop.op0.toNat = 64)) ∧
    ∀ d ∈ validCodes, dtypeValid d = true := by
  refine ⟨?_, ?_, by decide⟩ <;> intro u hu <;> refine ⟨issued_word _ _ _, ?_⟩ <;> revert u <;> decide

/-! ### Codec -/

/-- PACK of no element at the end of DMEM, and of one element whose destination ends at the end of DMEM, right after
the source. -/
theorem witness_PackLaysFieldsEndToEnd :
    ∀ e ∈ [(65536, 0, 65536), (65527, 1, 65535), (65528, 1, 65527)],
      let s := issuedWord 0x00290710 (regs e.1 e.2.1 e.2.2 0 0) []
      let W := (describe ⟨.int, 5, 0⟩).w
      Issued s ∧ dtypeValid ⟨.int, 5, 0⟩ = true ∧
      s.port.lop.op0.toNat + s.port.lop.op1.toNat * laneBytes .s64 ≤ s.cfg.dmemBytes ∧
      s.port.lop.op2.toNat + ceilDiv (s.port.lop.op1.toNat * W) 8 ≤ s.cfg.dmemBytes ∧
      (s.port.lop.op1.toNat = 0 ∨
        s.port.lop.op0.toNat + s.port.lop.op1.toNat * laneBytes .s64 ≤ s.port.lop.op2.toNat ∨
        s.port.lop.op2.toNat + ceilDiv (s.port.lop.op1.toNat * W) 8 ≤ s.port.lop.op0.toNat) := by
  intro e he
  refine ⟨issued_word _ _ _, ?_⟩
  revert e
  decide +kernel

/-- A source one byte too long, a destination one byte too long, and ranges that share one byte. -/
theorem witness_PackErrorsInOrder :
    let s1 := issuedWord 0x00290710 (regs 65529 1 0 0 0) []
    let s2 := issuedWord 0x00290710 (regs 0 1 65536 0 0) []
    let s3 := issuedWord 0x00290710 (regs 0 1 7 0 0) []
    (Issued s1 ∧ s1.cfg.dmemBytes < s1.port.lop.op0.toNat + s1.port.lop.op1.toNat * laneBytes .s64) ∧
    (Issued s2 ∧ s2.cfg.dmemBytes < s2.port.lop.op2.toNat + ceilDiv (s2.port.lop.op1.toNat * 5) 8) ∧
    (Issued s3 ∧ s3.port.lop.op0.toNat ≤ 7 ∧ 7 < s3.port.lop.op0.toNat + s3.port.lop.op1.toNat * laneBytes .s64 ∧
      s3.port.lop.op2.toNat ≤ 7 ∧ 7 < s3.port.lop.op2.toNat + ceilDiv (s3.port.lop.op1.toNat * 5) 8) :=
  ⟨⟨issued_word _ _ _, by decide +kernel⟩, ⟨issued_word _ _ _, by decide +kernel⟩, issued_word _ _ _,
    by decide +kernel⟩

/-- The ranges of the lane clauses at their ends: the greatest S8 pattern, an infinity, a NaN, the greatest subnormal and
the greatest finite value. -/
theorem witness_LaneFormatsFollowTheirTable :
    255 < 2 ^ (8 * laneBytes .s8) ∧
    (∀ e ∈ [(255, 0), (255, 2 ^ 23 - 1), (0, 2 ^ 23 - 1), (254, 2 ^ 23 - 1)], e.1 < 2 ^ 8 ∧ e.2 < 2 ^ 23) ∧
    ∀ e ∈ [(2047, 0), (2047, 2 ^ 52 - 1), (0, 2 ^ 52 - 1), (2046, 2 ^ 52 - 1)], e.1 < 2 ^ 11 ∧ e.2 < 2 ^ 52 := by
  decide

/-- Integer lanes: the most negative S64 value, a value beyond the target, the two BIPOLAR values, and (31) one that is
neither. -/
theorem witness_IntegerLanesEncodeModuloTwoToW :
    (∀ d ∈ validCodes, dtypeValid d = true) ∧ laneValue .s64 (2 ^ 63) = .int (-2 ^ 63) ∧
    laneValue .u8 31 = .int 31 ∧ laneValue .s8 1 = .int 1 ∧ laneValue .s8 255 = .int (-1) := by decide

/-- Float lanes: +1.0, -1.0, and a NaN, which has no integer. -/
theorem witness_FloatLanesConvertThenWrap :
    (∀ d ∈ validCodes, dtypeValid d = true) ∧
    laneValue .f32 0x3F800000 = .flt (.fin false (2 ^ 23) (-23)) ∧ convScaled 0 (.fin false (2 ^ 23) (-23)) = some 1 ∧
    FVal.IsReal (.fin false (2 ^ 23) (-23)) 1 ∧ FVal.IsReal (.fin true (2 ^ 23) (-23)) (-1) ∧
    laneValue .f32 0x7FC00000 = .flt .nan := by
  refine ⟨by decide, by decide, by decide, ?_, ?_, by decide⟩ <;> norm_num [FVal.IsReal]

/-- F64 patterns of each kind: NaN, both infinities, 1.0, -0.0, and a value below half the least binary32 one. -/
theorem witness_Float32TargetConvertsByValue :
    laneValue .u8 3 = .int 3 ∧ f64Val 0x7FF8000000000000 = .nan ∧ f64Val 0xFFF0000000000000 = .inf true ∧
    f64Val 0x7FF0000000000000 = .inf false ∧ (∃ m e, f64Val 0x3FF0000000000000 = .fin false m e ∧ rneMag m e ≠ 0) ∧
    ∃ m e, f64Val 0xB690000000000000 = .fin true m e ∧ rneMag m e = 0 :=
  ⟨by decide, by decide, by decide, by decide, ⟨_, _, by rfl, by decide⟩, _, _, by rfl, by decide⟩

/-- The largest finite binary32 value and a tie below it are below the midpoint; the midpoint itself, and a negative
value beyond it, are not. -/
theorem witness_RoundingIsToNearestEven :
    |((2 ^ 24 - 1 : Int) : ℚ) * 2 ^ (104 : Int)| < (2 ^ 25 - 1) * 2 ^ 103 ∧
    |((-(2 ^ 25 - 3) : Int) : ℚ) * 2 ^ (103 : Int)| < (2 ^ 25 - 1) * 2 ^ 103 ∧
    |((0 : Int) : ℚ) * 2 ^ (0 : Int)| < (2 ^ 25 - 1) * 2 ^ 103 ∧
    (2 ^ 25 - 1) * 2 ^ 103 ≤ |((2 ^ 25 - 1 : Int) : ℚ) * 2 ^ (103 : Int)| ∧
    (2 ^ 25 - 1) * 2 ^ 103 ≤ |((-1 : Int) : ℚ) * 2 ^ (200 : Int)| := by norm_num [abs_of_nonneg]

/-- UNPACK with the padding at 4 and the destination right after the source, and with one byte and no padding at the end
of DMEM. -/
theorem witness_UnpackExtractsEveryField :
    ∀ e ∈ [(⟨.int, 5, 0⟩, 0x100, 3, 4, 0x103), (⟨.uint, 8, 0⟩, 65535, 1, 0, 65534), (⟨.binary, 1, 0⟩, 0, 1, 7, 1)],
      let s := issuedWord 0x11 (regs e.2.1 e.2.2.1 e.2.2.2.1 e.2.2.2.2 0) []
      let W := (describe e.1).w
      let lb := laneBytes (outlane (describe e.1))
      let n := (8 * s.port.lop.op1.toNat - s.port.lop.op2.toNat) / W
      Issued s ∧ dtypeValid e.1 = true ∧ s.port.lop.op1.toNat ≠ 0 ∧ s.port.lop.op2.toNat ≤ 7 ∧
      (8 * s.port.lop.op1.toNat - s.port.lop.op2.toNat) % W = 0 ∧
      s.port.lop.op0.toNat + s.port.lop.op1.toNat ≤ s.cfg.dmemBytes ∧
      s.port.lop.op3.toNat + n * lb ≤ s.cfg.dmemBytes ∧
      (s.port.lop.op0.toNat + s.port.lop.op1.toNat ≤ s.port.lop.op3.toNat ∨
        s.port.lop.op3.toNat + n * lb ≤ s.port.lop.op0.toNat) := by
  intro e he
  refine ⟨issued_word _ _ _, ?_⟩
  revert e
  decide +kernel

/-- Each error of UNPACK alone: no byte, padding 8, a length that is no multiple, a range one byte too long, one shared
byte. -/
theorem witness_UnpackErrorsInOrder :
    (∀ r, Issued (issuedWord 0x00290011 r [])) ∧ dtypeValid ⟨.int, 5, 0⟩ = true ∧
    (8 * 3 - 5) % (describe ⟨.int, 5, 0⟩).w ≠ 0 ∧ (8 * 3 - 4) % (describe ⟨.int, 5, 0⟩).w = 0 ∧
    State.reset.cfg.dmemBytes < 65534 + 3 ∧ State.reset.cfg.dmemBytes < 65533 + 4 ∧
    0x100 + 3 ≤ State.reset.cfg.dmemBytes ∧ 0x102 + 4 ≤ State.reset.cfg.dmemBytes ∧
    (8 * 3 - 4) / (describe ⟨.int, 5, 0⟩).w * laneBytes (outlane (describe ⟨.int, 5, 0⟩)) = 4 ∧
    (0x100 ≤ 0x102 ∧ 0x102 < 0x100 + 3) :=
  ⟨fun _ => issued_word _ _ _, by decide +kernel⟩

/-- The largest raw field of every kind, and of FIXED at and beyond 25 bits. -/
theorem witness_LanesHoldTheFieldValue :
    ∀ d ∈ validCodes ++ [⟨.fixed, 25, 24⟩, ⟨.fixed, 26, 0⟩],
      dtypeValid d = true ∧ 2 ^ (describe d).w - 1 < 2 ^ (describe d).w := by decide

/-- A value of each kind's range in an integer lane, the bounds of INT and UINT among them; in a float lane the least
value of fixed<8,4>, on the grid, and one off it. -/
theorem witness_FieldRoundTrip :
    (∀ d ∈ validCodes, dtypeValid d = true) ∧ laneValue .s64 (2 ^ 63) = .int (-2 ^ (64 - 1)) ∧
    laneValue .u64 (2 ^ 64 - 1) = .int (2 ^ 64 - 1) ∧ laneValue .u8 1 = .int 1 ∧ laneValue .s8 255 = .int (-1) ∧
    dtypeValid ⟨.fixed, 8, 4⟩ = true ∧
    (laneValue .f32 0xC1000000 = .flt (.fin true (2 ^ 23) (-20)) ∧ FVal.IsReal (.fin true (2 ^ 23) (-20)) (-8) ∧
      -2 ^ (8 - 1) / 2 ^ 4 ≤ (-8 : ℚ) ∧ (-8 : ℚ) ≤ (2 ^ (8 - 1) - 1) / 2 ^ 4 ∧ ∃ z : Int, (-8 : ℚ) * 2 ^ 4 = z) ∧
    (laneValue .f64 0x3FA0000000000000 = .flt (.fin false (2 ^ 52) (-57)) ∧
      FVal.IsReal (.fin false (2 ^ 52) (-57)) (1 / 32) ∧ -2 ^ (8 - 1) / 2 ^ 4 ≤ (1 / 32 : ℚ) ∧
      (1 / 32 : ℚ) ≤ (2 ^ (8 - 1) - 1) / 2 ^ 4) := by
  refine ⟨by decide, by decide, by decide, by decide, by decide, by decide, ⟨by decide, ?_, ?_, ?_, -128, ?_⟩,
    by decide, ?_, ?_, ?_⟩ <;> norm_num [FVal.IsReal]

/-- The hypotheses of the round trip: s packs n lanes of d's output format, and some port state takes the bytes back. -/
def RoundTrips (d : DType) (s : State) : Prop :=
  let L := outlane (describe d)
  let lb := laneBytes L
  let n := s.port.lop.op1.toNat
  dtypeValid d = true ∧ (d.kind = .fixed → d.width ≤ 25) ∧ Issued s ∧ 0 < n ∧
  (∀ i, i < n → ∃ raw, raw < 2 ^ (describe d).w ∧
    memRead s.dmem (s.port.lop.op0.toNat + i * lb) lb = decLane (describe d) raw) ∧
  ∃ t t' : State, exec (.pack L d) s = .next t ∧ t.port.status.err = .noError ∧ Issued t' ∧ t'.dmem = t.dmem ∧
    t'.cfg = t.cfg ∧ t'.port.lop.op0 = s.port.lop.op2 ∧ t'.port.lop.op1 = t.port.res0 ∧
    t'.port.lop.op2 = t.port.res1 ∧ t'.port.lop.op3.toNat + n * lb ≤ t'.cfg.dmemBytes ∧ t'.cfg.dmemBytes ≤ 2 ^ 20 ∧
    (s.port.lop.op2.toNat + t.port.res0.toNat ≤ t'.port.lop.op3.toNat ∨
      t'.port.lop.op3.toNat + n * lb ≤ s.port.lop.op2.toNat)

/-- The port state that takes the packed bytes back: operands from PACK's results, lanes to 0x200. -/
theorem takesBack {d : DType} {L : LaneFmt} {lb n : Nat} {s t : State} (ht : exec (.pack L d) s = .next t)
    (he : t.port.status.err = .noError) (hc : t.cfg = Config.Params.reference) (hd : s.port.lop.op2.toNat = 0x100)
    (h0 : t.port.res0.toNat ≤ 0x100) (hn : n * lb ≤ 0x100) :
    ∃ t t' : State, exec (.pack L d) s = .next t ∧ t.port.status.err = .noError ∧ Issued t' ∧ t'.dmem = t.dmem ∧
      t'.cfg = t.cfg ∧ t'.port.lop.op0 = s.port.lop.op2 ∧ t'.port.lop.op1 = t.port.res0 ∧
      t'.port.lop.op2 = t.port.res1 ∧ t'.port.lop.op3.toNat + n * lb ≤ t'.cfg.dmemBytes ∧
      t'.cfg.dmemBytes ≤ 2 ^ 20 ∧
      (s.port.lop.op2.toNat + t.port.res0.toNat ≤ t'.port.lop.op3.toNat ∨
        t'.port.lop.op3.toNat + n * lb ≤ s.port.lop.op2.toNat) := by
  let r : OpRegs := { OpRegs.reset with op0 := s.port.lop.op2, op1 := t.port.res0, op2 := t.port.res1, op3 := 0x200 }
  refine ⟨t, issuedWord 0x11 r t.dmem, ht, he, issued_word _ _ _, rfl, hc.symm, rfl, rfl, rfl, ?_, ?_, .inl ?_⟩
  · show 0x200 + n * lb ≤ 65536
    omega
  · show 65536 ≤ 2 ^ 20
    decide
  · show s.port.lop.op2.toNat + t.port.res0.toNat ≤ 0x200
    omega

/-- PACK and UNPACK of two int<5> lanes, of 1.5 as fixed<8,4>, and of a float32 NaN pattern. -/
theorem witness_UnpackRestoresWhatPackPacked :
    RoundTrips ⟨.int, 5, 0⟩ (issuedWord 0x00290410 (regs 0 2 0x100 0 0) (cells 0 [0xFD, 0x02])) ∧
    RoundTrips ⟨.fixed, 8, 4⟩ (issuedWord 0x10420810 (regs 0 1 0x100 0 0) (cells 0 [0, 0, 0xC0, 0x3F])) ∧
    RoundTrips ⟨.float32, 32, 0⟩ (issuedWord 0x01030810 (regs 0 1 0x100 0 0) (cells 0 [1, 0, 0x80, 0x7F])) := by
  refine ⟨⟨by decide, by decide, issued_word _ _ _, by decide, ?_, takesBack rfl rfl rfl rfl (by decide) (by decide)⟩,
    ⟨by decide, by decide, issued_word _ _ _, by decide, ?_, takesBack rfl rfl rfl rfl (by decide) (by decide)⟩,
    ⟨by decide, by decide, issued_word _ _ _, by decide, ?_, takesBack rfl rfl rfl rfl (by decide) (by decide)⟩⟩
  · intro i hi
    have hi : i < 2 := hi
    interval_cases i
    · exact ⟨29, by decide, by decide +kernel⟩
    · exact ⟨2, by decide, by decide +kernel⟩
  · intro i hi
    have hi : i < 1 := hi
    interval_cases i
    exact ⟨24, by decide, by decide +kernel⟩
  · intro i hi
    have hi : i < 1 := hi
    interval_cases i
    exact ⟨0x7F800001, by decide, by decide +kernel⟩

/-- Two states that differ outside the source bytes, and a PACK and an UNPACK that both complete. -/
theorem witness_CodecDependsOnItsSourceAlone :
    let s := issuedWord 0x00290410 (regs 0 2 0x100 0x200 0) (cells 0 [0xFD, 0x02])
    let s' := withAccs (issuedWord 0x00290410 (regs 0 2 0x100 0x200 0) (cells 0 [0xFD, 0x02, 9])) [1] []
    Issued s ∧ Issued s' ∧ s'.cfg = s.cfg ∧ s'.draws = s.draws ∧ s'.port.lop = s.port.lop ∧
    (∀ x, 0 ≤ x → x < 2 → s'.dmem.byte x = s.dmem.byte x) ∧
    (∃ t, exec (.pack .s8 ⟨.int, 5, 0⟩) s = .next t ∧ t.port.status.err = .noError) ∧
    ∃ t, exec (.unpack ⟨.int, 8, 0⟩) s = .next t := by
  refine ⟨issued_word _ _ _, issued_accs _ _ _ _ _, rfl, rfl, rfl, ?_, ⟨_, rfl, rfl⟩, _, rfl⟩
  intro x _ h
  interval_cases x <;> decide +kernel

/-! ### Bit accumulator -/

/-- An index just out of range, the greatest nBits and one above it. -/
theorem witness_AccNewMakesAZeroedSlot :
    (let s := issuedWord 0x20 (regs 4 0 0 0 0) []
     Issued s ∧ s.accs.length ≤ s.port.lop.op0.toNat) ∧
    (let s := issuedWord 0x20 (regs 3 65537 0 0 0) []
     Issued s ∧ s.port.lop.op0.toNat < s.accs.length ∧ s.cfg.accMaxBits < s.port.lop.op1.toNat) ∧
    (let s := issuedWord 0x20 (regs 3 65536 0 0 0) []
     Issued s ∧ s.port.lop.op0.toNat < s.accs.length ∧ s.port.lop.op1.toNat ≤ s.cfg.accMaxBits) :=
  ⟨⟨issued_word _ _ _, by decide⟩, ⟨issued_word _ _ _, by decide⟩, issued_word _ _ _, by decide⟩

/-- A FREE slot, and a LIVE one with the bit at and beyond its capacity. -/
theorem witness_AccSetbitSetsOneBit :
    (let s := issuedWord 0x21 (regs 3 0 0 0 0) []
     Issued s ∧ ∀ a, s.accs[s.port.lop.op0.toNat]? = some a → a.state ≠ .live) ∧
    (∀ n ∈ [15, 16], let s := withAccs (issuedWord 0x21 (regs 0 n 0 0 0) []) [0, 0] []
     Issued s ∧ ∃ a, s.accs[s.port.lop.op0.toNat]? = some a ∧ a.state = .live) :=
  ⟨⟨issued_word _ _ _, by intro a h; cases h; decide⟩, fun n _ => ⟨issued_accs _ _ _ _ _, _, rfl, rfl⟩⟩

/-- A FREE slot, a LIVE one with a width beside the set, and one with a width in it. -/
theorem witness_AccSetbitsOrsTheValueIn :
    (let s := issuedWord 0x22 (regs 3 0 0 8 0) []
     Issued s ∧ ∀ a, s.accs[s.port.lop.op0.toNat]? = some a → a.state ≠ .live) ∧
    (let s := withAccs (issuedWord 0x22 (regs 0 0x1F 6 7 0) []) [0, 2] []
     Issued s ∧ (∃ a, s.accs[s.port.lop.op0.toNat]? = some a ∧ a.state = .live) ∧
       ¬ (s.port.lop.op3.toNat = 8 ∨ s.port.lop.op3.toNat = 16 ∨ s.port.lop.op3.toNat = 32 ∨
         s.port.lop.op3.toNat = 64)) ∧
    (let s := withAccs (issuedWord 0x22 (regs 0 0x1F 6 64 0) []) [0, 2] []
     Issued s ∧ (∃ a, s.accs[s.port.lop.op0.toNat]? = some a ∧ a.state = .live) ∧ s.port.lop.op3.toNat = 64) :=
  ⟨⟨issued_word _ _ _, by intro a h; cases h; decide⟩,
    ⟨issued_accs _ _ _ _ _, ⟨_, rfl, rfl⟩, by decide⟩, issued_accs _ _ _ _ _, ⟨_, rfl, rfl⟩, by decide⟩

/-- A FREE source, two LIVE slots of unequal and of equal length, one slot as both operands. -/
theorem witness_AccOrmergeOrsBytes :
    (let s := withAccs (issuedWord 0x23 (regs 0 2 0 0 0) []) [1] [2]
     Issued s ∧ ∀ a, s.accs[s.port.lop.op1.toNat]? = some a → a.state ≠ .live) ∧
    (let s := withAccs (issuedWord 0x23 (regs 0 1 0 0 0) []) [1] [2, 3]
     Issued s ∧ ∃ a b, s.accs[s.port.lop.op0.toNat]? = some a ∧ a.state = .live ∧
       s.accs[s.port.lop.op1.toNat]? = some b ∧ b.state = .live ∧ a.nbytes ≠ b.nbytes) ∧
    (∀ k ∈ [0, 1], let s := withAccs (issuedWord 0x23 (regs 0 k 0 0 0) []) [1] [2]
     Issued s ∧ ∃ a b, s.accs[s.port.lop.op0.toNat]? = some a ∧ a.state = .live ∧
       s.accs[s.port.lop.op1.toNat]? = some b ∧ b.state = .live ∧ a.nbytes = b.nbytes) ∧
    orBytes [1] [2] = orBytes [2] [1] := by
  refine ⟨⟨issued_accs _ _ _ _ _, by intro a h; cases h; decide⟩,
    ⟨issued_accs _ _ _ _ _, _, _, rfl, rfl, rfl, rfl, by decide⟩, ?_, by decide⟩
  intro k hk
  refine ⟨issued_accs _ _ _ _ _, ?_⟩
  fin_cases hk <;> exact ⟨_, _, rfl, rfl, rfl, rfl, rfl⟩

/-- A FREE slot, an image one byte too long for DMEM, and one that ends at its end. -/
theorem witness_AccTobytesMovesTheBytesOut :
    (let s := issuedWord 0x24 (regs 3 0 0 0 0) []
     Issued s ∧ ∀ a, s.accs[s.port.lop.op0.toNat]? = some a → a.state ≠ .live) ∧
    (let s := withAccs (issuedWord 0x24 (regs 0 65535 0 0 0) []) [1, 2] []
     Issued s ∧ ∃ a, s.accs[s.port.lop.op0.toNat]? = some a ∧ a.state = .live ∧
       s.cfg.dmemBytes < s.port.lop.op1.toNat + a.nbytes) ∧
    (let s := withAccs (issuedWord 0x24 (regs 0 65534 0 0 0) []) [1, 2] []
     Issued s ∧ ∃ a, s.accs[s.port.lop.op0.toNat]? = some a ∧ a.state = .live ∧
       s.port.lop.op1.toNat + a.nbytes ≤ s.cfg.dmemBytes) :=
  ⟨⟨issued_word _ _ _, by intro a h; cases h; decide⟩,
    ⟨issued_accs _ _ _ _ _, _, rfl, rfl, by decide⟩, issued_accs _ _ _ _ _, _, rfl, rfl, by decide⟩

/-- A FREE slot, a text one byte too long for DMEM, and one that ends at its end. -/
theorem witness_AccBitstrWritesMsbFirst :
    (let s := issuedWord 0x25 (regs 3 0 0 0 0) []
     Issued s ∧ ∀ a, s.accs[s.port.lop.op0.toNat]? = some a → a.state ≠ .live) ∧
    (let s := withAccs (issuedWord 0x25 (regs 0 65521 0 0 0) []) [1, 2] []
     Issued s ∧ ∃ a, s.accs[s.port.lop.op0.toNat]? = some a ∧ a.state = .live ∧
       s.cfg.dmemBytes < s.port.lop.op1.toNat + 8 * a.nbytes) ∧
    (let s := withAccs (issuedWord 0x25 (regs 0 65520 0 0 0) []) [1, 2] []
     Issued s ∧ ∃ a, s.accs[s.port.lop.op0.toNat]? = some a ∧ a.state = .live ∧
       s.port.lop.op1.toNat + 8 * a.nbytes ≤ s.cfg.dmemBytes) :=
  ⟨⟨issued_word _ _ _, by intro a h; cases h; decide⟩,
    ⟨issued_accs _ _ _ _ _, _, rfl, rfl, by decide⟩, issued_accs _ _ _ _ _, _, rfl, rfl, by decide⟩

/-- A step of ACC_SETBIT on a LIVE slot with a bit set, while the other port holds an ACC_NEW on the same slot. -/
theorem witness_AccumulatorBitsNeverClear :
    let q1 := portIn .issued 0x20 (regs 0 9 0 0 0)
    let s0 := withAccs (issuedWord 0x21 (regs 0 9 0 0 0) []) [1, 0] []
    let s := { s0 with agenda := [.port 0], ports := s0.ports.set 1 q1 }
    s.ports[1]? = some q1 ∧ decode q1.lcw = .ok .accNew ∧ q1.lop.op0.toNat = 0 ∧
    ∃ t, step s = .next t ∧ (∀ image rest, s.agenda ≠ .reset image :: rest) ∧
      (∀ (p : Nat) (q : Port), Moves s t p q → decode q.lcw = .ok .accNew → q.lop.op0.toNat ≠ 0) ∧
      ∃ a, s.accs[0]? = some a ∧ a.state = .live ∧ bitAt a.bytes 0 = true := by
  refine ⟨rfl, by decide, rfl, _, rfl, (by intro i r h; cases h), ?_, _, rfl, rfl, by decide⟩
  rintro p q ⟨hq, -, hc, -⟩ hd
  subst hc
  cases hq
  exact absurd (hd : decode 0x21 = _) (by decide)

/-! ### Tensor view -/

/-- TV_NEW with rank 0, a rank above the limit, a shape one byte beyond DMEM, end below begin, a zero entry, a wrong
product, and a shape that fits; TV_SETSHAPE on a LIVE view. -/
theorem witness_TvNewAndSetshapeInstallTheShape :
    (∀ r m, let s := issuedWord 0x30 r m
      Issued s ∧ (r.op0.toNat = 3 → s.port.lop.op0.toNat < s.tvs.length)) ∧
    (let s := withView (issuedWord 0x31 (regs 0 0 0 0x500 2) (shapeAt 3 2)) 6 [2, 3]
     Issued s ∧ ∃ v, s.tvs[s.port.lop.op0.toNat]? = some v ∧ v.state = .live ∧ v.first.toNat ≤ v.last.toNat) ∧
    State.reset.cfg.tvMaxRank < 9 ∧ State.reset.cfg.dmemBytes < 65521 + 8 * 2 ∧
    65520 + 8 * 2 ≤ State.reset.cfg.dmemBytes ∧ 0 ∈ readLanes (shapeAt 0 6) 0x500 8 2 ∧
    (5 : Word).toNat < (6 : Word).toNat ∧ dimProduct (readLanes (shapeAt 4 2) 0x500 8 2) ≠ 6 - 0 ∧
    (0 ∉ readLanes (shapeAt 2 3) 0x500 8 2 ∧ dimProduct (readLanes (shapeAt 2 3) 0x500 8 2) = 6 - 0) := by
  refine ⟨fun r m => ⟨issued_word _ _ _, fun h => ?_⟩, ⟨issued_view _ _ _ _ _, _, rfl, rfl, by decide⟩, ?_⟩
  · show r.op0.toNat < 4
    omega
  · decide +kernel

/-- An index just out of range, and a FREE slot. -/
theorem witness_TvCommandsCheckTheSlot :
    (let s := issuedWord 0x30 (regs 4 0 0 0 0) []
     Issued s ∧ s.tvs.length ≤ s.port.lop.op0.toNat) ∧
    (let s := issuedWord 0x32 (regs 3 0 0 0 0) []
     Issued s ∧ ∀ v, s.tvs[s.port.lop.op0.toNat]? = some v → v.state ≠ .live) :=
  ⟨⟨issued_word _ _ _, by decide⟩, issued_word _ _ _, by intro a h; cases h; decide⟩

/-- The last slice and the last dimension of a view, and the index after each. -/
theorem witness_TvQueriesAnswer :
    ∀ i ∈ [1, 2], let s := withView (issuedWord 0x33 (regs 0 i 0 0 0) []) 6 [2, 3]
      Issued s ∧ ∃ v, s.tvs[s.port.lop.op0.toNat]? = some v ∧ v.state = .live ∧ v.nslices = 2 ∧ v.rank = 2 :=
  fun _ _ => ⟨issued_view _ _ _ _ _, _, rfl, rfl, by decide, rfl⟩

/-- Views of rank 1 and rank 3. -/
theorem witness_SlicesTileTheView :
    ∀ sh ∈ [[6], [1, 2, 3]], TvOk State.reset.cfg (TvSlot.ofShape 0 6 sh) ∧ (TvSlot.ofShape 0 6 sh).state = .live := by
  intro sh hsh
  refine ⟨fun _ => ?_, rfl⟩
  revert sh
  decide

/-! ### Ring buffer -/

/-- A slot in use, a bad mode, a size one above the limit, and the greatest size. -/
theorem witness_RbNewMakesAnEmptyRing :
    (let s := withRing0 (issuedWord 0x40 (regs 0 3 4 1 1) []) (ring .mt 1 [0, 0] 0 0 none)
     Issued s ∧ ∀ r, s.rbs[s.port.lop.op0.toNat]? = some r → r.state ≠ .free) ∧
    (∀ e ∈ [(65536, 1, 2, 1), (65537, 1, 1, 1), (1, 1, 0, 3), (0, 1, 0, 1), (65536, 1, 1, 8)],
      let s := issuedWord 0x40 (regs 3 e.1 e.2.1 e.2.2.1 e.2.2.2) []
      Issued s ∧ ∃ r, s.rbs[s.port.lop.op0.toNat]? = some r ∧ r.state = .free) :=
  ⟨⟨issued_ring _ _ _ _, by intro a h; cases h; decide⟩, fun _ _ => ⟨issued_word _ _ _, _, rfl, rfl⟩⟩

/-- A port in a phase with a ring command on slot 0. -/
def onRing (ph : Phase) (w : CmdWord) (r : OpRegs) (m : Memory) (x : RingSlot) : State :=
  withRing0 (withPort (portIn ph w r) m) x

/-- The ring of two one-byte elements is as R35 has it. -/
theorem ringOk_ring (mode : RbMode) (store : List Word) (occ : Nat) (o : Option Nat) (hs : store.length = 2)
    (ho : occ = 0 ∨ occ = 2) : RingOk State.reset.cfg (ring mode 1 store 0 occ o) := by
  refine ⟨(fun h => by cases h), fun _ => ?_⟩
  rcases ho with rfl | rfl <;> simp [ring, RingSlot.cap, hs, State.reset, State.resetOf, Config.Params.reference]

/-- A store that fills the ring from the last bytes of DMEM: on an MT ring at once, on waking, and in step 2 of ST. -/
theorem witness_RbStoreAppends :
    ∀ e ∈ [(Phase.issued, RbMode.mt), (.waiting, .mt), (.held, .st)],
      let s := onRing e.1 0x1041 (regs 0 65534 2 0 0) [] (ring e.2 1 [0, 0] 0 0 none)
      let r := ring e.2 1 [0, 0] 0 0 none
      s.cur < s.ports.length ∧ s.rbs[s.port.lop.op0.toNat]? = some r ∧ RingOk s.cfg r ∧ Performs s r ∧
      s.port.lop.op2.toNat % r.epp = 0 ∧
      s.port.lop.op1.toNat + s.port.lop.op2.toNat * r.ebytes ≤ s.cfg.dmemBytes ∧
      r.occ + s.port.lop.op2.toNat ≤ r.cap := by
  intro e he
  refine ⟨Nat.succ_pos 1, rfl, ringOk_ring _ _ _ _ rfl (.inl rfl), ⟨rfl, ?_⟩, ?_⟩
  · fin_cases he
    · exact .inl ⟨rfl, rfl, rfl⟩
    · exact .inr (.inl rfl)
    · exact .inr (.inr rfl)
  · fin_cases he <;> decide +kernel

/-- A read of the only part to the last bytes of DMEM, in each of the three ways. -/
theorem witness_RbReadRemovesTheOldestPart :
    ∀ e ∈ [(Phase.issued, RbMode.mt), (.waiting, .mt), (.held, .st)],
      let s := onRing e.1 0x1042 (regs 0 65534 0 0 0) [] (ring e.2 1 [1, 2] 0 2 none)
      let r := ring e.2 1 [1, 2] 0 2 none
      s.cur < s.ports.length ∧ s.rbs[s.port.lop.op0.toNat]? = some r ∧ RingOk s.cfg r ∧ Performs s r ∧
      s.port.lop.op1.toNat + r.epp * r.ebytes ≤ s.cfg.dmemBytes ∧ r.epp ≤ r.occ := by
  intro e he
  refine ⟨Nat.succ_pos 1, rfl, ringOk_ring _ _ _ _ rfl (.inr rfl), ⟨rfl, ?_⟩, ?_⟩
  · fin_cases he
    · exact .inl ⟨rfl, rfl, rfl⟩
    · exact .inr (.inl rfl)
    · exact .inr (.inr rfl)
  · fin_cases he <;> decide +kernel

/-- A drain to the last bytes of DMEM, one to a byte too far, and one of an empty ring. -/
theorem witness_RbReadallDrains :
    ∀ e ∈ [(Phase.issued, RbMode.mt), (.held, .st)],
      (∀ a ∈ [65534, 65535], let s := onRing e.1 0x43 (regs 0 a 0 0 0) [] (ring e.2 1 [1, 2] 0 2 none)
        let r := ring e.2 1 [1, 2] 0 2 none
        s.cur < s.ports.length ∧ s.rbs[s.port.lop.op0.toNat]? = some r ∧ RingOk s.cfg r ∧ Performs s r ∧ 0 < r.occ) ∧
      (let s := onRing e.1 0x43 (regs 0 0 0 0 0) [] (ring e.2 1 [1, 2] 0 0 none)
       let r := ring e.2 1 [1, 2] 0 0 none
       s.cur < s.ports.length ∧ s.rbs[s.port.lop.op0.toNat]? = some r ∧ RingOk s.cfg r ∧ Performs s r ∧ r.occ = 0 ∧
         s.port.phase ≠ .waiting) ∧
      65534 + 2 * 1 ≤ State.reset.cfg.dmemBytes ∧ State.reset.cfg.dmemBytes < 65535 + 2 * 1 := by
  intro e he
  have hp : ∀ (a occ : Nat), Performs (onRing e.1 0x43 (regs 0 a 0 0 0) [] (ring e.2 1 [1, 2] 0 occ none))
      (ring e.2 1 [1, 2] 0 occ none) := by
    intro a occ
    fin_cases he
    · exact ⟨rfl, .inl ⟨rfl, rfl, rfl⟩⟩
    · exact ⟨rfl, .inr (.inr rfl)⟩
  refine ⟨fun a _ => ⟨Nat.succ_pos 1, rfl, ringOk_ring _ _ _ _ rfl (.inr rfl), hp _ _, Nat.succ_pos 1⟩,
    ⟨Nat.succ_pos 1, rfl, ringOk_ring _ _ _ _ rfl (.inl rfl), hp _ _, rfl, ?_⟩, by decide⟩
  fin_cases he <;> intro h <;> cases h

/-- A query on a full MT ring at once, and on a held ST ring. -/
theorem witness_RbQueriesAnswer :
    ∀ e ∈ [(Phase.issued, RbMode.mt), (.held, .st)],
      let s := onRing e.1 0x44 (regs 0 0 0 0 0) [] (ring e.2 1 [1, 2] 0 2 none)
      let r := ring e.2 1 [1, 2] 0 2 none
      s.cur < s.ports.length ∧ s.rbs[s.port.lop.op0.toNat]? = some r ∧ Performs s r := by
  intro e he
  refine ⟨Nat.succ_pos 1, rfl, rfl, ?_⟩
  fin_cases he
  · exact .inl ⟨rfl, rfl, rfl⟩
  · exact .inr (.inr rfl)

/-- A FREE slot, a POISONED one, and a LIVE one with a length that is no multiple, one above the capacity, and ranges one
byte too long. -/
theorem witness_RingCommandsCheckFirst :
    (let s := issuedWord 0x41 (regs 3 0 0 0 0) []
     Issued s ∧ ∀ r, s.rbs[s.port.lop.op0.toNat]? = some r → r.state = .free) ∧
    (let s := withRing0 (issuedWord 0x41 (regs 0 0 0 0 0) []) { ring .st 1 [0, 0] 0 0 none with state := .poisoned }
     Issued s ∧ ∃ r, s.rbs[s.port.lop.op0.toNat]? = some r ∧ r.state = .poisoned) ∧
    (∀ e ∈ [(0, 1), (0, 4), (65535, 2)], let s := withRing0 (issuedWord 0x41 (regs 0 e.1 e.2 0 0) []) (ring .st 1 [0, 0] 0 0 none)
      let r := ring .st 1 [0, 0] 0 0 none
      Issued s ∧ s.rbs[s.port.lop.op0.toNat]? = some r ∧ r.state = .live ∧
        (e.2 % r.epp ≠ 0 ∨ r.cap < e.2 ∨ s.cfg.dmemBytes < e.1 + e.2 * r.ebytes)) := by
  refine ⟨⟨issued_word _ _ _, by intro a h; cases h; rfl⟩, ⟨issued_ring _ _ _ _, _, rfl, rfl⟩, ?_⟩
  intro e he
  refine ⟨issued_ring _ _ _ _, rfl, rfl, ?_⟩
  fin_cases he <;> decide +kernel

/-- A store on a full MT ring and a read on an empty one, as they are issued and while they wait. -/
theorem witness_MtRingFailsOrWaits :
    ∀ ph ∈ [Phase.issued, .waiting],
      (let s := onRing ph 0x41 (regs 0 65534 2 0 0) [] (ring .mt 1 [1, 2] 0 2 none)
       let r := ring .mt 1 [1, 2] 0 2 none
       s.cur < s.ports.length ∧ s.gstatus.cfgerr = false ∧ s.rbs[s.port.lop.op0.toNat]? = some r ∧ r.state = .live ∧
       r.mode = .mt ∧ s.port.lop.op2.toNat % r.epp = 0 ∧ s.port.lop.op2.toNat ≤ r.cap ∧
       s.port.lop.op1.toNat + s.port.lop.op2.toNat * r.ebytes ≤ s.cfg.dmemBytes ∧
       r.cap < r.occ + s.port.lop.op2.toNat) ∧
      (let s := onRing ph 0x42 (regs 0 65534 0 0 0) [] (ring .mt 1 [1, 2] 0 0 none)
       let r := ring .mt 1 [1, 2] 0 0 none
       s.cur < s.ports.length ∧ s.gstatus.cfgerr = false ∧ s.rbs[s.port.lop.op0.toNat]? = some r ∧ r.state = .live ∧
       r.mode = .mt ∧ s.port.lop.op1.toNat + r.epp * r.ebytes ≤ s.cfg.dmemBytes ∧ r.occ < r.epp) := by
  intro ph hph
  fin_cases hph <;> decide +kernel

/-- Step 1 of a store and of a drain on an unowned ST ring; step 2 of a read that finds a part; and step 2 of a read that
finds none, blocking or not. -/
theorem witness_StRingAcquiresThenPerforms :
    (∀ i ∈ [Instr.rbStore true, .rbReadall, .rbFull, .rbEmpty, .rbSize],
      let r := ring .st 1 [0, 0] 0 0 none
      let s := onRing .issued (encode i) (regs 0 65534 2 0 0) [] r
      s.cur < s.ports.length ∧ s.gstatus.cfgerr = false ∧ s.rbs[s.port.lop.op0.toNat]? = some r ∧ r.state = .live ∧
      r.mode = .st ∧ r.owner = none ∧ s.port.phase = .issued ∧ PreHolds i s r) ∧
    ∀ blk ∈ [false, true], ∀ occ ∈ [0, 2],
      let r := ring .st 1 [1, 2] 0 occ (some 0)
      let s := onRing .held (encode (.rbRead blk)) (regs 0 65534 0 0 0) [] r
      s.cur < s.ports.length ∧ s.rbs[s.port.lop.op0.toNat]? = some r ∧ r.state = .live ∧ r.mode = .st ∧
      PreHolds (.rbRead blk) s r ∧ s.port.phase = .held ∧ (CondHolds (.rbRead blk) s.port.lop r ↔ occ = 2) ∧
      (Blocks (.rbRead blk) ↔ blk = true) ∧ s.port.lcw = encode (.rbRead blk) := by
  constructor
  · intro i hi
    refine ⟨Nat.succ_pos 1, rfl, rfl, rfl, rfl, rfl, rfl, ?_⟩
    fin_cases hi <;> trivial
  · intro blk _ occ ho
    refine ⟨Nat.succ_pos 1, rfl, rfl, rfl, show 65534 + 2 * 1 ≤ 65536 by decide, rfl, ?_, ?_, rfl⟩
    · show 2 ≤ occ ↔ occ = 2
      fin_cases ho <;> decide
    · simp [Blocks]

/-- Step 1 on a ring another port owns, and step 2 on a ring poisoned meanwhile. -/
theorem witness_ConcurrentStUseIsTheRaceFault :
    (let s := onRing .issued 0x43 (regs 0 0 0 0 0) [] (ring .st 1 [0, 0] 0 0 (some 1))
     let r := ring .st 1 [0, 0] 0 0 (some 1)
     s.cur < s.ports.length ∧ s.rbs[s.port.lop.op0.toNat]? = some r ∧ s.port.phase = .issued ∧
     s.gstatus.cfgerr = false ∧ r.state = .live ∧ r.mode = .st ∧ r.owner ≠ none ∧ PreHolds .rbReadall s r ∧
     PreHolds (.rbStore true) s r ∧ PreHolds (.rbRead false) s r) ∧
    (let r := { ring .st 1 [0, 0] 0 0 (some 0) with state := .poisoned }
     let s := onRing .held 0x43 (regs 0 0 0 0 0) [] r
     s.cur < s.ports.length ∧ s.rbs[s.port.lop.op0.toNat]? = some r ∧ s.port.phase = .held ∧ r.state = .poisoned) :=
  ⟨⟨Nat.succ_pos 1, rfl, rfl, rfl, rfl, rfl, by decide, trivial,
    ⟨rfl, by decide, by decide⟩, show 0 + 2 * 1 ≤ 65536 by decide⟩, Nat.succ_pos 1, rfl, rfl, rfl⟩

end Sys2Proof.Tests
end

section
/-! PROOF. The host's CMD and STATUS registers (10_state.md R28, R29). -/

namespace Sys2Proof.Machine

/-- A CMD write on port q, field by field (R28). -/
theorem onCmdWrite_eq (q : Port) (c : CmdWord) :
    q.onCmdWrite c =
      if q.phase = .idle then
        { q with
          lcw := c
          lop := q.op
          phase := .issued
          status := { q.status with busy := true, waiting := false } }
      else { q with status := { q.status with overrun := true } } := rfl

/-- A STATUS write changes OVERRUN alone, and bit 3 of the value alone decides (R29). -/
theorem onHostWrite_eq (st : Status) (v : Word) :
    st.onHostWrite v = { st with overrun := st.overrun && !v.getLsbD 3 } := by
  unfold Status.onHostWrite
  cases v.getLsbD 3 <;> simp

/-- Both widths of R65 are legal at the CMD register of a port that exists. -/
theorem accessLegal_cmd (s : State) {p w : Nat} (hw : w = 4 ∨ w = 8) (hp : p < s.ports.length)
    (hn : s.ports.length ≤ 16) : accessLegal s (0x1000 + 0x100 * p) w = true := by
  rcases hw with rfl | rfl
  · exact accessLegal_cmd4 s hp hn
  · exact accessLegal_register s (by omega) (by omega)

/-- The step that takes a host write to CMD of port p. -/
theorem step_cmdWrite {s : State} {p w : Nat} {v : Word} {rest : List Event} {q : Port}
    (h : s.agenda = .write (0x1000 + 0x100 * p) w v :: rest) (hw : w = 4 ∨ w = 8) (hq : s.ports[p]? = some q)
    (hn : s.ports.length ≤ 16) :
    step s = .next { s with agenda := rest, ports := s.ports.set p (q.onCmdWrite (v.setWidth 32)) } := by
  have hp : p < s.ports.length := (List.getElem?_eq_some_iff.1 hq).1
  rw [step_write h (accessLegal_cmd _ hw hp hn), targetOf_cmd hp hn, writeTarget]
  exact congrArg _ (updatePort_eq_set (s := { s with agenda := rest }) hq _)

/-- The step that takes a host write to STATUS of port p. -/
theorem step_statusWrite {s : State} {p : Nat} {v : Word} {rest : List Event} {q : Port}
    (h : s.agenda = .write (0x1000 + 0x100 * p + 0x08) 8 v :: rest) (hq : s.ports[p]? = some q)
    (hn : s.ports.length ≤ 16) :
    step s = .next { s with
      agenda := rest
      ports := s.ports.set p { q with status := q.status.onHostWrite v } } := by
  have hp : p < s.ports.length := (List.getElem?_eq_some_iff.1 hq).1
  rw [step_write h (accessLegal_register _ (by omega) (by omega)), targetOf_status hp hn, writeTarget]
  exact congrArg _ (updatePort_eq_set (s := { s with agenda := rest }) hq _)

/-- The step that takes a host read of CMD: the host gets 0, at either width. -/
theorem step_cmdRead {s : State} {p w : Nat} {rest : List Event}
    (h : s.agenda = .read (0x1000 + 0x100 * p) w :: rest) (hw : w = 4 ∨ w = 8) (hp : p < s.ports.length)
    (hn : s.ports.length ≤ 16) : step s = .next { s with agenda := rest, hostData := 0 } := by
  rw [step_read h (accessLegal_cmd _ hw hp hn), targetOf_cmd hp hn, readTarget]

/-- Settles O7: the write reaches port p's CMD, where `onCmdWrite` is R28's case split on IDLE. -/
theorem cmdWriteIssuesOrOverruns : Obligations.CmdWriteIssuesOrOverruns := by
  intro s p width v rest q h hw hq hn
  rw [step_cmdWrite h hw hq hn, onCmdWrite_eq]

/-- Settles O8: the one write to STATUS and the two reads of CMD, each through the MMIO map. -/
theorem statusWriteClearsOverrunAndCmdReadsZero : Obligations.StatusWriteClearsOverrunAndCmdReadsZero := by
  intro s p v rest q hq hn
  have hp : p < s.ports.length := (List.getElem?_eq_some_iff.1 hq).1
  refine ⟨fun h => ?_, fun h => step_cmdRead h (.inr rfl) hp hn, fun h => step_cmdRead h (.inl rfl) hp hn⟩
  rw [step_statusWrite h hq hn, onHostWrite_eq]

end Sys2Proof.Machine
end

section
/-! PROOF. Accumulator monotonicity (10_state.md R32, 43_bitacc.md R178): what every command, and then every step of the
machine, keeps of an accumulator slot. -/

namespace Sys2Proof.Machine

/-! ### One slot -/

/-- What R32 allows to become of a LIVE slot a: it is CONSUMED, or it stays LIVE with its size and its set bits. -/
def BitsKept (a a' : AccSlot) : Prop :=
  a'.state = .consumed ∨
    a'.state = .live ∧ a'.nbytes = a.nbytes ∧ ∀ b, bitAt a.bytes b = true → bitAt a'.bytes b = true

theorem BitsKept.refl {a : AccSlot} (h : a.state = .live) : BitsKept a a := .inr ⟨h, rfl, fun _ => id⟩

theorem bitsKept_orBit {a : AccSlot} (h : a.state = .live) (n : Nat) :
    BitsKept a { a with bytes := orBit a.bytes n } :=
  .inr ⟨h, orBit_length _ _, fun b hb => by simp [bitAt_orBit, hb]⟩

theorem bitsKept_orBits {a : AccSlot} (h : a.state = .live) (val n w : Nat) :
    BitsKept a { a with bytes := orBits a.bytes val n w } :=
  .inr ⟨h, orBits_length _ _ _ _, fun b hb => by simp [bitAt_orBits, hb]⟩

theorem bitsKept_orBytes {a : AccSlot} (h : a.state = .live) {bs : List Byte} (hl : a.bytes.length = bs.length) :
    BitsKept a { a with bytes := orBytes a.bytes bs } :=
  .inr ⟨h, orBytes_length _ _ hl, fun b hb => by simp [bitAt_orBytes _ _ hl, hb]⟩

theorem bitsKept_consumed (a : AccSlot) : BitsKept a { a with state := .consumed } := .inl rfl

/-! ### One slot of the machine -/

/-- From s to t, slot k keeps what R32 promises of it if it is LIVE. -/
def KeepsAcc (k : Nat) (s t : State) : Prop :=
  ∀ a, s.accs[k]? = some a → a.state = .live → ∃ a', t.accs[k]? = some a' ∧ BitsKept a a'

variable {k : Nat} {s t : State}

theorem KeepsAcc.of_accs_eq (h : t.accs = s.accs) : KeepsAcc k s t :=
  fun a ha hl => ⟨a, by rw [h, ha], .refl hl⟩

/-- A write to another slot. -/
theorem KeepsAcc.of_set_ne {j : Nat} {x : AccSlot} (h : t.accs = s.accs.set j x) (hj : j ≠ k) : KeepsAcc k s t :=
  fun a ha hl => ⟨a, by rw [h, List.getElem?_set_ne hj, ha], .refl hl⟩

/-- A write that keeps the bits of the slot it replaces, whichever slot that is. -/
theorem KeepsAcc.of_set {j : Nat} {x x' : AccSlot} (hx : s.accs[j]? = some x) (h : t.accs = s.accs.set j x')
    (hb : BitsKept x x') : KeepsAcc k s t := by
  by_cases hj : j = k
  · subst hj
    intro a ha _
    obtain rfl : x = a := Option.some.inj (hx.symm.trans ha)
    have hlt : j < s.accs.length := (List.getElem?_eq_some_iff.1 hx).1
    exact ⟨x', by rw [h, List.getElem?_set_self hlt], hb⟩
  · exact .of_set_ne h hj

/-! ### One command -/

/-- Whatever next state the outcome answers, slot k is kept. -/
def AnswersKeepAcc (k : Nat) (s : State) (o : Host.Outcome State Fault Refusal) : Prop :=
  ∀ t, o = .next t → KeepsAcc k s t

theorem AnswersKeepAcc.next (h : KeepsAcc k s t) : AnswersKeepAcc k s (.next t) := by
  rintro _ ⟨⟩
  exact h

/-- A next state with the accumulators of s. -/
theorem AnswersKeepAcc.same (h : t.accs = s.accs) : AnswersKeepAcc k s (.next t) := .next (.of_accs_eq h)

theorem AnswersKeepAcc.fail {e : ErrCode} : AnswersKeepAcc k s (failWith s e) := .same rfl

theorem AnswersKeepAcc.done {r : Bool} {a b : Nat} : AnswersKeepAcc k s (done s r a b) := .same rfl

theorem AnswersKeepAcc.checked {o : Host.Outcome State Fault Refusal} (h : AnswersKeepAcc k s o) :
    AnswersKeepAcc k s (checked s o) := by
  rcases checked_cases s o with ⟨-, e⟩ | ⟨-, e⟩
  · rw [e]; exact .fail
  · rwa [e]

theorem AnswersKeepAcc.descriptor {d : DType} {f : Descriptor → Host.Outcome State Fault Refusal}
    (h : ∀ D, AnswersKeepAcc k s (f D)) : AnswersKeepAcc k s (withDescriptor s d f) := by
  rcases withDescriptor_cases s d f with ⟨-, e⟩ | ⟨-, e⟩
  · rw [e]; exact .fail
  · rw [e]; exact h _

theorem AnswersKeepAcc.withAcc {j : Nat} {f : AccSlot → Host.Outcome State Fault Refusal}
    (h : ∀ a, s.accs[j]? = some a → a.state = .live → AnswersKeepAcc k s (f a)) :
    AnswersKeepAcc k s (withAcc s j f) := by
  rcases withAcc_cases s j f with ⟨-, e⟩ | ⟨a, ha, hl, e⟩
  · rw [e]; exact .fail
  · rw [e]; exact h a ha hl

theorem AnswersKeepAcc.withTv {j : Nat} {f : TvSlot → Host.Outcome State Fault Refusal}
    (h : ∀ v, AnswersKeepAcc k s (f v)) : AnswersKeepAcc k s (withTv s j f) := by
  rcases withTv_cases s j f with ⟨-, e⟩ | ⟨v, -, -, e⟩
  · rw [e]; exact .fail
  · rw [e]; exact h v

theorem AnswersKeepAcc.shapeLoad {addr rank : Nat} {f : List Nat → Host.Outcome State Fault Refusal}
    (h : ∀ sh, AnswersKeepAcc k s (f sh)) : AnswersKeepAcc k s (shapeLoad s addr rank f) := by
  rcases shapeLoad_cases s addr rank f with ⟨e, -, h'⟩ | ⟨-, -, -, -, h'⟩
  · rw [h']; exact .fail
  · rw [h']; exact h _

/-- One check of a command that raises an error when its condition holds. -/
theorem AnswersKeepAcc.orError {c : Prop} [Decidable c] {e : ErrCode} {o : Host.Outcome State Fault Refusal}
    (h : ¬ c → AnswersKeepAcc k s o) : AnswersKeepAcc k s (if c then failWith s e else o) := by
  split
  · exact .fail
  · exact h ‹_›

/-- One check of a command that goes on only when its condition holds. -/
theorem AnswersKeepAcc.elseError {c : Prop} [Decidable c] {e : ErrCode} {o : Host.Outcome State Fault Refusal}
    (h : AnswersKeepAcc k s o) : AnswersKeepAcc k s (if c then o else failWith s e) := by
  split
  · exact h
  · exact .fail

/-- ACC_NEW writes no slot but the one it names. -/
theorem execAccNew_keepsAcc (h : s.lop.op0.toNat ≠ k) : AnswersKeepAcc k s (execAccNew s) := by
  refine .checked ?_
  unfold withAccSlot
  split
  · exact .fail
  · exact .orError fun _ => .next (.of_set_ne rfl h)

theorem execAccSetbit_keepsAcc : AnswersKeepAcc k s (execAccSetbit s) :=
  .checked <| .withAcc fun _ ha hl => .next (.of_set ha rfl (bitsKept_orBit hl _))

theorem execAccSetbits_keepsAcc : AnswersKeepAcc k s (execAccSetbits s) :=
  .checked <| .withAcc fun _ ha hl => .elseError <| .next (.of_set ha rfl (bitsKept_orBits hl _ _ _))

theorem execAccOrmerge_keepsAcc : AnswersKeepAcc k s (execAccOrmerge s) :=
  .checked <| .withAcc fun _ ha hl => .withAcc fun _ _ _ => .orError fun hlen =>
    .next (.of_set ha rfl (bitsKept_orBytes hl (not_not.1 hlen)))

theorem execAccTobytes_keepsAcc : AnswersKeepAcc k s (execAccTobytes s) :=
  .checked <| .withAcc fun a ha _ => .orError fun _ => .next (.of_set ha rfl (bitsKept_consumed a))

theorem execAccBitstr_keepsAcc : AnswersKeepAcc k s (execAccBitstr s) :=
  .checked <| .withAcc fun _ _ _ => .orError fun _ => .same rfl

theorem execPack_keepsAcc (fmt : LaneFmt) (d : DType) : AnswersKeepAcc k s (execPack fmt d s) :=
  .checked <| .descriptor fun _ => .orError fun _ => .orError fun _ => .orError fun _ => .same rfl

theorem execUnpack_keepsAcc (d : DType) : AnswersKeepAcc k s (execUnpack d s) :=
  .checked <| .descriptor fun _ => .orError fun _ => .orError fun _ => .orError fun _ =>
    .orError fun _ => .orError fun _ => .orError fun _ => .same rfl

theorem execTvNew_keepsAcc : AnswersKeepAcc k s (execTvNew s) := by
  refine .checked ?_
  unfold withTvSlot
  split
  · exact .fail
  · exact .shapeLoad fun _ => .orError fun _ => .orError fun _ => .same rfl

theorem execTvSetshape_keepsAcc : AnswersKeepAcc k s (execTvSetshape s) :=
  .checked <| .withTv fun _ => .shapeLoad fun _ => .orError fun _ => .same rfl

theorem execRbNew_keepsAcc : AnswersKeepAcc k s (execRbNew s) := by
  refine .checked ?_
  dsimp only
  split
  · exact .fail
  · exact .orError fun _ => .orError fun _ => .orError fun _ => .orError fun _ => .orError fun _ => .same rfl

/-- An atomic command keeps every slot but the one an ACC_NEW names. -/
theorem exec_atomic_keepsAcc {i : Instr} (hi : atomicCommand i = true)
    (hn : i = .accNew → s.lop.op0.toNat ≠ k) : AnswersKeepAcc k s (exec i s) := by
  cases i with
  | dtInfo d => exact .checked <| .descriptor fun _ => .done
  | dtRange d => exact .checked <| .descriptor fun _ => .done
  | dtReqelems d => exact .checked <| .descriptor fun _ => .elseError .done
  | pack fmt d => exact execPack_keepsAcc fmt d
  | unpack d => exact execUnpack_keepsAcc d
  | accNew => exact execAccNew_keepsAcc (hn rfl)
  | accSetbit => exact execAccSetbit_keepsAcc
  | accSetbits => exact execAccSetbits_keepsAcc
  | accOrmerge => exact execAccOrmerge_keepsAcc
  | accTobytes => exact execAccTobytes_keepsAcc
  | accBitstr => exact execAccBitstr_keepsAcc
  | tvNew => exact execTvNew_keepsAcc
  | tvSetshape => exact execTvSetshape_keepsAcc
  | tvNslices => exact .checked <| .withTv fun _ => .done
  | tvSlice => exact .checked <| .withTv fun _ => .orError fun _ => .done
  | tvStride => exact .checked <| .withTv fun _ => .orError fun _ => .done
  | rbNew => exact execRbNew_keepsAcc
  | _ => simp [atomicCommand] at hi

/-- The effect of a ring command leaves the accumulators and the model's record of the port as they were. -/
theorem effect_accs_cur {i : Instr} {op : RingOp} {blk : Bool} (hi : ringOpOf i = some (op, blk)) (s : State) (j : Nat)
    (r : RingSlot) : (op.effect s j r).accs = s.accs ∧ (op.effect s j r).cur = s.cur := by
  cases i <;> simp [ringOpOf] at hi <;> obtain ⟨rfl, rfl⟩ := hi
  case rbReadall =>
    simp only [readallOp]
    split <;> exact ⟨rfl, rfl⟩
  all_goals exact ⟨rfl, rfl⟩

/-- A step of a ring command leaves the accumulators and the model's record of the port as they were. -/
theorem ringStep_accs_cur {i : Instr} {op : RingOp} {blk : Bool} {j : Nat} (hi : ringOpOf i = some (op, blk))
    (h : RingStep op blk s j t) : t.accs = s.accs ∧ t.cur = s.cur := by
  cases h with
  | effect r => exact effect_accs_cur hi s j r
  | wake r => exact effect_accs_cur hi s j r
  | perform r => exact effect_accs_cur hi (s.setRing j { r with owner := none }) j { r with owner := none }
  | _ => exact ⟨rfl, rfl⟩

/-! ### One step of the machine -/

/-- A port's step leaves the model's record of the port as it was (log 19). -/
theorem portMove_cur (h : PortMove s t) : t.cur = s.cur := by
  cases h with
  | illegal => rfl
  | atomic i _ _ _ _ ht => cases ht <;> rfl
  | ring i op blk _ _ ho _ ht => exact (ringStep_accs_cur ho ht).2

/-- A port's step keeps every slot but the one an ACC_NEW names. -/
theorem portMove_keepsAcc (h : PortMove s t) (hn : decode s.port.lcw = .ok .accNew → s.lop.op0.toNat ≠ k) :
    KeepsAcc k s t := by
  cases h with
  | illegal => exact .of_accs_eq rfl
  | atomic i _ hd ha he _ => exact exec_atomic_keepsAcc ha (fun hi => hn (hi ▸ hd)) t he
  | ring i op blk _ _ ho _ ht => exact .of_accs_eq (ringStep_accs_cur ho ht).1

theorem writeTarget_accs (s : State) (x : Target) (w : Nat) (v : Word) : (writeTarget s x w v).accs = s.accs := by
  cases x <;> rfl

/-- A step that is no reset keeps every slot but the one an ACC_NEW of the port that moves names (R32). -/
theorem step_keepsAcc (h : step s = .next t) (hr : ∀ image rest, s.agenda ≠ .reset image :: rest)
    (hn : ∀ (p : Nat) (q : Port), Moves s t p q → decode q.lcw = .ok .accNew → q.lop.op0.toNat ≠ k) :
    KeepsAcc k s t := by
  cases step_move h with
  | ended => exact .of_accs_eq rfl
  | idle => exact .of_accs_eq rfl
  | port p rest j q _ ha hq hp hm =>
    have hmoves : Moves s t p q :=
      ⟨hq, hp, portMove_cur hm, ha.symm.imp And.left fun ⟨e, _⟩ => ⟨rest, e⟩⟩
    have hport : ({ s with agenda := rest, tick := j, cur := p } : State).port = q := port_of_getElem? hq
    refine portMove_keepsAcc (s := { s with agenda := rest, tick := j, cur := p }) hm fun hd => ?_
    rw [State.lop, hport]
    exact hn p q hmoves (hport ▸ hd)
  | write o w v rest => exact .of_accs_eq (writeTarget_accs _ _ _ _)
  | read => exact .of_accs_eq rfl
  | reset image rest ha => exact absurd ha (hr image rest)

/-- Settles O45: `step_keepsAcc` at the bit b. -/
theorem accumulatorBitsNeverClear : Obligations.AccumulatorBitsNeverClear := by
  intro s t k b a h hr hn ha hl hb
  obtain ⟨a', ha', hk⟩ := step_keepsAcc h hr hn a ha hl
  exact ⟨a', ha', hk.imp_right fun ⟨hlive, hlen, hbits⟩ => ⟨hlive, hlen, hbits b hb⟩⟩

end Sys2Proof.Machine
end

section
/-! PROOF. Conversion of a real to an integer (42_codec.md R133, R137): the model's `truncVal` is the only integer that
truncates the real toward zero, and `convScaled` answers it exactly in the range of R137. -/

namespace Sys2Proof.Machine

/-! ### Truncation toward zero over the rationals -/

/-- t is r truncated toward zero, as R13 says it of the real: no farther from zero, by less than 1, on the same side. -/
def TruncatesTo (r : ℚ) (t : Int) : Prop := |(t : ℚ)| ≤ |r| ∧ |r| < |(t : ℚ)| + 1 ∧ 0 ≤ r * t

theorem truncatesTo_neg {r : ℚ} {t : Int} : TruncatesTo (-r) t ↔ TruncatesTo r (-t) := by
  simp [TruncatesTo]

theorem TruncatesTo.nonneg {r : ℚ} {t : Int} (h : TruncatesTo r t) (hr : 0 ≤ r) : 0 ≤ t := by
  obtain ⟨hle, -, hside⟩ := h
  by_contra! ht
  have ht' : (t : ℚ) < 0 := by exact_mod_cast ht
  have hpos : 0 < r := by
    rw [abs_of_nonneg hr] at hle
    exact (abs_pos.2 ht'.ne).trans_le hle
  exact (mul_neg_of_pos_of_neg hpos ht').not_ge hside

theorem truncatesTo_iff_floor {r : ℚ} {t : Int} (hr : 0 ≤ r) : TruncatesTo r t ↔ t = (⌊r⌋₊ : Int) := by
  have natural (n : Nat) : TruncatesTo r n ↔ ⌊r⌋₊ = n := by
    have hside : 0 ≤ r * (n : ℚ) := mul_nonneg hr n.cast_nonneg
    simp [TruncatesTo, Nat.floor_eq_iff hr, abs_of_nonneg hr, hside]
  constructor
  · intro h
    lift t to ℕ using h.nonneg hr
    rw [(natural t).1 h]
  · rintro rfl
    exact (natural _).2 rfl

/-! ### The model's truncation -/

theorem truncMag_eq_floor (mag : Nat) (e : Int) : truncMag mag e = ⌊(mag : ℚ) * 2 ^ e⌋₊ := by
  unfold truncMag
  split
  case isTrue he =>
    lift e to ℕ using he
    rw [Int.toNat_natCast, zpow_natCast]
    exact_mod_cast (Nat.floor_natCast (R := ℚ) (mag * 2 ^ e)).symm
  case isFalse he =>
    obtain ⟨n, rfl⟩ : ∃ n : Nat, e = -n := ⟨(-e).toNat, by omega⟩
    rw [neg_neg, Int.toNat_natCast, zpow_neg, zpow_natCast, ← div_eq_mul_inv]
    exact_mod_cast (Nat.floor_div_eq_div (K := ℚ) mag (2 ^ n)).symm

/-- `truncVal` is the truncation of the pattern's value, and the only one (R13). -/
theorem truncatesTo_iff_truncVal (neg : Bool) (mag : Nat) (e t : Int) :
    TruncatesTo ((if neg then -1 else 1) * mag * 2 ^ e) t ↔ t = truncVal neg mag e := by
  have hmag : (0 : ℚ) ≤ mag * 2 ^ e := by positivity
  cases neg with
  | false => simp [truncVal, truncMag_eq_floor, truncatesTo_iff_floor hmag]
  | true => simp [truncVal, truncMag_eq_floor, truncatesTo_neg, truncatesTo_iff_floor hmag, neg_eq_iff_eq_neg]

/-! ### Conversion -/

theorem convScaled_fin_eq_some_iff {f : Nat} {neg : Bool} {mag : Nat} {exp t : Int} :
    convScaled f (.fin neg mag exp) = some t ↔ t = truncVal neg mag (exp + f) ∧ -2 ^ 63 ≤ t ∧ t < 2 ^ 64 := by
  simp only [convScaled, Option.ite_none_right_eq_some, Option.some.injEq]
  constructor
  · rintro ⟨hrange, rfl⟩
    exact ⟨rfl, hrange⟩
  · rintro ⟨rfl, hrange⟩
    exact ⟨hrange, rfl⟩

theorem convScaled_fin_eq_none_iff {f : Nat} {neg : Bool} {mag : Nat} {exp : Int} :
    convScaled f (.fin neg mag exp) = none ↔
      truncVal neg mag (exp + f) < -2 ^ 63 ∨ 2 ^ 64 ≤ truncVal neg mag (exp + f) := by
  simp only [convScaled, ite_eq_right_iff, reduceCtorEq, imp_false]
  omega

/-- A zero of either sign converts to 0, -0.0 among them (R137). -/
theorem convScaled_zero (f : Nat) (neg : Bool) (exp : Int) : convScaled f (.fin neg 0 exp) = some 0 := by
  have hzero : truncVal neg 0 (exp + f) = 0 := by cases neg <;> simp [truncVal, truncMag]
  exact convScaled_fin_eq_some_iff.2 ⟨hzero.symm, by decide⟩

/-- Settles O31: what `convScaled` answers is told by `truncVal`, the one integer that truncates the scaled real. -/
theorem conversionTruncatesOrDraws : Obligations.ConversionTruncatesOrDraws := by
  intro f
  refine ⟨rfl, fun _ => rfl, convScaled_zero f true, fun neg mag exp => ?_⟩
  have htrunc := truncatesTo_iff_truncVal neg mag (exp + f)
  refine ⟨fun t => ?_, ?_⟩
  · rw [convScaled_fin_eq_some_iff, ← htrunc t, TruncatesTo, and_assoc, and_assoc]
  · rw [convScaled_fin_eq_none_iff]
    constructor
    · exact fun hout => ⟨_, (htrunc _).2 rfl, hout⟩
    · rintro ⟨t, ht, hout⟩
      rwa [← (htrunc t).1 ht]

end Sys2Proof.Machine
end

section
/-! PROOF. The slices of a view (44_tensorview.md R196) and its stride table (10_state.md R34). -/

namespace Sys2Proof.Machine

/-! ### Division into blocks -/

/-- Block i of length n from a on holds x exactly if i is the quotient of x's offset by n. -/
theorem mem_block_iff {a n x i : Nat} (hn : 0 < n) (hx : a ≤ x) :
    a + i * n ≤ x ∧ x < a + i * n + n ↔ (x - a) / n = i := by
  rw [Nat.div_eq_iff hn]
  omega

/-- m blocks of length n fill [a, b) when their lengths add up to b - a. -/
theorem existsUnique_block {a b m n x : Nat} (hn : 0 < n) (hlen : m * n = b - a) (hx : a ≤ x) (hxb : x < b) :
    ∃! i, i < m ∧ a + i * n ≤ x ∧ x < a + i * n + n := by
  simp only [mem_block_iff hn hx]
  have hquot : (x - a) / n < m := (Nat.div_lt_iff_lt_mul hn).2 (by omega)
  exact ⟨(x - a) / n, ⟨hquot, rfl⟩, fun i ⟨_, hi⟩ => hi.symm⟩

/-- The last of the m blocks ends by b. -/
theorem block_end_le {a b m n i : Nat} (hab : a ≤ b) (hlen : m * n = b - a) (hi : i < m) :
    a + i * n + n ≤ b := by
  have hmul : (i + 1) * n ≤ m * n := Nat.mul_le_mul_right n hi
  rw [Nat.succ_mul] at hmul
  omega

/-! ### The slices of a view -/

theorem TvSlot.inner_pos {v : TvSlot} (hne : v.shape ≠ []) (hpos : ∀ d ∈ v.shape, 1 ≤ d) : 0 < v.inner := by
  rw [TvSlot.inner, List.getLastD_eq_getLast?, List.getLast?_eq_getLast_of_ne_nil hne]
  exact hpos _ (List.getLast_mem hne)

/-- The innermost dimension divides the range, so no element is left over (R196). -/
theorem TvSlot.nslices_mul_inner {v : TvSlot} (hne : v.shape ≠ []) (hprod : dimProduct v.shape = v.extent) :
    v.nslices * v.inner = v.extent :=
  Nat.div_mul_cancel (Dvd.intro_left _ ((dimProduct_inner hne).symm.trans hprod))

/-! ### The stride table -/

theorem dimProduct_drop {sh : List Nat} {i : Nat} (h : i < sh.length) :
    dimProduct (sh.drop i) = dimProduct (sh.drop (i + 1)) * sh.getD i 0 := by
  rw [List.drop_eq_getElem_cons h, dimProduct_cons, List.getD_eq_getElem _ _ h, Nat.mul_comm]

theorem getD_strides_innermost {sh : List Nat} (h : sh ≠ []) : (strides sh).getD (sh.length - 1) 0 = 1 := by
  have hlen := List.length_pos_of_ne_nil h
  rw [getD_strides sh _ (by omega), Nat.sub_add_cancel hlen, List.drop_length, dimProduct_nil]

theorem getD_strides_outermost {sh : List Nat} (h : sh ≠ []) :
    (strides sh).getD 0 0 * sh.getD 0 0 = dimProduct sh := by
  have hlen := List.length_pos_of_ne_nil h
  rw [getD_strides sh 0 hlen, ← dimProduct_drop hlen, List.drop_zero]

/-- Each stride is the next one in times the dimension there (R34). -/
theorem getD_strides_succ {sh : List Nat} {i : Nat} (h : i + 1 < sh.length) :
    (strides sh).getD i 0 = (strides sh).getD (i + 1) 0 * sh.getD (i + 1) 0 := by
  rw [getD_strides sh i (by omega), getD_strides sh (i + 1) h, dimProduct_drop h]

/-- Settles O49: the innermost dimension divides the range, so the slices are the blocks of division by it, and a
stride is a product of the dimensions inside it. -/
theorem slicesTileTheView : Obligations.SlicesTileTheView := by
  intro p v hok hlive
  obtain ⟨hne, -, hpos, hle, hprod, hstride⟩ := hok hlive
  have hlen : v.nslices * v.inner = v.last.toNat - v.first.toNat := TvSlot.nslices_mul_inner hne hprod
  rw [hstride, ← hprod]
  exact ⟨hlen.trans hprod.symm, fun x => existsUnique_block (TvSlot.inner_pos hne hpos) hlen,
    fun i => block_end_le hle hlen, getD_strides_innermost hne, getD_strides_outermost hne,
    fun i => getD_strides_succ⟩

end Sys2Proof.Machine
end

section
/-! PROOF. The checks before a ring command starts (45_ringbuffer.md R212, R214, R215): the slot check, then the `pre` of
the command, both ahead of the case split on the ring's mode. -/

namespace Sys2Proof.Machine

/-! ### The slot check (R212) -/

section SlotCheck

variable {s : State} {k : Nat} {f : RingSlot → Host.Outcome State Fault Refusal}

/-- A slot index out of range, or a FREE slot. -/
theorem withRing_free (h : ∀ r, s.rbs[k]? = some r → r.state = .free) :
    withRing s k f = .next (s.raiseError .slot) := by
  rcases withRing_cases s k f with ⟨-, e⟩ | ⟨r, hr, hp, -⟩ | ⟨r, hr, hl, -⟩
  · exact e
  · cases hp.symm.trans (h r hr)
  · cases hl.symm.trans (h r hr)

theorem withRing_poisoned {r : RingSlot} (h : s.rbs[k]? = some r) (hp : r.state = .poisoned) :
    withRing s k f = .next (s.raiseError .race) := by
  simp [withRing, failWith, h, hp]

end SlotCheck

/-! ### The first step of a ring command -/

section FirstStep

variable {s : State} {op : RingOp} {blk : Bool}

/-- An ISSUED ring command with CFGERR 0 is the slot check followed by a step that ends with the error of `pre`, if it
has one, in either mode and whoever owns the ring. -/
theorem ringStep_issued (op : RingOp) (blk : Bool) (hs : Issued s) :
    ∃ f, ringStep op blk s = withRing s s.lop.op0.toNat f ∧
      ∀ r e, op.pre s r = some e → f r = .next (s.raiseError e) := by
  rw [ringStep, hs.phase]
  refine ⟨_, checked_of_littleEndian hs.littleEndian, fun r e he => ?_⟩
  simp only [he, failWith]

theorem ringStep_free (hs : Issued s) (h : ∀ r, s.rbs[s.lop.op0.toNat]? = some r → r.state = .free) :
    ringStep op blk s = .next (s.raiseError .slot) := by
  obtain ⟨f, hstep, -⟩ := ringStep_issued op blk hs
  exact hstep.trans (withRing_free h)

theorem ringStep_poisoned {r : RingSlot} (hs : Issued s) (h : s.rbs[s.lop.op0.toNat]? = some r)
    (hp : r.state = .poisoned) : ringStep op blk s = .next (s.raiseError .race) := by
  obtain ⟨f, hstep, -⟩ := ringStep_issued op blk hs
  exact hstep.trans (withRing_poisoned h hp)

theorem ringStep_preError {r : RingSlot} {e : ErrCode} (hs : Issued s) (h : s.rbs[s.lop.op0.toNat]? = some r)
    (hl : r.state = .live) (he : op.pre s r = some e) : ringStep op blk s = .next (s.raiseError e) := by
  obtain ⟨f, hstep, hpre⟩ := ringStep_issued op blk hs
  exact hstep.trans ((withRing_live h hl f).trans (hpre r e he))

end FirstStep

/-! ### The checks of RB_STORE and RB_READ (R214, R215) -/

section Pre

variable {s : State} {r : RingSlot}

theorem storeOp_pre_shape (h : s.lop.op2.toNat % r.epp ≠ 0 ∨ r.cap < s.lop.op2.toNat) :
    storeOp.pre s r = some .shape := by
  by_cases hpart : s.lop.op2.toNat % r.epp = 0
  · simp [storeOp, hpart, h.resolve_left (not_not.2 hpart)]
  · simp [storeOp, hpart]

theorem storeOp_pre_addr (hpart : s.lop.op2.toNat % r.epp = 0) (hcap : s.lop.op2.toNat ≤ r.cap)
    (hrange : s.cfg.dmemBytes < s.lop.op1.toNat + s.lop.op2.toNat * r.ebytes) :
    storeOp.pre s r = some .addr := by
  simp [storeOp, hpart, hcap.not_gt, hrange]

theorem readOp_pre_addr (hrange : s.cfg.dmemBytes < s.lop.op1.toNat + r.epp * r.ebytes) :
    readOp.pre s r = some .addr := by
  simp [readOp, hrange]

end Pre

/-- Settles O55: all six commands are one `ringStep`, which makes the slot check whatever its parts; then come the
errors of RB_STORE's and RB_READ's `pre`. -/
theorem ringCommandsCheckFirst : Obligations.RingCommandsCheckFirst := by
  intro s blk hs
  refine ⟨fun i hi => ?slot, fun r hr hl => ⟨fun h => ?shape, fun hpart hcap hrange => ?store, fun hrange => ?read⟩⟩
  case slot =>
    have hring : ∃ op b, ringOpOf i = some (op, b) := by
      simp only [List.mem_cons, List.not_mem_nil, or_false] at hi
      rcases hi with rfl | rfl | rfl | rfl | rfl | rfl <;> exact ⟨_, _, rfl⟩
    obtain ⟨op, b, hop⟩ := hring
    rw [exec_ring hop]
    exact ⟨ringStep_free hs, fun r => ringStep_poisoned hs⟩
  case shape => exact ringStep_preError hs hr hl (storeOp_pre_shape h)
  case store => exact ringStep_preError hs hr hl (storeOp_pre_addr hpart hcap hrange)
  case read => exact ringStep_preError hs hr hl (readOp_pre_addr hrange)

end Sys2Proof.Machine
end

section
/-! PROOF. The HOST_LE strap and CFGERR (70_reset_and_hazards.md R281): reset samples the strap, and the common check
(60_exceptions.md R252) stands in front of everything else a command does in its first step. -/

namespace Sys2Proof.Machine

variable {s : State}

/-! ### Reset samples the strap -/

/-- The step that takes a reset event (R280). -/
theorem step_reset {image : List Host.Cell} {rest : List Event} (h : s.agenda = .reset image :: rest) :
    step s = .next (resetMachine { s with agenda := rest } image) := by
  unfold step nextStep
  rw [h]
  rfl

theorem resetMachine_cfgerr (s : State) (image : List Host.Cell) :
    (resetMachine s image).gstatus.cfgerr = !s.cfg.hostLe := rfl

/-! ### The common check comes first -/

/-- An atomic command makes the common check first, whatever its port's phase. -/
theorem exec_atomic_eq_checked {i : Instr} (hi : atomicCommand i = true) (s : State) :
    ∃ o, exec i s = checked s o := by
  cases i with
  | rbStore | rbRead | rbReadall | rbFull | rbEmpty | rbSize => simp [atomicCommand] at hi
  | _ => exact ⟨_, rfl⟩

/-- A ring transfer or query makes it in its first step, and in no later one (log 22). -/
theorem ringStep_issued_eq_checked (op : RingOp) (blk : Bool) (hp : s.port.phase = .issued) :
    ∃ o, ringStep op blk s = checked s o := by
  rw [ringStep, hp]
  exact ⟨_, rfl⟩

theorem exec_issued_eq_checked (i : Instr) (hp : s.port.phase = .issued) : ∃ o, exec i s = checked s o := by
  rcases atomic_or_ring i with ha | ⟨op, blk, ho⟩
  · exact exec_atomic_eq_checked ha s
  · rw [exec_ring ho]
    exact ringStep_issued_eq_checked op blk hp

/-- An ILLEGAL word meets the common check too, ahead of its own error (R90, R252). -/
theorem runPort_issued_eq_checked (hp : s.port.phase = .issued) : ∃ o, runPort s = checked s o := by
  unfold runPort
  cases decode s.port.lcw with
  | ok i => exact exec_issued_eq_checked i hp
  | error e => exact ⟨_, rfl⟩

/-! ### Commands under CFGERR -/

theorem exec_of_cfgerr (i : Instr) (hc : s.gstatus.cfgerr = true) (hp : s.port.phase = .issued) :
    exec i s = .next (s.raiseError .config) := by
  obtain ⟨o, ho⟩ := exec_issued_eq_checked i hp
  rw [ho, checked_of_cfgerr hc]

theorem runPort_of_cfgerr (hc : s.gstatus.cfgerr = true) (hp : s.port.phase = .issued) :
    runPort s = .next (s.raiseError .config) := by
  obtain ⟨o, ho⟩ := runPort_issued_eq_checked hp
  rw [ho, checked_of_cfgerr hc]

/-- The step of a port that holds a command runs it with the port as `cur`. -/
theorem portStep_of_phase_ne_idle {p : Nat} {q : Port} (hq : s.ports[p]? = some q) (hp : q.phase ≠ .idle) :
    portStep p s = runPort { s with cur := p } := by
  simp only [portStep, hq, if_neg hp]

theorem portStep_of_cfgerr {p : Nat} {q : Port} (hc : s.gstatus.cfgerr = true) (hq : s.ports[p]? = some q)
    (hp : q.phase = .issued) : portStep p s = .next (({ s with cur := p } : State).raiseError .config) := by
  have hport : ({ s with cur := p } : State).port = q := port_of_getElem? hq
  rw [portStep_of_phase_ne_idle hq (by simp [hp])]
  exact runPort_of_cfgerr hc (hport ▸ hp)

/-- Settles O16: reset samples the strap; then the common check, which comes first for every word, answers CONFIG. -/
theorem bigEndianHostGetsConfigFromEveryCommand : Obligations.BigEndianHostGetsConfigFromEveryCommand := by
  refine ⟨fun s t image rest h hstep => ?_, fun s i => exec_of_cfgerr i, fun s p rest q hc h hq hp => ?_⟩
  · obtain rfl : resetMachine { s with agenda := rest } image = t := by simpa [step_reset h] using hstep
    exact resetMachine_cfgerr _ _
  · rw [step_port h]
    exact portStep_of_cfgerr (s := { s with agenda := rest }) hc hq hp

end Sys2Proof.Machine
end

section
/-! PROOF. The machine's invariant (00_scope.md R8, 10_state.md R20 to R36, 45_ringbuffer.md R240): every change of one
piece of the state keeps it, so every command does, and so does every step. -/

namespace Sys2Proof.Machine

variable {s t : State}

/-! ### The state after reset -/

theorem portOk_reset : PortOk Port.reset := by simp [PortOk, Port.reset, Status.reset]

theorem accOk_reset (p : Config.Params) : AccOk p AccSlot.reset := by simp [AccOk, AccSlot.reset, AccSlot.nbytes]

theorem tvOk_reset (p : Config.Params) : TvOk p TvSlot.reset := by simp [TvOk, TvSlot.reset]

theorem ringOk_reset (p : Config.Params) : RingOk p RingSlot.reset := by simp [RingOk, RingSlot.reset]

theorem mem_resetOf_ports {p : Config.Params} {m : Memory} {j : Nat} {q : Port}
    (h : (State.resetOf p m).ports[j]? = some q) : q = Port.reset :=
  List.eq_of_mem_replicate (List.mem_of_getElem? h)

/-- A machine with parameters of R8, launched with a canonical image of its own DMEM. -/
theorem inv_resetOf {p : Config.Params} {m : Memory} (hp : p.Legal) (hw : m.wf) (hb : m.below p.dmemBytes) :
    Inv (State.resetOf p m) where
  legal := hp
  cfgerr := rfl
  nports := List.length_replicate
  nacc := List.length_replicate
  ntv := List.length_replicate
  nrb := List.length_replicate
  memWf := hw
  memIn := hb
  ports _ hq := List.eq_of_mem_replicate hq ▸ portOk_reset
  accs _ ha := List.eq_of_mem_replicate ha ▸ accOk_reset p
  tvs _ hv := List.eq_of_mem_replicate hv ▸ tvOk_reset p
  rings _ hr := List.eq_of_mem_replicate hr ▸ ringOk_reset p
  flight j q hq hph := by
    rw [mem_resetOf_ports hq] at hph
    simp [Port.reset] at hph

/-! ### The model's own fields -/

/-- The invariant reads none of the model's own fields. -/
theorem Inv.of_own (h : Inv s) (cur tick draws : Nat) (agenda : List Event) (hostData : Word) :
    Inv { s with cur := cur, tick := tick, draws := draws, agenda := agenda, hostData := hostData } :=
  ⟨h.legal, h.cfgerr, h.nports, h.nacc, h.ntv, h.nrb, h.memWf, h.memIn, h.ports, h.accs, h.tvs, h.rings, h.flight⟩

/-! ### One slot, or DMEM -/

theorem Inv.setMem (h : Inv s) {m : Memory} (hw : m.wf) (hb : m.below s.cfg.dmemBytes) : Inv (s.setMem m) :=
  ⟨h.legal, h.cfgerr, h.nports, h.nacc, h.ntv, h.nrb, hw, hb, h.ports, h.accs, h.tvs, h.rings, h.flight⟩

theorem Inv.setFault (h : Inv s) : Inv s.setFault :=
  ⟨h.legal, h.cfgerr, h.nports, h.nacc, h.ntv, h.nrb, h.memWf, h.memIn, h.ports, h.accs, h.tvs, h.rings, h.flight⟩

/-- What holds of every element of a list and of a new one holds after the new one replaces one of them. -/
theorem forall_mem_set {α : Type} {P : α → Prop} {l : List α} {k : Nat} {x : α} (h : ∀ y ∈ l, P y) (hx : P x) :
    ∀ y ∈ l.set k x, P y := fun y hy => (List.mem_or_eq_of_mem_set hy).elim (h y) (· ▸ hx)

theorem Inv.setAcc (h : Inv s) (k : Nat) {a : AccSlot} (ha : AccOk s.cfg a) : Inv (s.setAcc k a) :=
  ⟨h.legal, h.cfgerr, h.nports, List.length_set.trans h.nacc, h.ntv, h.nrb, h.memWf, h.memIn, h.ports,
    forall_mem_set h.accs ha, h.tvs, h.rings, h.flight⟩

theorem Inv.setTv (h : Inv s) (k : Nat) {v : TvSlot} (hv : TvOk s.cfg v) : Inv (s.setTv k v) :=
  ⟨h.legal, h.cfgerr, h.nports, h.nacc, List.length_set.trans h.ntv, h.nrb, h.memWf, h.memIn, h.ports, h.accs,
    forall_mem_set h.tvs hv, h.rings, h.flight⟩

/-- Reading a list in which slot k, which held x, has been replaced. -/
theorem getElem?_set_of_some {α : Type} {l : List α} {j k : Nat} {x y : α} (h : l[k]? = some x) :
    (l.set k y)[j]? = if j = k then some y else l[j]? := by
  have hk : k < l.length := (List.getElem?_eq_some_iff.1 h).1
  by_cases hj : j = k
  · subst hj; simp [hk]
  · simp [hj, Ne.symm hj]

theorem getElem?_setRing_self {k : Nat} {r : RingSlot} (h : s.rbs[k]? = some r) (r' : RingSlot) :
    (s.setRing k r').rbs[k]? = some r' := by
  rw [setRing_rbs, getElem?_set_of_some h, if_pos rfl]

theorem getElem?_setRing_ne {j k : Nat} {r : RingSlot} (h : s.rbs[j]? = some r) (hne : j ≠ k) (r' : RingSlot) :
    (s.setRing k r').rbs[j]? = some r := by
  rw [setRing_rbs, List.getElem?_set_ne hne.symm, h]

/-- A command in flight survives a change of a ring that keeps a ring in use in use, with its parameters. -/
theorem FlightOk.setRing {p k : Nat} {q : Port} {r r' : RingSlot} (h : FlightOk s p q) (hr : s.rbs[k]? = some r)
    (hkeep : r.state ≠ .free → r'.state ≠ .free ∧ SameShape r r') : FlightOk (s.setRing k r') p q := by
  intro hph
  obtain ⟨i, x, hd, hx, hnf, hpre⟩ := h hph
  by_cases hk : q.lop.op0.toNat = k
  · subst hk
    obtain rfl : r = x := Option.some.inj (hr.symm.trans hx)
    obtain ⟨hnf', hshape⟩ := hkeep hnf
    exact ⟨i, r', hd, getElem?_setRing_self hr r', hnf',
      preHolds_congr rfl rfl hshape hpre⟩
  · exact ⟨i, x, hd, getElem?_setRing_ne hx hk r', hnf,
      preHolds_congr rfl rfl ⟨rfl, rfl, rfl⟩ hpre⟩

theorem Inv.setRing (h : Inv s) {k : Nat} {r r' : RingSlot} (hr : s.rbs[k]? = some r) (hok : RingOk s.cfg r')
    (hkeep : r.state ≠ .free → r'.state ≠ .free ∧ SameShape r r') : Inv (s.setRing k r') :=
  ⟨h.legal, h.cfgerr, h.nports, h.nacc, h.ntv, List.length_set.trans h.nrb, h.memWf, h.memIn, h.ports, h.accs, h.tvs,
    forall_mem_set h.rings hok, fun p q hq => (h.flight p q hq).setRing hr hkeep⟩

theorem Inv.ringOk (h : Inv s) {k : Nat} {r : RingSlot} (hr : s.rbs[k]? = some r) : RingOk s.cfg r :=
  h.rings r (List.mem_of_getElem? hr)

/-! ### The port being stepped -/

/-- The checks of a command see the operands of the port being stepped and the parameters, and nothing else of the
ports. -/
theorem FlightOk.of_ports {p : Nat} {q : Port} {l l' : List Port} (hl : l'[p]? = some q) (hl' : l[p]? = some q)
    (h : FlightOk { s with ports := l } p q) : FlightOk { s with ports := l' } p q := by
  intro hph
  obtain ⟨i, x, hd, hx, hnf, hpre⟩ := h hph
  refine ⟨i, x, hd, hx, hnf, preHolds_congr (s := { s with ports := l, cur := p }) ?_ rfl ⟨rfl, rfl, rfl⟩ hpre⟩
  exact (lop_at (s := { s with ports := l' }) hl).trans (lop_at (s := { s with ports := l }) hl').symm

/-- A port that is neither WAITING nor HELD has nothing to show. -/
theorem FlightOk.of_phase {p : Nat} {q : Port} (hw : q.phase ≠ .waiting) (hh : q.phase ≠ .held) : FlightOk s p q :=
  fun h => (h.elim hw hh).elim

/-- Replacing one port by an image that is as R26 and R232, R235 have it keeps the invariant. -/
theorem Inv.setPortAt (h : Inv s) (p : Nat) {q : Port} (hq : PortOk q)
    (hf : ∀ l : List Port, l[p]? = some q → FlightOk { s with ports := l } p q) :
    Inv { s with ports := s.ports.set p q } := by
  refine ⟨h.legal, h.cfgerr, List.length_set.trans h.nports, h.nacc, h.ntv, h.nrb, h.memWf, h.memIn,
    forall_mem_set h.ports hq, h.accs, h.tvs, h.rings, fun p' q' hq' => ?_⟩
  by_cases hp : p = p'
  · subst hp
    have hlt : p < s.ports.length := by
      simpa using (List.getElem?_eq_some_iff.1 hq').1
    obtain rfl : q = q' := by simpa [hlt] using hq'
    exact hf _ hq'
  · have hold : s.ports[p']? = some q' := by rwa [List.getElem?_set_ne hp] at hq'
    exact (h.flight p' q' hold).of_ports (l := s.ports) hq' hold

theorem Inv.complete (h : Inv s) (r : Bool) (a b : Nat) : Inv (s.complete r a b) :=
  h.setPortAt s.cur (by simp [PortOk, Status.onComplete]) fun _ _ => .of_phase (by simp) (by simp)

theorem Inv.raiseError (h : Inv s) (e : ErrCode) : Inv (s.raiseError e) :=
  h.setPortAt s.cur (by simp [PortOk, Status.onError]) fun _ _ => .of_phase (by simp) (by simp)

/-- A command stays in flight on a ring whose checks passed. -/
theorem Inv.enterPhase (h : Inv s) (hcur : s.cur < s.ports.length) (hph : s.port.phase ≠ .idle) {ph : Phase} {w : Bool}
    (hw : (ph = .waiting ∧ w = true) ∨ ph = .held) {i : Instr} {r : RingSlot} (hd : decode s.port.lcw = .ok i)
    (hr : s.rbs[s.lop.op0.toNat]? = some r) (hnf : r.state ≠ .free) (hpre : PreHolds i s r) :
    Inv (s.enterPhase ph w) := by
  have hbusy : s.port.status.busy = true := (h.ports _ (List.mem_of_getElem? (getElem?_cur hcur))).1.2 hph
  refine h.setPortAt s.cur ?_ fun l hl _ =>
    ⟨i, r, hd, hr, hnf,
      preHolds_congr (s := s) ((lop_at (s := { s with ports := l }) hl).trans rfl) rfl ⟨rfl, rfl, rfl⟩ hpre⟩
  rcases hw with ⟨rfl, rfl⟩ | rfl <;> simp [PortOk, Status.onWait, hbusy]

/-! ### Commands -/

/-- Each outcome of an atomic command keeps the invariant. -/
theorem AtomicStep.inv (h : Inv s) (ht : AtomicStep s t) : Inv t := by
  cases ht with
  | error e => exact h.raiseError e
  | query a b => exact h.complete true a b
  | memory m d a b hw hb =>
    exact ((h.setMem (hw h.memWf) (hb h.memIn)).of_own s.cur s.tick d s.agenda s.hostData).complete true a b
  | acc m k x a b hw hb hx => exact ((h.setMem (hw h.memWf) (hb h.memIn)).setAcc k (hx h.accs)).complete true a b
  | tv k v a b hv => exact (h.setTv k (hv h.tvs)).complete true a b
  | ring k r r' a b hr hf hok => exact (h.setRing hr hok fun hnf => (hnf hf).elim).complete true a b

/-- Each outcome of a ring command's effect keeps the invariant. -/
theorem Effect.inv {k : Nat} {r : RingSlot} (h : Inv s) (hr : s.rbs[k]? = some r) (ht : Effect s k r t) : Inv t := by
  cases ht with
  | error c => exact h.raiseError c
  | move m r' a b hw hb he =>
    exact ((h.setMem (hw h.memWf) (hb h.memIn)).setRing hr he.ok fun hnf => ⟨he.state ▸ hnf, he.shape⟩).complete true a b
  | answer a => exact h.complete true a 0

/-- The owner marker and the move from LIVE to POISONED are free for a ring that is in use. -/
theorem RingOk.mark {p : Config.Params} {r : RingSlot} (h : RingOk p r) (hnf : r.state ≠ .free) {st : RbState}
    {o : Option Nat} (hst : st ≠ .free) : RingOk p { r with state := st, owner := o } :=
  ⟨fun hf => (hst hf).elim, fun _ => h.2 hnf⟩

theorem Inv.markRing (h : Inv s) {k : Nat} {r : RingSlot} (hr : s.rbs[k]? = some r) (hnf : r.state ≠ .free)
    {st : RbState} (o : Option Nat) (hst : st ≠ .free) : Inv (s.setRing k { r with state := st, owner := o }) :=
  h.setRing hr ((h.ringOk hr).mark hnf hst) fun _ => ⟨hst, rfl, rfl, rfl⟩

/-- A port in flight holds a ring command whose checks passed on a ring in use (R232, R235). -/
theorem Inv.flight_cur (h : Inv s) (hcur : s.cur < s.ports.length) {i : Instr} (hd : decode s.port.lcw = .ok i)
    (hph : s.port.phase = .waiting ∨ s.port.phase = .held) :
    ∃ r, s.rbs[s.lop.op0.toNat]? = some r ∧ r.state ≠ .free ∧ PreHolds i s r := by
  obtain ⟨i', r, hd', hr, hnf, hpre⟩ := h.flight s.cur _ (getElem?_cur hcur) hph
  cases hd'.symm.trans hd
  exact ⟨r, hr, hnf, hpre⟩

/-- The owner marker does not enter a ring command's condition (R235). -/
theorem cond_mark {i : Instr} {op : RingOp} {blk : Bool} (hi : ringOpOf i = some (op, blk)) (s : State) (k : Nat)
    (r : RingSlot) (o : Option Nat) :
    op.cond (s.setRing k { r with owner := o }) { r with owner := o } = op.cond s r :=
  cond_congr hi rfl ⟨rfl, rfl, rfl⟩ rfl

/-- The effect of step 2 of an ST command, on the ring released (R235). -/
theorem effect_released {i : Instr} {op : RingOp} {blk : Bool} (hi : ringOpOf i = some (op, blk)) {k : Nat}
    {r : RingSlot} (hok : RingOk s.cfg r) (hnf : r.state ≠ .free) (hpre : PreHolds i s r) (hc : op.cond s r = true) :
    Effect (s.setRing k { r with owner := none }) k { r with owner := none }
      (op.effect (s.setRing k { r with owner := none }) k { r with owner := none }) :=
  effect_cases hi (s.setRing k { r with owner := none }) k (hok.mark hnf hnf) hnf
    (preHolds_congr (setRing_lop ..) (setRing_cfg ..) ⟨rfl, rfl, rfl⟩ hpre)
    ((cond_mark hi s k r none).trans hc)

/-- Each outcome of one step of a ring command keeps the invariant. -/
theorem RingStep.inv {i : Instr} {op : RingOp} {blk : Bool} (h : Inv s) (hcur : s.cur < s.ports.length)
    (hph : s.port.phase ≠ .idle) (hd : decode s.port.lcw = .ok i) (hi : ringOpOf i = some (op, blk))
    (ht : RingStep op blk s s.lop.op0.toNat t) : Inv t := by
  have live_ne_free {r : RingSlot} (hl : r.state = .live) : r.state ≠ .free := by simp [hl]
  cases ht with
  | configError => exact h.raiseError _
  | slotError => exact h.raiseError _
  | poisonedError => exact h.raiseError _
  | preError => exact h.raiseError _
  | effect r hr hl hpre hm hc =>
    exact (effect_cases hi s _ (h.ringOk hr) (live_ne_free hl) (preHolds_of_pre hi hpre) hc).inv h hr
  | wait r hr hl hpre =>
    exact h.enterPhase hcur hph (.inl ⟨rfl, rfl⟩) hd hr (live_ne_free hl) (preHolds_of_pre hi hpre)
  | fail r => exact h.complete _ _ _
  | race r p hr hl =>
    exact ((h.markRing hr (live_ne_free hl) r.owner (by simp)).setFault).raiseError _
  | acquire r hr hl hpre =>
    exact (h.markRing hr (live_ne_free hl) (some s.cur) (live_ne_free hl)).enterPhase hcur hph (.inr rfl) hd
      (getElem?_setRing_self hr _) (live_ne_free hl)
      (preHolds_congr (r := r) (setRing_lop ..) (setRing_cfg ..) ⟨rfl, rfl, rfl⟩ (preHolds_of_pre hi hpre))
  | none => exact h
  | wake r hw hr hc =>
    obtain ⟨r', hr', hnf, hpre⟩ := h.flight_cur hcur hd (.inl hw)
    cases hr.symm.trans hr'
    exact (effect_cases hi s _ (h.ringOk hr) hnf hpre hc).inv h hr
  | poisoned r hw hr hp => exact (h.markRing hr (by simp [hp]) Option.none (by simp [hp])).raiseError _
  | perform r hw hr hp hc =>
    obtain ⟨r', hr', hnf, hpre⟩ := h.flight_cur hcur hd (.inr hw)
    cases hr.symm.trans hr'
    exact (effect_released hi (h.ringOk hr) hnf hpre hc).inv (h.markRing hr hnf Option.none hnf)
      (getElem?_setRing_self hr _)
  | performFail r hw hr hp hc hb =>
    obtain ⟨r', hr', hnf, -⟩ := h.flight_cur hcur hd (.inr hw)
    cases hr.symm.trans hr'
    exact (h.markRing hr hnf Option.none hnf).complete _ _ _

/-- A step of a port that holds a command keeps the invariant. -/
theorem PortMove.inv (h : Inv s) (hcur : s.cur < s.ports.length) (hph : s.port.phase ≠ .idle) (ht : PortMove s t) :
    Inv t := by
  cases ht with
  | illegal e hd c => exact h.raiseError c
  | atomic i _ hd ha he ht => exact ht.inv h
  | ring i op blk _ hd ho he ht => exact ht.inv h hcur hph hd ho

/-! ### The host and the sequencer -/

/-- A host write leaves a port's sequencing state alone, or issues a command on an IDLE port (R28, R29). -/
def HostImage (q q' : Port) : Prop :=
  (q'.phase = q.phase ∧ q'.lcw = q.lcw ∧ q'.lop = q.lop ∧ q'.status.busy = q.status.busy ∧
      q'.status.waiting = q.status.waiting) ∨
    (q.phase = .idle ∧ q'.phase = .issued ∧ q'.status.busy = true ∧ q'.status.waiting = false)

theorem onCmdWrite_hostImage (q : Port) (c : CmdWord) : HostImage q (q.onCmdWrite c) := by
  unfold Port.onCmdWrite
  split
  · exact .inr ⟨‹_›, rfl, rfl, rfl⟩
  · exact .inl ⟨rfl, rfl, rfl, rfl, rfl⟩

theorem onHostWrite_hostImage (q : Port) (v : Word) : HostImage q { q with status := q.status.onHostWrite v } := by
  rw [onHostWrite_eq]
  exact .inl ⟨rfl, rfl, rfl, rfl, rfl⟩

/-- Everything a host write can do: nothing, one port's image, or bytes of DMEM (R64). -/
theorem writeTarget_cases (s : State) (x : Target) (w : Nat) (v : Word) :
    writeTarget s x w v = s ∨
    (∃ (p : Nat) (f : Port → Port), (∀ q, HostImage q (f q)) ∧ writeTarget s x w v = s.updatePort p f) ∨
    ∃ a, x = .dmem a ∧ writeTarget s x w v = s.setMem (memWrite s.dmem a w v.toNat) := by
  cases x with
  | gstatus => exact .inl rfl
  | cmd p => exact .inr (.inl ⟨p, _, fun q => onCmdWrite_hostImage q _, rfl⟩)
  | status p => exact .inr (.inl ⟨p, _, fun q => onHostWrite_hostImage q v, rfl⟩)
  | op p i => exact .inr (.inl ⟨p, fun q => { q with op := q.op.put i v }, fun q => .inl ⟨rfl, rfl, rfl, rfl, rfl⟩, rfl⟩)
  | res0 p => exact .inl rfl
  | res1 p => exact .inl rfl
  | unlisted => exact .inl rfl
  | dmem a => exact .inr (.inr ⟨a, rfl, rfl⟩)

theorem HostImage.portOk {q q' : Port} (h : HostImage q q') (hq : PortOk q) : PortOk q' := by
  obtain ⟨hbusy, hwait, hflag⟩ := hq
  rcases h with ⟨hph, -, -, hb, hw⟩ | ⟨-, hph, hb, hw⟩
  · exact ⟨by rw [hb, hph, hbusy], by rw [hw, hph]; exact hwait, by rw [hw, hph]; exact hflag⟩
  · simp [PortOk, hph, hb, hw]

/-- A list in which port p does not exist, or in which it is replaced by its image. -/
theorem updatePort_cases (s : State) (p : Nat) (f : Port → Port) :
    s.updatePort p f = s ∨ ∃ q, s.ports[p]? = some q ∧ s.updatePort p f = { s with ports := s.ports.set p (f q) } := by
  cases hq : s.ports[p]? with
  | none =>
    refine .inl ?_
    rw [State.updatePort, List.modify_eq_self (by simpa using hq)]
  | some q => exact .inr ⟨q, rfl, updatePort_eq_set hq f⟩

theorem Inv.hostImage (h : Inv s) {p : Nat} {q q' : Port} (hq : s.ports[p]? = some q) (hi : HostImage q q') :
    Inv { s with ports := s.ports.set p q' } := by
  refine h.setPortAt p (hi.portOk (h.ports q (List.mem_of_getElem? hq))) fun l hl hph => ?_
  rcases hi with ⟨hp, hc, ho, -⟩ | ⟨-, hp, -⟩
  · obtain ⟨i, r, hd, hr, hnf, hpre⟩ := h.flight p q hq (hp ▸ hph)
    refine ⟨i, r, hc ▸ hd, ho ▸ hr, hnf, preHolds_congr (s := { s with cur := p }) ?_ rfl ⟨rfl, rfl, rfl⟩ hpre⟩
    exact ((lop_at (s := { s with ports := l }) hl).trans ho).trans (lop_at hq).symm
  · rcases hph with hph | hph <;> cases hp.symm.trans hph

/-- A legal access of DMEM stays inside DMEM (R65). -/
theorem inRange_of_accessLegal {n o w a : Nat} (h : accessLegal s o w = true) (ht : targetOf n o = .dmem a) :
    s.inRange a w := by
  have hb : dmemBase ≤ o ∧ o - dmemBase = a := by
    unfold targetOf at ht
    split at ht
    · exact ⟨‹_›, by simpa using ht⟩
    · dsimp only at ht
      split_ifs at ht
  obtain ⟨hle, rfl⟩ := hb
  simp only [accessLegal, if_pos hle, decide_eq_true_eq] at h
  exact h.2.2

theorem Inv.writeTarget (h : Inv s) {o w : Nat} (v : Word) (hl : accessLegal s o w = true) (n : Nat) :
    Inv (writeTarget s (targetOf n o) w v) := by
  rcases writeTarget_cases s (targetOf n o) w v with e | ⟨p, f, hf, e⟩ | ⟨a, ha, e⟩ <;> rw [e]
  · exact h
  · rcases updatePort_cases s p f with e | ⟨q, hq, e⟩ <;> rw [e]
    · exact h
    · exact h.hostImage hq (hf q)
  · exact h.setMem (memWrite_wf h.memWf _ _ _) (memWrite_below h.memIn _ _ _ (inRange_of_accessLegal hl ha))

theorem inv_resetMachine (h : s.cfg.Legal) (image : List Host.Cell) : Inv (resetMachine s image) :=
  (inv_resetOf h (ofImage_wf _ image) (ofImage_below _ image)).of_own 0 s.tick s.draws s.agenda 0

/-- The port that takes its step exists and is not IDLE, seen from the state in which it is `cur`. -/
theorem cur_of_getElem? {p j : Nat} {q : Port} {rest : List Event} (hq : s.ports[p]? = some q) (hp : q.phase ≠ .idle) :
    ({ s with agenda := rest, tick := j, cur := p } : State).cur <
        ({ s with agenda := rest, tick := j, cur := p } : State).ports.length ∧
      ({ s with agenda := rest, tick := j, cur := p } : State).port = q ∧
      ({ s with agenda := rest, tick := j, cur := p } : State).port.phase ≠ .idle := by
  have e : ({ s with agenda := rest, tick := j, cur := p } : State).port = q := port_of_getElem? hq
  exact ⟨(List.getElem?_eq_some_iff.1 hq).1, e, e ▸ hp⟩

/-- Settles O14: `step_move` lists what a step can do, and each of it keeps the invariant. -/
theorem everyStepKeepsInv : Obligations.EveryStepKeepsInv := by
  intro s t h hstep
  cases step_move hstep with
  | ended => exact h
  | idle p rest => exact h.of_own s.cur s.tick s.draws rest s.hostData
  | port p rest j q _ _ hq hp hm =>
    obtain ⟨hcur, -, hph⟩ := cur_of_getElem? (rest := rest) (j := j) hq hp
    exact hm.inv (h.of_own p j s.draws rest s.hostData) hcur hph
  | write o w v rest _ hl => exact (h.of_own s.cur s.tick s.draws rest s.hostData).writeTarget v hl _
  | read o w rest v => exact h.of_own s.cur s.tick s.draws rest v
  | reset image rest => exact inv_resetMachine (s := { s with agenda := rest }) h.legal image

end Sys2Proof.Machine
end

section
/-! PROOF. Who waits on a ring and who owns one (10_state.md R26, 45_ringbuffer.md R232, R235). Around the step of port p
the clauses of the other ports are kept by the change of the ring, and those of p are met by its new phase. -/

namespace Sys2Proof.Machine

variable {s t : State}

/-! ### The clauses by port -/

/-- What a WAITING port q shows (R232). -/
def WaitsOk (s : State) (q : Port) : Prop :=
  ∃ (i : Instr) (r : RingSlot), decode q.lcw = .ok i ∧ s.rbs[q.lop.op0.toNat]? = some r ∧ r.state = .live ∧ r.mode = .mt ∧
    blocking i = true

/-- What a HELD port p, holding q, shows (R235, R26). -/
def HoldsOk (s : State) (p : Nat) (q : Port) : Prop :=
  ∃ (i : Instr) (r : RingSlot), decode q.lcw = .ok i ∧ s.rbs[q.lop.op0.toNat]? = some r ∧ r.mode = .st ∧
    r.owner = some p ∧ q.status.waiting = (blocking i && !commandReady i { s with cur := p } r)

/-- The clauses of `Owned` for every port but p. -/
structure OwnedBut (s : State) (p : Nat) : Prop where
  waiting : ∀ (p' : Nat) (q : Port), p' ≠ p → s.ports[p']? = some q → q.phase = .waiting → WaitsOk s q
  held : ∀ (p' : Nat) (q : Port), p' ≠ p → s.ports[p']? = some q → q.phase = .held → HoldsOk s p' q
  owner : ∀ (k : Nat) (r : RingSlot) (p' : Nat), p' ≠ p → s.rbs[k]? = some r → r.owner = some p' →
    ∃ q : Port, s.ports[p']? = some q ∧ q.phase = .held ∧ q.lop.op0.toNat = k

/-- Port p owns no ring. -/
def OwnsNone (s : State) (p : Nat) : Prop := ∀ (k : Nat) (r : RingSlot), s.rbs[k]? = some r → r.owner ≠ some p

theorem Owned.but (h : Owned s) (p : Nat) : OwnedBut s p :=
  ⟨fun p' q _ => h.waiting p' q, fun p' q _ => h.held p' q, fun k r p' _ => h.owner k r p'⟩

/-- A port that is not HELD owns nothing. -/
theorem Owned.ownsNone (h : Owned s) {p : Nat} {q : Port} (hq : s.ports[p]? = some q) (hph : q.phase ≠ .held) :
    OwnsNone s p := by
  intro k r hr ho
  obtain ⟨q', hq', hheld, -⟩ := h.owner k r p hr ho
  cases hq.symm.trans hq'
  exact hph hheld

/-- The condition of a command, seen from its port: its operands and the ring decide. -/
theorem commandReady_congr {i : Instr} {s s' : State} {r r' : RingSlot} (hl : s'.lop = s.lop) (h : SameShape r r')
    (ho : r'.occ = r.occ) : commandReady i s' r' = commandReady i s r := by
  obtain ⟨h1, h2, -⟩ := h
  cases i <;> simp [commandReady, storeOp, readOp, readallOp, hl, h1, h2, ho]

/-- What a HELD port shows depends on its own registers and on its ring. -/
theorem HoldsOk.congr {s' : State} {p : Nat} {q : Port} (h : HoldsOk s p q) (hq : s.ports[p]? = some q)
    (hq' : s'.ports[p]? = some q)
    (hr : ∀ r, s.rbs[q.lop.op0.toNat]? = some r → r.mode = .st → r.owner = some p →
      ∃ r', s'.rbs[q.lop.op0.toNat]? = some r' ∧ r'.mode = .st ∧ r'.owner = some p ∧ SameShape r r' ∧ r'.occ = r.occ) :
    HoldsOk s' p q := by
  obtain ⟨i, r, hd, hx, hm, ho, hw⟩ := h
  obtain ⟨r', hx', hm', ho', hshape, hocc⟩ := hr r hx hm ho
  refine ⟨i, r', hd, hx', hm', ho', hw.trans ?_⟩
  rw [commandReady_congr (s := { s with cur := p }) ((lop_at hq').trans (lop_at hq).symm) hshape hocc]

/-! ### Changes of the state -/

/-- The clauses read the ports and the rings alone. -/
theorem OwnedBut.congr {s' : State} {p : Nat} (h : OwnedBut s p) (hp : s'.ports = s.ports) (hr : s'.rbs = s.rbs) :
    OwnedBut s' p := by
  refine ⟨fun p' q hne hq hph => ?_, fun p' q hne hq hph => ?_, fun k r p' hne hk ho => ?_⟩
  · rw [hp] at hq
    simpa only [WaitsOk, hr] using h.waiting p' q hne hq hph
  · have hq' := hp ▸ hq
    exact (h.held p' q hne hq' hph).congr hq' hq fun r hx hm ho => ⟨r, hr ▸ hx, hm, ho, ⟨rfl, rfl, rfl⟩, rfl⟩
  · rw [hp]
    exact h.owner k r p' hne (hr ▸ hk) ho

theorem OwnsNone.congr {s' : State} {p : Nat} (h : OwnsNone s p) (hr : s'.rbs = s.rbs) : OwnsNone s' p := by
  rwa [OwnsNone, hr]

/-- A change of a ring that the other ports do not see: a LIVE MT ring stays one, a ring of another port stays as its
owner left it, and nobody else becomes an owner. -/
structure UnseenBut (p : Nat) (r r' : RingSlot) : Prop where
  waiting : r.state = .live → r.mode = .mt → r'.state = .live ∧ r'.mode = .mt
  held : ∀ p', p' ≠ p → r.mode = .st → r.owner = some p' →
    r'.mode = .st ∧ r'.owner = some p' ∧ SameShape r r' ∧ r'.occ = r.occ
  owner : ∀ p', p' ≠ p → r'.owner = some p' → r.owner = some p'

theorem OwnedBut.setRing {p k : Nat} {r r' : RingSlot} (h : OwnedBut s p) (hr : s.rbs[k]? = some r)
    (hu : UnseenBut p r r') : OwnedBut (s.setRing k r') p := by
  refine ⟨fun p' q hne hq hph => ?_, fun p' q hne hq hph => ?_, fun j x p' hne hj ho => ?_⟩
  · obtain ⟨i, x, hd, hx, hl, hm, hb⟩ := h.waiting p' q hne hq hph
    by_cases hk : q.lop.op0.toNat = k
    · subst hk
      obtain rfl : r = x := Option.some.inj (hr.symm.trans hx)
      obtain ⟨hl', hm'⟩ := hu.waiting hl hm
      exact ⟨i, r', hd, getElem?_setRing_self hr r', hl', hm', hb⟩
    · exact ⟨i, x, hd, getElem?_setRing_ne hx hk r', hl, hm, hb⟩
  · refine (h.held p' q hne hq hph).congr hq hq fun x hx hm ho => ?_
    by_cases hk : q.lop.op0.toNat = k
    · subst hk
      obtain rfl : r = x := Option.some.inj (hr.symm.trans hx)
      exact ⟨r', getElem?_setRing_self hr r', hu.held p' hne hm ho⟩
    · exact ⟨x, getElem?_setRing_ne hx hk r', hm, ho, ⟨rfl, rfl, rfl⟩, rfl⟩
  · rw [setRing_rbs, getElem?_set_of_some hr] at hj
    split at hj
    · cases hj
      subst j
      exact h.owner k r p' hne hr (hu.owner p' hne ho)
    · exact h.owner j x p' hne hj ho

theorem OwnsNone.setRing {p k : Nat} {r r' : RingSlot} (h : OwnsNone s p) (hr : s.rbs[k]? = some r)
    (ho : r'.owner ≠ some p) : OwnsNone (s.setRing k r') p := by
  intro j x hj
  rw [setRing_rbs, getElem?_set_of_some hr] at hj
  split at hj
  · cases hj; exact ho
  · exact h j x hj

/-- Port p, put in a phase of its own clauses beside the other ports, gives `Owned` again. -/
theorem OwnedBut.setPortAt {p : Nat} {q : Port} (h : OwnedBut s p) (hw : q.phase = .waiting → WaitsOk s q)
    (hh : ∀ l : List Port, l[p]? = some q → q.phase = .held → HoldsOk { s with ports := l } p q)
    (ho : ∀ (k : Nat) (r : RingSlot), s.rbs[k]? = some r → r.owner = some p →
      p < s.ports.length ∧ q.phase = .held ∧ q.lop.op0.toNat = k) : Owned { s with ports := s.ports.set p q } := by
  have old {p' : Nat} {q' : Port} (hp : p ≠ p') (hq : (s.ports.set p q)[p']? = some q') : s.ports[p']? = some q' := by
    rwa [List.getElem?_set_ne hp] at hq
  have new {q' : Port} (hq : (s.ports.set p q)[p]? = some q') : q = q' := by
    have hlt : p < s.ports.length := by simpa using (List.getElem?_eq_some_iff.1 hq).1
    simpa [hlt] using hq
  refine ⟨fun p' q' hq hph => ?_, fun p' q' hq hph => ?_, fun k r p' hk hown => ?_⟩
  · by_cases hp : p = p'
    · subst hp
      obtain rfl := new hq
      exact hw hph
    · exact h.waiting p' q' (Ne.symm hp) (old hp hq) hph
  · by_cases hp : p = p'
    · subst hp
      obtain rfl := new hq
      exact hh _ hq hph
    · exact (h.held p' q' (Ne.symm hp) (old hp hq) hph).congr (old hp hq) hq
        fun r hx hm hown => ⟨r, hx, hm, hown, ⟨rfl, rfl, rfl⟩, rfl⟩
  · by_cases hp : p = p'
    · subst hp
      obtain ⟨hlt, hph, hk'⟩ := ho k r hk hown
      exact ⟨q, by simp [hlt], hph, hk'⟩
    · obtain ⟨q', hq', hheld, hk'⟩ := h.owner k r p' (Ne.symm hp) hk hown
      exact ⟨q', by simpa [List.getElem?_set_ne hp] using hq', hheld, hk'⟩

/-- A port that ends its command and owns nothing has no clause to meet. -/
theorem OwnedBut.setIdle {q : Port} {p : Nat} (h : OwnedBut s p) (hn : OwnsNone s p) (hq : q.phase = .idle) :
    Owned { s with ports := s.ports.set p q } :=
  h.setPortAt (by simp [hq]) (by simp [hq]) fun k r hk ho => (hn k r hk ho).elim

theorem OwnedBut.complete (h : OwnedBut s s.cur) (hn : OwnsNone s s.cur) (r : Bool) (a b : Nat) :
    Owned (s.complete r a b) := h.setIdle hn rfl

theorem OwnedBut.raiseError (h : OwnedBut s s.cur) (hn : OwnsNone s s.cur) (e : ErrCode) :
    Owned (s.raiseError e) := h.setIdle hn rfl

/-! ### Commands -/

/-- Each outcome of an atomic command of a port that owns nothing. -/
theorem AtomicStep.owned (h : OwnedBut s s.cur) (hn : OwnsNone s s.cur) (hok : ∀ r ∈ s.rbs, RingOk s.cfg r)
    (ht : AtomicStep s t) : Owned t := by
  cases ht with
  | error e => exact h.raiseError hn e
  | query a b => exact h.complete hn true a b
  | memory m d a b => exact OwnedBut.complete (s := { s with dmem := m, draws := d }) (h.congr rfl rfl) hn true a b
  | acc m k x a b => exact OwnedBut.complete (s := (s.setMem m).setAcc k x) (h.congr rfl rfl) hn true a b
  | tv k v a b => exact OwnedBut.complete (s := s.setTv k v) (h.congr rfl rfl) hn true a b
  | ring k r r' a b hr hf _ ho =>
    have hfree : r.owner = none := (hok r (List.mem_of_getElem? hr)).1 hf
    refine OwnedBut.complete (s := s.setRing k r') (h.setRing hr ⟨?_, ?_, ?_⟩) (hn.setRing hr (by simp [ho])) true a b
    · simp [hf]
    · simp [hfree]
    · simp [ho]

/-- Each outcome of the effect of a ring command, on a ring that is MT or that its port has released. -/
theorem Effect.owned {k : Nat} {r : RingSlot} (h : OwnedBut s s.cur) (hn : OwnsNone s s.cur) (hr : s.rbs[k]? = some r)
    (hfree : r.mode = .mt ∨ r.owner = none) (ht : Effect s k r t) : Owned t := by
  cases ht with
  | error c => exact h.raiseError hn c
  | move m r' a b _ _ he =>
    have hmem : OwnedBut (s.setMem m) s.cur := h.congr rfl rfl
    refine OwnedBut.complete (s := (s.setMem m).setRing k r') (hmem.setRing hr ⟨?_, ?_, ?_⟩)
      (OwnsNone.setRing (s := s.setMem m) hn hr (he.owner ▸ hn k r hr)) true a b
    · exact fun hl hm => ⟨he.state ▸ hl, he.mode ▸ hm⟩
    · intro p' _ hm ho
      rcases hfree with hmt | hnone
      · cases hm.symm.trans hmt
      · cases ho.symm.trans hnone
    · exact fun p' _ ho => he.owner ▸ ho
  | answer a => exact h.complete hn true a 0

/-- The first step of a ring command, of a port that owns nothing. -/
theorem RingStep.owned_issued {i : Instr} {op : RingOp} {blk : Bool} (hinv : Inv s) (h : OwnedBut s s.cur)
    (hn : OwnsNone s s.cur) (hcur : s.cur < s.ports.length) (hd : decode s.port.lcw = .ok i)
    (hi : ringOpOf i = some (op, blk)) (hnw : s.port.phase ≠ .waiting) (hnh : s.port.phase ≠ .held)
    (ht : RingStep op blk s s.lop.op0.toNat t) : Owned t := by
  have hblk : blocking i = blk := (commandReady_ring hi s RingSlot.reset).2
  cases ht with
  | configError => exact h.raiseError hn _
  | slotError => exact h.raiseError hn _
  | poisonedError => exact h.raiseError hn _
  | preError => exact h.raiseError hn _
  | effect r hr hl hpre hm hc =>
    exact (effect_cases hi s _ (hinv.ringOk hr) (by simp [hl]) (preHolds_of_pre hi hpre) hc).owned h hn hr (.inl hm)
  | wait r hr hl hpre hm hc hb =>
    exact h.setPortAt (fun _ => ⟨i, r, hd, hr, hl, hm, hblk.trans hb⟩) (fun _ _ hph => by cases hph)
      fun k x hk ho => (hn k x hk ho).elim
  | fail r => exact h.complete hn _ _ _
  | race r p hr hl hpre hm ho =>
    have hp : OwnedBut (s.setRing s.lop.op0.toNat { r with state := .poisoned }) s.cur := by
      refine h.setRing hr ⟨fun _ hmt => ?_, fun p' _ hm' ho' => ⟨hm', ho', ⟨rfl, rfl, rfl⟩, rfl⟩, fun p' _ ho' => ho'⟩
      cases hm.symm.trans hmt
    have hnp : OwnsNone (s.setRing s.lop.op0.toNat { r with state := .poisoned }) s.cur := hn.setRing hr (hn _ r hr)
    exact OwnedBut.raiseError (s := (s.setRing s.lop.op0.toNat { r with state := .poisoned }).setFault)
      (hp.congr rfl rfl) hnp _
  | acquire r hr hl hpre hm ho =>
    have hb : OwnedBut (s.setRing s.lop.op0.toNat { r with owner := some s.cur }) s.cur := by
      refine h.setRing hr ⟨fun _ hmt => ?_, fun p' _ _ ho' => ?_, fun p' hne ho' => ?_⟩
      · cases hm.symm.trans hmt
      · cases ho.symm.trans ho'
      · exact (hne (Option.some.inj ho').symm).elim
    have hset {k : Nat} : (s.setRing s.lop.op0.toNat { r with owner := some s.cur }).rbs[k]? =
        if k = s.lop.op0.toNat then some { r with owner := some s.cur } else s.rbs[k]? := getElem?_set_of_some hr
    refine hb.setPortAt (fun hph => by cases hph) (fun l hl' _ => ?_) fun k x hk hx => ?_
    · refine ⟨i, { r with owner := some s.cur }, hd, hset.trans (if_pos rfl), hm, rfl, ?_⟩
      have hlop := lop_at (s := { s.setRing s.lop.op0.toNat { r with owner := some s.cur } with ports := l }) hl'
      rw [hblk]
      exact congrArg (fun c => blk && !c)
        ((commandReady_congr (s := s) (r := r) hlop ⟨rfl, rfl, rfl⟩ rfl).trans (commandReady_ring hi s r).1).symm
    · rw [hset] at hk
      split at hk
      · exact ⟨hcur, rfl, ‹k = _›.symm⟩
      · exact (hn k x hk hx).elim
  | none hph => exact (hph.elim hnw hnh).elim
  | wake r hw => exact (hnw hw).elim
  | poisoned r hw => exact (hnh hw).elim
  | perform r hw => exact (hnh hw).elim
  | performFail r hw => exact (hnh hw).elim

theorem ringStep_waiting {op : RingOp} {blk : Bool} {r : RingSlot} (hph : s.port.phase = .waiting)
    (hr : s.rbs[s.lop.op0.toNat]? = some r) :
    ringStep op blk s = .next (if op.cond s r then op.effect s s.lop.op0.toNat r else s) := by
  simp only [ringStep, hph, ringWake, hr]
  split <;> rfl

theorem ringStep_held {op : RingOp} {blk : Bool} {r : RingSlot} (hph : s.port.phase = .held)
    (hr : s.rbs[s.lop.op0.toNat]? = some r) :
    ringStep op blk s = .next (
      let s' := s.setRing s.lop.op0.toNat { r with owner := none }
      if r.state = .poisoned then s'.raiseError .race
      else if op.cond s r then op.effect s' s.lop.op0.toNat { r with owner := none }
      else if blk then s else ringFail s' { r with owner := none }) := by
  simp only [ringStep, hph, ringPerform, hr]
  split_ifs <;> rfl

/-- A ring released by its owner: the other ports see nothing of it, and the owner is left with none. -/
theorem Owned.release (h : Owned s) (hcur : s.cur < s.ports.length) {r : RingSlot}
    (hr : s.rbs[s.lop.op0.toNat]? = some r) (hm : r.mode = .st) (ho : r.owner = some s.cur) :
    OwnedBut (s.setRing s.lop.op0.toNat { r with owner := none }) s.cur ∧
      OwnsNone (s.setRing s.lop.op0.toNat { r with owner := none }) s.cur := by
  refine ⟨(h.but s.cur).setRing hr ⟨fun _ hmt => ?_, fun p' hne _ ho' => ?_, fun p' _ ho' => by cases ho'⟩,
    fun k x hk hx => ?_⟩
  · cases hm.symm.trans hmt
  · exact (hne (Option.some.inj (ho'.symm.trans ho))).elim
  · rw [setRing_rbs, getElem?_set_of_some hr] at hk
    split at hk
    · cases hk; cases hx
    · obtain ⟨q, hq, -, hk'⟩ := h.owner k x s.cur hk hx
      cases (getElem?_cur hcur).symm.trans hq
      exact absurd hk'.symm ‹_›

/-- A step of a ring command keeps who waits and who owns, in each phase of its port. -/
theorem ringStep_owned {i : Instr} {op : RingOp} {blk : Bool} (hinv : Inv s) (h : Owned s)
    (hcur : s.cur < s.ports.length) (hd : decode s.port.lcw = .ok i)
    (hi : ringOpOf i = some (op, blk)) (he : ringStep op blk s = .next t) (ht : RingStep op blk s s.lop.op0.toNat t) :
    Owned t := by
  have hq := getElem?_cur hcur
  by_cases hw : s.port.phase = .waiting
  · obtain ⟨-, r, -, hr, hl, hm, -⟩ := h.waiting _ _ hq hw
    obtain ⟨r', hr', hnf, hpre⟩ := hinv.flight_cur hcur hd (.inl hw)
    cases hr.symm.trans hr'
    rw [ringStep_waiting hw hr] at he
    split at he <;> cases he
    · exact (effect_cases hi s _ (hinv.ringOk hr) hnf hpre ‹_›).owned (h.but _) (h.ownsNone hq (by simp [hw])) hr
        (.inl hm)
    · exact h
  by_cases hh : s.port.phase = .held
  · obtain ⟨-, r, -, hr, hm, ho, -⟩ := h.held _ _ hq hh
    obtain ⟨r', hr', hnf, hpre⟩ := hinv.flight_cur hcur hd (.inr hh)
    cases hr.symm.trans hr'
    obtain ⟨hbut, hnone⟩ := h.release hcur hr hm ho
    rw [ringStep_held hh hr] at he
    dsimp only at he
    split_ifs at he <;> cases he
    · exact hbut.raiseError hnone _
    · exact (effect_released hi (hinv.ringOk hr) hnf hpre ‹_›).owned hbut hnone (getElem?_setRing_self hr' _)
        (.inr rfl)
    · exact h
    · exact hbut.complete hnone _ _ _
  · exact ht.owned_issued hinv (h.but _) (h.ownsNone hq hh) hcur hd hi hw hh

/-- A step of a port that holds a command keeps who waits and who owns. -/
theorem PortMove.owned (hinv : Inv s) (h : Owned s) (hcur : s.cur < s.ports.length) (ht : PortMove s t) : Owned t := by
  have hq := getElem?_cur hcur
  have flies {i : Instr} (hheld : s.port.phase = .held) (hd : decode s.port.lcw = .ok i) :
      ∃ op blk, ringOpOf i = some (op, blk) := by
    obtain ⟨r, -, -, hpre⟩ := hinv.flight_cur hcur hd (.inr hheld)
    exact hpre.ring
  cases ht with
  | illegal e hd c =>
    refine (h.but _).raiseError (h.ownsNone hq fun hheld => ?_) c
    obtain ⟨i, -, hd', -⟩ := h.held _ _ hq hheld
    cases hd.symm.trans hd'
  | atomic i _ hd ha _ ht =>
    refine ht.owned (h.but _) (h.ownsNone hq fun hheld => ?_) hinv.rings
    obtain ⟨op, blk, hop⟩ := flies hheld hd
    cases i <;> simp [atomicCommand, ringOpOf] at ha hop
  | ring i op blk _ hd ho he ht => exact ringStep_owned hinv h hcur hd ho ((exec_ring ho s).symm.trans he) ht

/-! ### The host and the sequencer -/

/-- The statement reads the ports and the rings alone. -/
theorem Owned.congr {s' : State} (h : Owned s) (hp : s'.ports = s.ports) (hr : s'.rbs = s.rbs) : Owned s' := by
  refine ⟨fun p q hq hph => ?_, fun p q hq hph => ?_, fun k r p hk ho => ?_⟩
  · simpa only [WaitsOk, hr] using h.waiting p q (hp ▸ hq) hph
  · exact HoldsOk.congr (h.held p q (hp ▸ hq) hph) (hp ▸ hq) hq
      fun r hx hm ho => ⟨r, hr ▸ hx, hm, ho, ⟨rfl, rfl, rfl⟩, rfl⟩
  · rw [hp]
    exact h.owner k r p (hr ▸ hk) ho

theorem Owned.hostImage (h : Owned s) {p : Nat} {q q' : Port} (hq : s.ports[p]? = some q) (hi : HostImage q q') :
    Owned { s with ports := s.ports.set p q' } := by
  refine (h.but p).setPortAt (fun hph => ?_) (fun l hl hph => ?_) fun k r hk ho => ?_
  · rcases hi with ⟨hp, hc, hl, -⟩ | ⟨-, hp, -⟩
    · obtain ⟨i, r, hd, hr, hrest⟩ := h.waiting p q hq (hp ▸ hph)
      exact ⟨i, r, hc ▸ hd, hl ▸ hr, hrest⟩
    · cases hp.symm.trans hph
  · rcases hi with ⟨hp, hc, ho, -, hw⟩ | ⟨-, hp, -⟩
    · obtain ⟨i, r, hd, hr, hm, hown, hwait⟩ := h.held p q hq (hp ▸ hph)
      refine ⟨i, r, hc ▸ hd, ho ▸ hr, hm, hown, hw.trans (hwait.trans ?_)⟩
      rw [commandReady_congr (s := { s with cur := p }) (r := r)
        (((lop_at (s := { s with ports := l }) hl).trans ho).trans (lop_at hq).symm) ⟨rfl, rfl, rfl⟩ rfl]
    · cases hp.symm.trans hph
  · obtain ⟨x, hx, hheld, hk'⟩ := h.owner k r p hk ho
    cases hq.symm.trans hx
    rcases hi with ⟨hp, -, hl, -⟩ | ⟨hp, -⟩
    · exact ⟨(List.getElem?_eq_some_iff.1 hq).1, hp.trans hheld, hl ▸ hk'⟩
    · cases hp.symm.trans hheld

theorem Owned.writeTarget (h : Owned s) (x : Target) (w : Nat) (v : Word) : Owned (writeTarget s x w v) := by
  rcases writeTarget_cases s x w v with e | ⟨p, f, hf, e⟩ | ⟨a, -, e⟩ <;> rw [e]
  · exact h
  · rcases updatePort_cases s p f with e | ⟨q, hq, e⟩ <;> rw [e]
    · exact h
    · exact h.hostImage hq (hf q)
  · exact h.congr rfl rfl

/-- After reset every port is IDLE and every ring FREE. -/
theorem owned_resetOf (p : Config.Params) (m : Memory) : Owned (State.resetOf p m) := by
  refine ⟨fun j q hq hph => ?_, fun j q hq hph => ?_, fun k r j hk ho => ?_⟩
  · cases mem_resetOf_ports hq; cases hph
  · cases mem_resetOf_ports hq; cases hph
  · obtain rfl : r = RingSlot.reset := List.eq_of_mem_replicate (List.mem_of_getElem? hk)
    cases ho

/-- Settles O15: what `step_move` lists, each with the clauses of the moving port and of the others. -/
theorem everyStepKeepsOwnership : Obligations.EveryStepKeepsOwnership := by
  intro s t hinv h hstep
  cases step_move hstep with
  | ended => exact h
  | idle => exact h.congr rfl rfl
  | port p rest j q _ _ hq hp hm =>
    obtain ⟨hcur, -, -⟩ := cur_of_getElem? (rest := rest) (j := j) hq hp
    exact hm.owned (hinv.of_own p j s.draws rest s.hostData) (h.congr rfl rfl) hcur
  | write o w v rest => exact Owned.writeTarget (s := { s with agenda := rest }) (h.congr rfl rfl) _ w v
  | read => exact h.congr rfl rfl
  | reset image => exact (owned_resetOf s.cfg []).congr rfl rfl

/-- Settles O13: the reference parameters are legal, and an empty DMEM is canonical. -/
theorem resetMeetsTheInvariants : Obligations.ResetMeetsTheInvariants :=
  ⟨inv_resetOf (by decide) (by decide) (by simp [Memory.below]), owned_resetOf _ _⟩

end Sys2Proof.Machine
end

section
/-! PROOF. FIFO (45_ringbuffer.md R210, R238): what every command, and then every step of the machine, keeps of a LIVE
ring. -/

namespace Sys2Proof.Machine

variable {s t : State} {k : Nat}

/-- What R238 allows to become of a LIVE ring r. -/
def FifoKept (r r' : RingSlot) : Prop := r'.cap = r.cap ∧ r'.epp = r.epp ∧ QueueStep r r'

theorem FifoKept.refl (r : RingSlot) : FifoKept r r := ⟨rfl, rfl, .same rfl⟩

/-- The owner marker and the state of a ring are not among its elements. -/
theorem FifoKept.mark (r : RingSlot) (st : RbState) (o : Option Nat) : FifoKept r { r with state := st, owner := o } :=
  ⟨rfl, rfl, .same rfl⟩

/-- The released ring stands for the ring. -/
theorem FifoKept.of_mark {r r' : RingSlot} {o : Option Nat} (h : FifoKept { r with owner := o } r') : FifoKept r r' := h

theorem EffectRing.fifoKept {r r' : RingSlot} (h : EffectRing s r r') : FifoKept r r' :=
  ⟨h.shape.2.1, h.shape.1, h.queue⟩

/-- From s to t, slot k keeps what R238 promises of it if it is LIVE. -/
def KeepsRing (k : Nat) (s t : State) : Prop :=
  ∀ r, s.rbs[k]? = some r → r.state = .live → ∃ r', t.rbs[k]? = some r' ∧ FifoKept r r'

theorem KeepsRing.of_rbs_eq (h : t.rbs = s.rbs) : KeepsRing k s t := fun r hr _ => ⟨r, by rw [h, hr], .refl r⟩

/-- A write to the slot of the ring x, whichever slot that is. -/
theorem KeepsRing.of_set {j : Nat} {x x' : RingSlot} (hx : s.rbs[j]? = some x) (h : t.rbs = s.rbs.set j x')
    (hk : x.state = .live → FifoKept x x') : KeepsRing k s t := by
  intro r hr hl
  by_cases hj : k = j
  · subst hj
    obtain rfl : x = r := Option.some.inj (hx.symm.trans hr)
    exact ⟨x', by rw [h, getElem?_set_of_some hx, if_pos rfl], hk hl⟩
  · exact ⟨r, by rw [h, getElem?_set_of_some hx, if_neg hj, hr], .refl r⟩

theorem AtomicStep.keepsRing (h : AtomicStep s t) : KeepsRing k s t := by
  cases h with
  | ring j r r' a b hr hf => exact .of_set hr rfl (by simp [hf])
  | _ => exact .of_rbs_eq rfl

/-- The effect of a ring command on the ring r, from a state whose slot holds r up to its owner. -/
theorem Effect.keepsRing {j : Nat} {r : RingSlot} {o : Option Nat} (hr : s.rbs[j]? = some r)
    (h : Effect (s.setRing j { r with owner := o }) j { r with owner := o } t) : KeepsRing k s t := by
  cases h with
  | error c => exact .of_set hr rfl fun _ => .mark r r.state o
  | move m r' a b _ _ he => exact .of_set hr (List.set_set ..) fun _ => he.fifoKept.of_mark
  | answer a => exact .of_set hr rfl fun _ => .mark r r.state o

/-- Replacing a ring by itself. -/
theorem setRing_self {r : RingSlot} (hr : s.rbs[k]? = some r) : s.setRing k r = s := by
  have h : s.rbs.set k r = s.rbs := List.ext_getElem? fun j => by
    rw [getElem?_set_of_some hr]
    split
    · subst j; exact hr.symm
    · rfl
  simp only [State.setRing, h]

theorem RingStep.keepsRing {i : Instr} {op : RingOp} {blk : Bool} (hinv : Inv s) (hcur : s.cur < s.ports.length)
    (hd : decode s.port.lcw = .ok i) (hi : ringOpOf i = some (op, blk))
    (ht : RingStep op blk s s.lop.op0.toNat t) : KeepsRing k s t := by
  have at_once {r : RingSlot} (hr : s.rbs[s.lop.op0.toNat]? = some r) (hnf : r.state ≠ .free) (hpre : PreHolds i s r)
      (hc : op.cond s r = true) : KeepsRing k s (op.effect s s.lop.op0.toNat r) := by
    refine Effect.keepsRing (o := r.owner) hr ?_
    rw [setRing_self hr]
    exact effect_cases hi s _ (hinv.ringOk hr) hnf hpre hc
  cases ht with
  | effect r hr hl hpre hm hc => exact at_once hr (by simp [hl]) (preHolds_of_pre hi hpre) hc
  | wake r hw hr hc =>
    obtain ⟨r', hr', hnf, hpre⟩ := hinv.flight_cur hcur hd (.inl hw)
    cases hr.symm.trans hr'
    exact at_once hr hnf hpre hc
  | perform r hw hr hp hc =>
    obtain ⟨r', hr', hnf, hpre⟩ := hinv.flight_cur hcur hd (.inr hw)
    cases hr.symm.trans hr'
    exact (effect_released hi (hinv.ringOk hr) hnf hpre hc).keepsRing hr
  | race r p hr => exact .of_set hr rfl fun _ => .mark r .poisoned r.owner
  | acquire r hr => exact .of_set hr rfl fun _ => .mark r r.state (some s.cur)
  | poisoned r _ hr => exact .of_set hr rfl fun _ => .mark r r.state Option.none
  | performFail r _ hr => exact .of_set hr rfl fun _ => .mark r r.state Option.none
  | _ => exact .of_rbs_eq rfl

theorem PortMove.keepsRing (hinv : Inv s) (hcur : s.cur < s.ports.length) (h : PortMove s t) : KeepsRing k s t := by
  cases h with
  | illegal => exact .of_rbs_eq rfl
  | atomic i _ _ _ _ ht => exact ht.keepsRing
  | ring i op blk _ hd ho _ ht => exact ht.keepsRing hinv hcur hd ho

theorem writeTarget_rbs (s : State) (x : Target) (w : Nat) (v : Word) : (writeTarget s x w v).rbs = s.rbs := by
  cases x <;> rfl

/-- A step that is no reset keeps every LIVE ring's elements in their order (R238). -/
theorem step_keepsRing (hinv : Inv s) (h : step s = .next t) (hr : ∀ image rest, s.agenda ≠ .reset image :: rest) :
    KeepsRing k s t := by
  cases step_move h with
  | ended => exact .of_rbs_eq rfl
  | idle => exact .of_rbs_eq rfl
  | port p rest j q _ _ hq hp hm =>
    obtain ⟨hcur, -, -⟩ := cur_of_getElem? (rest := rest) (j := j) hq hp
    exact hm.keepsRing (s := { s with agenda := rest, tick := j, cur := p })
      (hinv.of_own p j s.draws rest s.hostData) hcur
  | write o w v rest => exact .of_rbs_eq (writeTarget_rbs _ _ _ _)
  | read => exact .of_rbs_eq rfl
  | reset image rest ha => exact absurd ha (hr image rest)

/-- Settles O59: `step_keepsRing` on the ring of the statement. -/
theorem ringsAreFirstInFirstOut : Obligations.RingsAreFirstInFirstOut := fun _ _ _ r hinv h hreset hr hl =>
  step_keepsRing hinv h hreset r hr hl

end Sys2Proof.Machine
end

section
/-! PROOF. How a command ends and what it leaves alone (10_state.md R21, R23 to R25, R30, 60_exceptions.md R251, R253): every
command's step is a change of DMEM, of the slots or of the draws, and then one write to its own port. -/

namespace Sys2Proof.Machine

variable {s t : State}

/-! ### One step of a command -/

/-- From s to s' nothing but DMEM, the slots and the draws may have changed. -/
structure SlotsOnly (s s' : State) : Prop where
  ports : s'.ports = s.ports
  cfg : s'.cfg = s.cfg
  gstatus : s'.gstatus = s.gstatus
  cur : s'.cur = s.cur
  agenda : s'.agenda = s.agenda
  tick : s'.tick = s.tick
  hostData : s'.hostData = s.hostData

theorem SlotsOnly.refl (s : State) : SlotsOnly s s := ⟨rfl, rfl, rfl, rfl, rfl, rfl, rfl⟩

theorem SlotsOnly.port {s' : State} (h : SlotsOnly s s') : s'.port = s.port := by
  simp [State.port, h.ports, h.cur]

theorem SlotsOnly.cur_lt {s' : State} (h : SlotsOnly s s') (hcur : s.cur < s.ports.length) :
    s'.cur < s'.ports.length := by
  rwa [h.cur, h.ports]

/-- Everything one step of a command can do to its port and to the globals of the machine. -/
inductive CommandStep (s : State) : State → Prop
  | complete (s' : State) (r : Bool) (a b : Nat) (h : SlotsOnly s s') : CommandStep s (s'.complete r a b)
  | error (s' : State) (e : ErrCode) (h : SlotsOnly s s') (he : e ≠ .noError) : CommandStep s (s'.raiseError e)
  | race (s' : State) (h : SlotsOnly s s') : CommandStep s (s'.setFault.raiseError .race)
  | inFlight (s' : State) (ph : Phase) (w : Bool) (h : SlotsOnly s s') (hp : ph ≠ .idle) :
      CommandStep s (s'.enterPhase ph w)
  | none (h : s.port.phase = .waiting ∨ s.port.phase = .held) : CommandStep s s

theorem AtomicStep.command (h : AtomicStep s t) : CommandStep s t := by
  cases h with
  | error e he => exact .error s e (.refl s) he.1
  | query a b => exact .complete s true a b (.refl s)
  | memory m d a b => exact .complete { s with dmem := m, draws := d } true a b ⟨rfl, rfl, rfl, rfl, rfl, rfl, rfl⟩
  | acc m k x a b => exact .complete ((s.setMem m).setAcc k x) true a b ⟨rfl, rfl, rfl, rfl, rfl, rfl, rfl⟩
  | tv k v a b => exact .complete (s.setTv k v) true a b ⟨rfl, rfl, rfl, rfl, rfl, rfl, rfl⟩
  | ring k r r' a b => exact .complete (s.setRing k r') true a b ⟨rfl, rfl, rfl, rfl, rfl, rfl, rfl⟩

/-- The effect of a ring command is ADDR with nothing moved, or a completion with true. -/
theorem ringEffect_cases {i : Instr} {op : RingOp} {blk : Bool} (hi : ringOpOf i = some (op, blk)) (s : State) (k : Nat)
    (r : RingSlot) :
    op.effect s k r = s.raiseError .addr ∨
      ∃ s' a b, SlotsOnly s s' ∧ op.effect s k r = s'.complete true a b := by
  cases i <;> simp [ringOpOf] at hi <;> obtain ⟨rfl, rfl⟩ := hi
  case rbReadall =>
    simp only [readallOp]
    split
    · exact .inl rfl
    · refine .inr ⟨_, _, _, ?_, rfl⟩
      exact ⟨rfl, rfl, rfl, rfl, rfl, rfl, rfl⟩
  all_goals
    refine .inr ⟨_, _, _, ?_, rfl⟩
    exact ⟨rfl, rfl, rfl, rfl, rfl, rfl, rfl⟩

theorem ringEffect_command {i : Instr} {op : RingOp} {blk : Bool} (hi : ringOpOf i = some (op, blk)) {s' : State}
    (h : SlotsOnly s s') (k : Nat) (r : RingSlot) : CommandStep s (op.effect s' k r) := by
  rcases ringEffect_cases hi s' k r with e | ⟨x, a, b, hx, e⟩ <;> rw [e]
  · exact .error s' .addr h (by decide)
  · exact .complete x true a b ⟨hx.ports.trans h.ports, hx.cfg.trans h.cfg, hx.gstatus.trans h.gstatus,
      hx.cur.trans h.cur, hx.agenda.trans h.agenda, hx.tick.trans h.tick, hx.hostData.trans h.hostData⟩

theorem slotsOnly_setRing (s : State) (k : Nat) (r : RingSlot) : SlotsOnly s (s.setRing k r) :=
  ⟨rfl, rfl, rfl, rfl, rfl, rfl, rfl⟩

/-- The checks of a ring command raise SHAPE or ADDR (R214, R215). -/
theorem ringPre_ne_noError {i : Instr} {op : RingOp} {blk : Bool} (hi : ringOpOf i = some (op, blk)) {r : RingSlot}
    {e : ErrCode} (h : op.pre s r = some e) : e ≠ .noError := by
  rintro rfl
  cases i <;> simp [ringOpOf] at hi <;> obtain ⟨rfl, rfl⟩ := hi <;> simp [storeOp, readOp, readallOp, queryOp] at h
  split_ifs at h <;> cases h

theorem RingStep.command {i : Instr} {op : RingOp} {blk : Bool} {k : Nat} (hi : ringOpOf i = some (op, blk))
    (h : RingStep op blk s k t) : CommandStep s t := by
  cases h with
  | configError => exact .error s _ (.refl s) (by decide)
  | slotError => exact .error s _ (.refl s) (by decide)
  | poisonedError => exact .error s _ (.refl s) (by decide)
  | preError r e _ _ he => exact .error s e (.refl s) (ringPre_ne_noError hi he)
  | effect r => exact ringEffect_command hi (.refl s) k r
  | wait => exact .inFlight s _ _ (.refl s) (by decide)
  | fail r => exact .complete s _ _ _ (.refl s)
  | race r => exact .race _ (slotsOnly_setRing s k { r with state := .poisoned })
  | acquire r => exact .inFlight _ _ _ (slotsOnly_setRing s k { r with owner := some s.cur }) (by decide)
  | none hph => exact .none hph
  | wake r => exact ringEffect_command hi (.refl s) k r
  | poisoned r => exact .error _ _ (slotsOnly_setRing s k { r with owner := Option.none }) (by decide)
  | perform r =>
    exact ringEffect_command hi (slotsOnly_setRing s k { r with owner := Option.none }) k { r with owner := Option.none }
  | performFail r => exact .complete _ _ _ _ (slotsOnly_setRing s k { r with owner := Option.none })

/-- A command always answers a next state, one of those `CommandStep` lists. -/
theorem exec_command (i : Instr) (s : State) : ∃ t, exec i s = .next t ∧ CommandStep s t := by
  rcases atomic_or_ring i with ha | ⟨op, blk, ho⟩
  · obtain ⟨t, he, ht⟩ := exec_atomic i s ha
    exact ⟨t, he, ht.command⟩
  · obtain ⟨t, he, ht⟩ := ringStep_cases op blk s
    exact ⟨t, (exec_ring ho s).trans he, ht.command ho⟩

/-- A port that steps an ILLEGAL word does what a command can do as well. -/
theorem PortMove.command (h : PortMove s t) : CommandStep s t := by
  cases h with
  | illegal _ _ c hc => exact .error s c (.refl s) (by rcases hc with rfl | rfl <;> decide)
  | atomic _ _ _ _ _ ht => exact ht.command
  | ring _ _ _ _ _ ho _ ht => exact ht.command ho

/-! ### The port and the globals after it -/

/-- A command's step writes STATUS, RES0, RES1 and the phase of its port: it ends, stays in flight, or does nothing. -/
theorem CommandStep.port (h : CommandStep s t) (hcur : s.cur < s.ports.length) :
    (∃ r a b, t.port = completedPort s.port r a b) ∨ (∃ e, e ≠ .noError ∧ t.port = erroredPort s.port e) ∨
      (∃ ph w, ph ≠ .idle ∧ t.port = phasedPort s.port ph w) ∨
      ((s.port.phase = .waiting ∨ s.port.phase = .held) ∧ t = s) := by
  cases h with
  | complete s' r a b hs => exact .inl ⟨r, a, b, by rw [port_complete _ _ _ (hs.cur_lt hcur), hs.port]⟩
  | error s' e hs he => exact .inr (.inl ⟨e, he, by rw [port_raiseError _ (hs.cur_lt hcur), hs.port]⟩)
  | race s' hs =>
    refine .inr (.inl ⟨.race, by decide, ?_⟩)
    rw [port_raiseError _ (by simpa using hs.cur_lt hcur), setFault_port, hs.port]
  | inFlight s' ph w hs hp =>
    exact .inr (.inr (.inl ⟨ph, w, hp, by rw [port_enterPhase _ _ (hs.cur_lt hcur), hs.port]⟩))
  | none hph => exact .inr (.inr (.inr ⟨hph, rfl⟩))

/-- No command's step writes an operand, a latched operand, the command word or OVERRUN of its port (R23, R24). -/
theorem CommandStep.registers (h : CommandStep s t) (hcur : s.cur < s.ports.length) :
    t.port.op = s.port.op ∧ t.port.lop = s.port.lop ∧ t.port.lcw = s.port.lcw ∧
      t.port.status.overrun = s.port.status.overrun := by
  rcases h.port hcur with ⟨r, a, b, e⟩ | ⟨c, -, e⟩ | ⟨ph, w, -, e⟩ | ⟨-, rfl⟩
  · rw [e]; exact ⟨rfl, rfl, rfl, rfl⟩
  · rw [e]; exact ⟨rfl, rfl, rfl, rfl⟩
  · rw [e]; exact ⟨rfl, rfl, rfl, rfl⟩
  · exact ⟨rfl, rfl, rfl, rfl⟩

/-- No command's step touches another port. -/
theorem CommandStep.others (h : CommandStep s t) :
    t.ports.length = s.ports.length ∧ ∀ p, p ≠ s.cur → t.ports[p]? = s.ports[p]? := by
  have written {s' : State} (hs : SlotsOnly s s') (q : Port) :
      (s'.ports.set s'.cur q).length = s.ports.length ∧
        ∀ p, p ≠ s.cur → (s'.ports.set s'.cur q)[p]? = s.ports[p]? := by
    rw [hs.ports, hs.cur]
    exact ⟨List.length_set, fun p hp => List.getElem?_set_ne hp.symm⟩
  cases h with
  | complete s' r a b hs => exact written hs _
  | error s' e hs => exact written hs _
  | race s' hs => exact written hs _
  | inFlight s' ph w hs => exact written hs _
  | none => exact ⟨rfl, fun _ _ => rfl⟩

/-- A command's step leaves the globals but FAULT, which rises with RACE alone (R236). -/
theorem CommandStep.globals (h : CommandStep s t) :
    (t.cfg = s.cfg ∧ t.cur = s.cur ∧ t.agenda = s.agenda ∧ t.tick = s.tick ∧ t.hostData = s.hostData) ∧
      (t.gstatus = s.gstatus ∨
        t.gstatus = { s.gstatus with fault := true } ∧
          (s.cur < s.ports.length → t.port.phase = .idle ∧ t.port.status.err = .race)) := by
  cases h with
  | complete s' r a b hs => exact ⟨⟨hs.cfg, hs.cur, hs.agenda, hs.tick, hs.hostData⟩, .inl hs.gstatus⟩
  | error s' e hs => exact ⟨⟨hs.cfg, hs.cur, hs.agenda, hs.tick, hs.hostData⟩, .inl hs.gstatus⟩
  | race s' hs =>
    refine ⟨⟨hs.cfg, hs.cur, hs.agenda, hs.tick, hs.hostData⟩, .inr ⟨by simp [hs.gstatus], fun hcur => ?_⟩⟩
    rw [port_raiseError _ (by simpa using hs.cur_lt hcur)]
    exact ⟨rfl, rfl⟩
  | inFlight s' ph w hs => exact ⟨⟨hs.cfg, hs.cur, hs.agenda, hs.tick, hs.hostData⟩, .inl hs.gstatus⟩
  | none => exact ⟨⟨rfl, rfl, rfl, rfl, rfl⟩, .inl rfl⟩

/-- Settles O19: `exec_command` gives the next state, and `CommandStep` says what it leaves alone. -/
theorem commandsTouchNoOtherPortAndNoOperand : Obligations.CommandsTouchNoOtherPortAndNoOperand := by
  intro s i hcur
  obtain ⟨t, he, ht⟩ := exec_command i s
  obtain ⟨hlen, hothers⟩ := ht.others
  obtain ⟨hop, hlop, hlcw, hover⟩ := ht.registers hcur
  obtain ⟨⟨hcfg, hc, hagenda, htick, hdata⟩, hg⟩ := ht.globals
  have hcfgerr : t.gstatus.cfgerr = s.gstatus.cfgerr := by rcases hg with e | ⟨e, -⟩ <;> rw [e]
  exact ⟨t, he, hlen, hothers, hop, hlop, hlcw, hover, hcfg, hcfgerr, hc, hagenda, htick, hdata⟩

/-- Settles O20: the four ways a command's step can leave its port. -/
theorem resultsHoldUntilCompletion : Obligations.ResultsHoldUntilCompletion := by
  refine ⟨by decide, fun s t i hcur hph he => ?_⟩
  obtain ⟨t', he', ht⟩ := exec_command i s
  cases he.symm.trans he'
  rcases ht.port hcur with ⟨r, a, b, e⟩ | ⟨c, -, e⟩ | ⟨ph, w, hp, e⟩ | ⟨-, rfl⟩
  · rw [e]
    exact ⟨fun h => (h rfl).elim, fun _ => ⟨rfl, rfl, fun h => (h rfl).elim⟩⟩
  · rw [e]
    exact ⟨fun h => (h rfl).elim, fun _ => ⟨rfl, rfl, fun _ => ⟨rfl, rfl, rfl⟩⟩⟩
  · rw [e]
    exact ⟨fun _ => ⟨rfl, rfl, rfl, rfl, rfl⟩, fun h => (hp h).elim⟩
  · exact ⟨fun _ => ⟨rfl, rfl, rfl, rfl, rfl⟩, fun h => (hph h).elim⟩

/-! ### Completion and errors -/

/-- Settles O17: completion is one write to the port `cur`. -/
theorem completionWritesOnlyItsPort : Obligations.CompletionWritesOnlyItsPort := by
  intro s hcur
  have others (q : Port) (p : Nat) (hp : p ≠ s.cur) : (s.ports.set s.cur q)[p]? = s.ports[p]? :=
    List.getElem?_set_ne hp.symm
  exact ⟨fun code => ⟨rfl, others _, port_raiseError code hcur⟩, fun r a b => ⟨rfl, others _, port_complete r a b hcur⟩⟩

/-- A completion in which the port shows an error is none. -/
theorem err_complete {s' : State} (h : SlotsOnly s s') (hcur : s.cur < s.ports.length) (r : Bool) (a b : Nat) :
    (s'.complete r a b).port.status.err = .noError := by
  rw [port_complete _ _ _ (h.cur_lt hcur)]
  rfl

theorem err_raiseError (hcur : s.cur < s.ports.length) (e : ErrCode) : (s.raiseError e).port.status.err = e := by
  rw [port_raiseError _ hcur]
  rfl

theorem AtomicStep.error_eq (hcur : s.cur < s.ports.length) (h : AtomicStep s t) (he : t.port.status.err ≠ .noError) :
    t = s.raiseError t.port.status.err := by
  cases h with
  | error e => rw [err_raiseError hcur]
  | query a b => exact (he (err_complete (.refl s) hcur _ _ _)).elim
  | memory m d a b =>
    exact (he (err_complete (s' := { s with dmem := m, draws := d }) ⟨rfl, rfl, rfl, rfl, rfl, rfl, rfl⟩ hcur _ _ _)).elim
  | acc m k x a b =>
    exact (he (err_complete (s' := (s.setMem m).setAcc k x) ⟨rfl, rfl, rfl, rfl, rfl, rfl, rfl⟩ hcur _ _ _)).elim
  | tv k v a b => exact (he (err_complete (s' := s.setTv k v) ⟨rfl, rfl, rfl, rfl, rfl, rfl, rfl⟩ hcur _ _ _)).elim
  | ring k r r' a b => exact (he (err_complete (slotsOnly_setRing s k r') hcur _ _ _)).elim

/-- The first step of a ring command ends with an error that changes nothing else, or with the RACE fault (R236). -/
theorem RingStep.error_eq {i : Instr} {op : RingOp} {blk : Bool} {k : Nat} (hs : Issued s)
    (hi : ringOpOf i = some (op, blk)) (h : RingStep op blk s k t) (hidle : t.port.phase = .idle)
    (he : t.port.status.err ≠ .noError) :
    t = s.raiseError t.port.status.err ∨
      ∃ r, s.rbs[k]? = some r ∧ r.mode = .st ∧ r.owner ≠ Option.none ∧ t = raceFault s k r := by
  have hcur := hs.exists_port
  have hph := hs.phase
  cases h with
  | configError => exact .inl (by rw [err_raiseError hcur])
  | slotError => exact .inl (by rw [err_raiseError hcur])
  | poisonedError => exact .inl (by rw [err_raiseError hcur])
  | preError => exact .inl (by rw [err_raiseError hcur])
  | effect r =>
    rcases ringEffect_cases hi s k r with e | ⟨s', a, b, hs', e⟩ <;> rw [e] at he ⊢
    · exact .inl (by rw [err_raiseError hcur])
    · exact (he (err_complete hs' hcur _ _ _)).elim
  | wait => rw [port_enterPhase _ _ hcur] at hidle; cases hidle
  | fail r => exact (he (err_complete (.refl s) hcur _ _ _)).elim
  | race r p hr hl hpre hm ho => exact .inr ⟨r, hr, hm, by simp [ho], rfl⟩
  | acquire r =>
    rw [port_enterPhase _ _ ((slotsOnly_setRing s k _).cur_lt hcur)] at hidle
    cases hidle
  | none hw => rcases hw with hw | hw <;> cases hph.symm.trans hw
  | wake r hw => cases hph.symm.trans hw
  | poisoned r hw => cases hph.symm.trans hw
  | perform r hw => cases hph.symm.trans hw
  | performFail r hw => cases hph.symm.trans hw

/-- Settles O18: an atomic command and a ring command's first step, each by its list of outcomes. -/
theorem errorsChangeNothingElse : Obligations.ErrorsChangeNothingElse := by
  intro s t i hs he hidle herr
  rcases atomic_or_ring i with ha | ⟨op, blk, ho⟩
  · obtain ⟨t', he', ht⟩ := exec_atomic i s ha
    cases he.symm.trans he'
    exact .inl (ht.error_eq hs.exists_port herr)
  · obtain ⟨t', he', ht⟩ := ringStep_cases op blk s
    cases he.symm.trans ((exec_ring ho s).trans he')
    refine (ht.error_eq hs ho hidle herr).imp_right fun ⟨r, hr, hm, hown, e⟩ => ?_
    subst e
    exact ⟨err_raiseError (s := (s.setRing s.lop.op0.toNat { r with state := .poisoned }).setFault) hs.exists_port .race,
      _, r, hr, hm, hown, rfl⟩

/-! ### GSTATUS over a step of the machine -/

theorem writeTarget_globals (s : State) (x : Target) (w : Nat) (v : Word) :
    (writeTarget s x w v).cfg = s.cfg ∧ (writeTarget s x w v).gstatus = s.gstatus := by
  cases x <;> exact ⟨rfl, rfl⟩

/-- Settles O21: only the step of a port can move GSTATUS, and `CommandStep.globals` says how. -/
theorem faultIsStickyAndRisesWithRace : Obligations.FaultIsStickyAndRisesWithRace := by
  intro s t h
  have same (hc : t.cfg = s.cfg) (hg : t.gstatus = s.gstatus) : t.cfg = s.cfg ∧
      ((∀ image rest, s.agenda ≠ .reset image :: rest) →
        t.gstatus.cfgerr = s.gstatus.cfgerr ∧ (s.gstatus.fault = true → t.gstatus.fault = true) ∧
        (s.gstatus.fault = false → t.gstatus.fault = true → ∃ (p : Nat) (q q' : Port),
          Moves s t p q ∧ t.ports[p]? = some q' ∧ q'.phase = .idle ∧ q'.status.err = .race)) :=
    ⟨hc, fun _ => ⟨by rw [hg], by rw [hg]; exact id, fun h1 h2 => by simp [hg, h1] at h2⟩⟩
  cases step_move h with
  | ended => exact same rfl rfl
  | idle => exact same rfl rfl
  | port p rest j q _ ha hq hp hm =>
    obtain ⟨hcur, -, -⟩ := cur_of_getElem? (rest := rest) (j := j) hq hp
    obtain ⟨⟨hc, htcur, -⟩, hg | ⟨hg, hrace⟩⟩ := hm.command.globals
    · exact same hc hg
    refine ⟨hc, fun _ => ⟨by rw [hg], fun _ => by rw [hg], fun _ _ => ?_⟩⟩
    have hlt : t.cur < t.ports.length := by rw [hm.command.others.1, htcur]; exact hcur
    have hport : t.ports[p]? = some t.port := by
      have := getElem?_cur hlt
      rwa [htcur] at this
    obtain ⟨hidle, herr⟩ := hrace hcur
    exact ⟨p, q, t.port, ⟨hq, hp, htcur, ha.symm.imp And.left fun ⟨e, _⟩ => ⟨rest, e⟩⟩, hport, hidle, herr⟩
  | write o w v rest => exact same (writeTarget_globals ..).1 (writeTarget_globals ..).2
  | read => exact same rfl rfl
  | reset image rest ha => exact ⟨rfl, fun hr => absurd ha (hr image rest)⟩

end Sys2Proof.Machine
end

section
/-! PROOF. The decoder and the encoder (30_encoding.md R81 to R94): which words decode, and that the fields of a word and
of its command are the same. -/

namespace Sys2Proof.Machine

open Sys2Proof.Laws

/-! ### The tables of the fields -/

theorem ofCode_code (o : Op) : Op.ofCode o.code = some o := by cases o <;> rfl

theorem code_of_ofCode {x : Nat} {o : Op} (h : Op.ofCode x = some o) : o.code = x := by
  simpa using List.find?_some h

/-- The opcodes of R88. -/
theorem ofCode_eq_none_iff {x : Nat} :
    Op.ofCode x = none ↔ x ∉ [0x01, 0x02, 0x03, 0x10, 0x11, 0x20, 0x21, 0x22, 0x23, 0x24, 0x25, 0x30, 0x31, 0x32, 0x33,
      0x34, 0x40, 0x41, 0x42, 0x43, 0x44, 0x45, 0x46] := by
  simp only [Op.ofCode, Op.all, List.find?_eq_none, Op.code, beq_iff_eq, List.mem_cons, not_or,
    eq_comm (b := x)]
  simp

theorem usesFmt_eq_false_iff (o : Op) : o.usesFmt = false ↔ o.code ≠ 0x10 := by cases o <;> decide

theorem usesBlk_eq_false_iff (o : Op) : o.usesBlk = false ↔ o.code ∉ [0x41, 0x42] := by cases o <;> decide

theorem usesDtype_eq_false_iff (o : Op) : o.usesDtype = false ↔ o.code ∉ [0x01, 0x02, 0x03, 0x10, 0x11] := by
  cases o <;> decide

theorem laneFmt_ofCode_code (f : LaneFmt) : LaneFmt.ofCode f.code = some f := by cases f <;> rfl

theorem laneFmt_ofCode_of_le {x : Nat} (h : 10 ≤ x) : LaneFmt.ofCode x = none := by
  obtain ⟨y, rfl⟩ := Nat.exists_eq_add_of_le' h
  rfl

theorem laneFmt_ofCode_of_lt {x : Nat} (h : x < 10) : ∃ f, LaneFmt.ofCode x = some f ∧ f.code = x := by
  interval_cases x <;> exact ⟨_, rfl, rfl⟩

theorem laneFmt_code_of_ofCode {x : Nat} {f : LaneFmt} (h : LaneFmt.ofCode x = some f) : f.code = x := by
  rcases Nat.lt_or_ge x 10 with hx | hx
  · obtain ⟨g, hg, hc⟩ := laneFmt_ofCode_of_lt hx
    cases h.symm.trans hg
    exact hc
  · cases h.symm.trans (laneFmt_ofCode_of_le hx)

theorem laneFmt_ofCode_eq_none_iff {x : Nat} : LaneFmt.ofCode x = none ↔ 10 ≤ x := by
  refine ⟨fun h => ?_, laneFmt_ofCode_of_le⟩
  by_contra! hx
  obtain ⟨f, hf, -⟩ := laneFmt_ofCode_of_lt hx
  cases h.symm.trans hf

theorem dKind_code_lt (k : DKind) : k.code < 8 := by cases k <;> decide

theorem dKind_ofCode_code (k : DKind) : DKind.ofCode k.code = k := by cases k <;> rfl

theorem dKind_code_ofCode {x : Nat} (h : x < 8) : (DKind.ofCode x).code = x := by interval_cases x <;> rfl

/-- A code whose fields fit fills 16 bits (R84). -/
theorem dType_code_lt {d : DType} (h : d.wf = true) : d.code < 2 ^ 16 := by
  have hk := dKind_code_lt d.kind
  simp only [DType.wf, Bool.and_eq_true, decide_eq_true_eq] at h
  unfold DType.code
  omega

theorem dType_ofCode_code {d : DType} (h : d.wf = true) : DType.ofCode d.code = d := by
  have hk := dKind_code_lt d.kind
  simp only [DType.wf, Bool.and_eq_true, decide_eq_true_eq] at h
  have h1 : d.code % 2 ^ 3 = d.kind.code := by unfold DType.code; omega
  have h2 : d.code / 2 ^ 3 % 2 ^ 7 = d.width := by unfold DType.code; omega
  have h3 : d.code / 2 ^ 10 % 2 ^ 6 = d.frac := by unfold DType.code; omega
  rw [DType.ofCode, h1, h2, h3, dKind_ofCode_code]

theorem dType_code_ofCode {x : Nat} (h : x < 2 ^ 16) : (DType.ofCode x).code = x := by
  have hk : (DKind.ofCode (x % 2 ^ 3)).code = x % 2 ^ 3 := dKind_code_ofCode (Nat.mod_lt _ (by decide))
  unfold DType.code DType.ofCode
  dsimp only
  rw [hk]
  omega

theorem dType_ofCode_wf (x : Nat) : (DType.ofCode x).wf = true :=
  Bool.and_eq_true_iff.2
    ⟨decide_eq_true (Nat.mod_lt _ (by decide)), decide_eq_true (Nat.mod_lt _ (by decide))⟩

/-! ### The decoder -/

/-- The words R90 accepts, with the command each spells. -/
theorem decode_eq_ok_iff {c : CmdWord} {i : Instr} :
    decode c = .ok i ↔ ∃ (o : Op) (fmt : LaneFmt), Op.ofCode (bitField c 0 8) = some o ∧ bitField c 13 3 = 0 ∧
      (o.usesFmt = false → bitField c 8 4 = 0) ∧ (o.usesBlk = false → bitField c 12 1 = 0) ∧
      (o.usesDtype = false → bitField c 16 16 = 0) ∧ LaneFmt.ofCode (bitField c 8 4) = some fmt ∧
      o.build fmt (bitField c 12 1 == 1) (DType.ofCode (bitField c 16 16)) = i := by
  unfold decode
  cases ho : Op.ofCode (bitField c 0 8) with
  | none => simp
  | some o =>
    cases hf : LaneFmt.ofCode (bitField c 8 4) with
    | none => dsimp only; split_ifs <;> simp
    | some fmt => dsimp only; split_ifs <;> simp_all

/-- The words R90 rejects, with a row of R88 and without. -/
theorem decode_error_iff {c : CmdWord} :
    (∃ e, decode c = .error e) ↔ ∀ o, Op.ofCode (bitField c 0 8) = some o →
      bitField c 13 3 ≠ 0 ∨ (o.usesFmt = false ∧ bitField c 8 4 ≠ 0) ∨ LaneFmt.ofCode (bitField c 8 4) = none ∨
        (o.usesBlk = false ∧ bitField c 12 1 ≠ 0) ∨ (o.usesDtype = false ∧ bitField c 16 16 ≠ 0) := by
  unfold decode
  cases ho : Op.ofCode (bitField c 0 8) with
  | none => simp
  | some o =>
    cases hf : LaneFmt.ofCode (bitField c 8 4) with
    | none => dsimp only; split_ifs <;> simp
    | some fmt => dsimp only; split_ifs <;> simp_all

/-! ### The encoder -/

theorem dtypeCode_lt {i : Instr} (h : i.wf = true) : i.dtypeCode < 2 ^ 16 := by
  cases i with
  | dtInfo d | dtRange d | dtReqelems d | pack _ d | unpack d => exact dType_code_lt h
  | _ => exact Nat.succ_pos _

/-- The high half of a command's word: DTYPE (R81). -/
theorem encode_high {i : Instr} (h : i.wf = true) : bitField (encode i) 16 16 = i.dtypeCode := by
  have h1 := op_code_lt i.op
  have h2 := fmtCode_lt i
  have h3 := blkCode_lt i
  have h4 := dtypeCode_lt h
  simp only [bitField, encode, BitVec.toNat_ofNat]
  omega

/-- A field a command does not use is 0 in its word (R81, R88). -/
theorem unused_fields (i : Instr) :
    (i.op.usesFmt = false → i.fmtCode = 0) ∧ (i.op.usesBlk = false → i.blkCode = 0) ∧
      (i.op.usesDtype = false → i.dtypeCode = 0) := by
  cases i <;> simp [Instr.op, Op.usesFmt, Op.usesBlk, Op.usesDtype, Instr.fmtCode, Instr.blkCode, Instr.dtypeCode]

theorem toNat_beq_one (b : Bool) : (b.toNat == 1) = b := by cases b <;> rfl

/-- A command is built from its row and the codes of its fields. -/
theorem build_fields {i : Instr} (h : i.wf = true) :
    ∃ fmt, LaneFmt.ofCode i.fmtCode = some fmt ∧ i.op.build fmt (i.blkCode == 1) (DType.ofCode i.dtypeCode) = i := by
  cases i with
  | pack fmt d => exact ⟨fmt, laneFmt_ofCode_code fmt, congrArg (Instr.pack fmt) (dType_ofCode_code h)⟩
  | dtInfo d => exact ⟨.u8, rfl, congrArg Instr.dtInfo (dType_ofCode_code h)⟩
  | dtRange d => exact ⟨.u8, rfl, congrArg Instr.dtRange (dType_ofCode_code h)⟩
  | dtReqelems d => exact ⟨.u8, rfl, congrArg Instr.dtReqelems (dType_ofCode_code h)⟩
  | unpack d => exact ⟨.u8, rfl, congrArg Instr.unpack (dType_ofCode_code h)⟩
  | rbStore b => exact ⟨.u8, rfl, congrArg Instr.rbStore (toNat_beq_one b)⟩
  | rbRead b => exact ⟨.u8, rfl, congrArg Instr.rbRead (toNat_beq_one b)⟩
  | _ => exact ⟨.u8, rfl, rfl⟩

/-- Settles O2: the word's fields are the command's (`encode_low`, `encode_high`), and the command is built from them. -/
theorem decodeEncodeRoundTrip : Obligations.DecodeEncodeRoundTrip := by
  intro i h
  obtain ⟨hop, hfmt, hblk, hrsv⟩ := encode_low i
  obtain ⟨huf, hub, hud⟩ := unused_fields i
  obtain ⟨fmt, hfc, hbuild⟩ := build_fields h
  rw [decode_eq_ok_iff, hop, hfmt, hblk, hrsv, encode_high h]
  exact ⟨i.op, fmt, ofCode_code _, rfl, huf, hub, hud, hfc, hbuild⟩

theorem build_op (o : Op) (fmt : LaneFmt) (b : Bool) (d : DType) : (o.build fmt b d).op = o := by cases o <;> rfl

theorem build_wf (o : Op) (fmt : LaneFmt) (b : Bool) {d : DType} (h : d.wf = true) : (o.build fmt b d).wf = true := by
  cases o with
  | dtInfo | dtRange | dtReqelems | pack | unpack => exact h
  | _ => rfl

theorem build_fmtCode (o : Op) (fmt : LaneFmt) (b : Bool) (d : DType) :
    (o.build fmt b d).fmtCode = if o.usesFmt then fmt.code else 0 := by cases o <;> rfl

theorem build_blkCode (o : Op) (fmt : LaneFmt) (b : Bool) (d : DType) :
    (o.build fmt b d).blkCode = if o.usesBlk then b.toNat else 0 := by cases o <;> rfl

theorem build_dtypeCode (o : Op) (fmt : LaneFmt) (b : Bool) (d : DType) :
    (o.build fmt b d).dtypeCode = if o.usesDtype then d.code else 0 := by cases o <;> rfl

theorem beq_one_toNat {x : Nat} (h : x < 2) : (x == 1).toNat = x := by interval_cases x <;> rfl

/-- A word is the sum of its fields (R81). -/
theorem toNat_eq_fields (c : CmdWord) :
    c.toNat = bitField c 0 8 + bitField c 8 4 * 2 ^ 8 + bitField c 12 1 * 2 ^ 12 + bitField c 13 3 * 2 ^ 13 +
      bitField c 16 16 * 2 ^ 16 := by
  have := c.isLt
  unfold bitField
  omega

/-- Settles O3: each field of an accepted word is the field of the command it spells. -/
theorem acceptedWordsReencode : Obligations.AcceptedWordsReencode := by
  intro c i h
  obtain ⟨o, fmt, ho, hrsv, huf, hub, hud, hf, rfl⟩ := decode_eq_ok_iff.1 h
  refine ⟨build_wf o fmt _ (dType_ofCode_wf _), ?_⟩
  have hfmt : (if o.usesFmt then fmt.code else 0) = bitField c 8 4 := by
    cases hu : o.usesFmt with
    | true => exact laneFmt_code_of_ofCode hf
    | false => exact (huf hu).symm
  have hblk : (if o.usesBlk then (bitField c 12 1 == 1).toNat else 0) = bitField c 12 1 := by
    cases hu : o.usesBlk with
    | true => exact beq_one_toNat (Nat.mod_lt _ (by decide))
    | false => exact (hub hu).symm
  have hdt : (if o.usesDtype then (DType.ofCode (bitField c 16 16)).code else 0) = bitField c 16 16 := by
    cases hu : o.usesDtype with
    | true => exact dType_code_ofCode (Nat.mod_lt _ (by decide))
    | false => exact (hud hu).symm
  have hc := toNat_eq_fields c
  have hlt := c.isLt
  apply BitVec.eq_of_toNat_eq
  rw [encode, build_op, build_fmtCode, build_blkCode, build_dtypeCode, hfmt, hblk, hdt, code_of_ofCode ho,
    BitVec.toNat_ofNat]
  omega

/-! ### ILLEGAL words -/

theorem toNat_extractLsb_eq_bitField (c : CmdWord) (hi lo : Nat) :
    (c.extractLsb hi lo).toNat = bitField c lo (hi - lo + 1) := by
  simp [bitField, BitVec.extractLsb, Nat.shiftRight_eq_div_pow]

/-- R90's clauses over the fields are those over the row of R88, where there is one. -/
theorem illegalWord_iff (c : CmdWord) : IllegalWord c ↔ ∃ e, decode c = .error e := by
  rw [decode_error_iff]
  simp only [IllegalWord, toNat_extractLsb_eq_bitField, ← ofCode_eq_none_iff]
  cases ho : Op.ofCode (bitField c 0 8) with
  | none => simp
  | some o =>
    have hblk : bitField c 12 1 = 1 ↔ bitField c 12 1 ≠ 0 := by
      have : bitField c 12 1 < 2 ^ 1 := Nat.mod_lt _ (by decide)
      omega
    simp only [reduceCtorEq, false_or, Option.some.injEq, forall_eq', usesFmt_eq_false_iff, usesBlk_eq_false_iff,
      usesDtype_eq_false_iff, code_of_ofCode ho, laneFmt_ofCode_eq_none_iff, hblk]
    by_cases hpack : bitField c 0 8 = 0x10
    · simp [hpack]
    · have : 10 ≤ bitField c 8 4 → bitField c 8 4 ≠ 0 := by omega
      simp only [hpack, ne_eq, not_false_eq_true, true_and, false_and, false_or]
      tauto

theorem runPort_of_illegal {s : State} {e : DecodeReject} (h : decode s.port.lcw = .error e) :
    runPort s = .next (s.raiseError (if s.gstatus.cfgerr then .config else .illegal)) := by
  unfold runPort illegalWord
  rw [h]
  rcases checked_cases s (failWith s .illegal) with ⟨hc, e⟩ | ⟨hc, e⟩ <;> rw [hc] <;> exact e

/-- Settles O4: `illegalWord_iff`, and the step of a port whose word is one of them. -/
theorem illegalWordsEndWithIllegal : Obligations.IllegalWordsEndWithIllegal := by
  intro c
  refine ⟨illegalWord_iff c, fun s p rest q h hq hp hc hill => ?_⟩
  obtain ⟨e, he⟩ := (illegalWord_iff c).1 hill
  have hport : ({ s with agenda := rest, cur := p } : State).port = q := port_of_getElem? hq
  rw [step_port h, portStep_of_phase_ne_idle (s := { s with agenda := rest }) hq (by simp [hp])]
  exact runPort_of_illegal (s := { s with agenda := rest, cur := p }) (by rw [hport, hc, he])

/-- Settles O1: the words are decoded one by one. -/
theorem specExampleWordsDecode : Obligations.SpecExampleWordsDecode := by
  unfold Obligations.SpecExampleWordsDecode
  decide

end Sys2Proof.Machine
end

section
/-! PROOF. Which port moves (60_exceptions.md R257, R261, R262, R291) and what reset leaves (10_state.md R38,
70_reset_and_hazards.md R280). -/

namespace Sys2Proof.Machine

variable {s : State}

/-! ### A port's step -/

/-- Settles O5: the event names the port, which holds a command, and its word decodes. -/
theorem stepRunsTheDecodedCommand : Obligations.StepRunsTheDecodedCommand := by
  intro s p rest q i h hq hp hd
  have hport : ({ s with agenda := rest, cur := p } : State).port = q := port_of_getElem? hq
  rw [step_port h, portStep_of_phase_ne_idle (s := { s with agenda := rest }) hq hp, runPort, hport, hd]

/-! ### Which ports have a step -/

theorem hasStep_of_none {p : Nat} (h : s.ports[p]? = none) : hasStep s p = false := by simp [hasStep, h]

theorem hasStep_idle {p : Nat} {q : Port} (hq : s.ports[p]? = some q) (hp : q.phase = .idle) : hasStep s p = false := by
  simp [hasStep, hq, hp]

theorem hasStep_issued {p : Nat} {q : Port} (hq : s.ports[p]? = some q) (hp : q.phase = .issued) :
    hasStep s p = true := by
  simp [hasStep, hq, hp]

/-- The condition of a command, seen from its port (R214 to R219). -/
theorem commandReady_at {p : Nat} {q : Port} (hq : s.ports[p]? = some q) (i : Instr) (r : RingSlot) :
    commandReady i { s with cur := p } r = true ↔ CondHolds i q.lop r := by
  rw [commandReady_iff, lop_at hq]

theorem hasStep_waiting {p : Nat} {q : Port} (hq : s.ports[p]? = some q) (hp : q.phase = .waiting) {i : Instr}
    {r : RingSlot} (hd : decode q.lcw = .ok i) (hr : s.rbs[q.lop.op0.toNat]? = some r) :
    hasStep s p = true ↔ CondHolds i q.lop r := by
  rw [← commandReady_at hq]
  simp [hasStep, hq, hp, hd, hr]

theorem hasStep_held {p : Nat} {q : Port} (hq : s.ports[p]? = some q) (hp : q.phase = .held) {i : Instr}
    {r : RingSlot} (hd : decode q.lcw = .ok i) (hr : s.rbs[q.lop.op0.toNat]? = some r) :
    hasStep s p = true ↔ r.state = .poisoned ∨ CondHolds i q.lop r ∨ ¬ Blocks i := by
  rw [← commandReady_at hq, ← blocking_iff]
  simp [hasStep, hq, hp, hd, hr, or_assoc]

/-! ### A step with no event left -/

theorem step_of_choosePort {p : Nat} (ha : s.agenda = []) (hc : choosePort s = some p) :
    step s = portStep p { s with tick := s.tick + 1 } := by
  unfold step nextStep
  rw [ha, hc]

theorem step_of_no_port (ha : s.agenda = []) (hc : choosePort s = none) :
    step s = if s.ports.all (fun q => q.phase == .idle) then .next s else .fault .stuck := by
  unfold step nextStep
  rw [ha, hc]

/-- A port that holds a command and has no step (R261). -/
theorem portStuck_of_not_idle (hno : ∀ p, hasStep s p = false) {q : Port} (hq : q ∈ s.ports) (hp : q.phase ≠ .idle) :
    ∃ p, s.PortStuck p := by
  obtain ⟨p, hp'⟩ := List.getElem?_of_mem hq
  exact ⟨p, q, hp', hp, hno p⟩

/-- Settles O6: `choosePort` takes a port that has a step, and none exactly when there is none. -/
theorem noEventMeansReadyPortOrEndOrStuck : Obligations.NoEventMeansReadyPortOrEndOrStuck := by
  intro s
  refine ⟨fun ha p hp => ?_, fun ha hno hidle => ?_, ⟨fun h => ?_, fun ⟨ha, hno, p, q, hq, hp, _⟩ => ?_⟩,
    fun p => hasStep_of_none, fun p q hq => ⟨hasStep_idle hq, hasStep_issued hq, fun i r hd hr =>
      ⟨fun hp => hasStep_waiting hq hp hd hr, fun hp => hasStep_held hq hp hd hr⟩⟩⟩
  · cases hc : choosePort s with
    | none => cases hp.symm.trans (choosePort_none.1 hc p)
    | some p' => exact ⟨p', choosePort_some hc, step_of_choosePort ha hc⟩
  · rw [step_of_no_port ha (choosePort_none.2 hno), if_pos (by simpa using hidle)]
  · obtain ⟨ha, hc, q, hq, hp⟩ := step_fault h
    have hno := choosePort_none.1 hc
    exact ⟨ha, hno, portStuck_of_not_idle hno hq hp⟩
  · rw [step_of_no_port ha (choosePort_none.2 hno), if_neg]
    simpa using ⟨q, List.mem_of_getElem? hq, hp⟩

/-! ### Reset -/

/-- The byte a list of cells gives an address: the value of its cell, wherever the canonical image has one. -/
theorem byte_eq_blank {m : Memory} {x : Nat} (h : ∀ c ∈ m, c.1 ≠ x) : m.byte x = Memory.blank := by
  induction m with
  | nil => rfl
  | cons c t ih =>
    rw [Memory.byte, if_neg (h c (by simp))]
    exact ih fun d hd => h d (by simp [hd])

/-- Cells of rising addresses, written one after the other over DMEM m. -/
theorem byte_foldl_put {size : Nat} {l : List Host.Cell} (hp : l.Pairwise fun c d => c.1 < d.1)
    (hb : ∀ c ∈ l, c.1 < size) (m : Memory) (x : Nat) :
    Memory.byte (l.foldl (fun m c => if c.1 < size then m.put c.1 c.2 else m) m) x =
      if ∃ c ∈ l, c.1 = x then Memory.byte l x else m.byte x := by
  induction l generalizing m with
  | nil => simp
  | cons c t ih =>
    obtain ⟨hlt, ht⟩ := List.pairwise_cons.1 hp
    rw [List.foldl_cons, if_pos (hb c (by simp)), ih ht fun d hd => hb d (by simp [hd])]
    by_cases hc : c.1 = x
    · have hnone : ¬ ∃ d ∈ t, d.1 = x := fun ⟨d, hd, e⟩ => by have := hlt d hd; omega
      rw [if_neg hnone, if_pos ⟨c, by simp, hc⟩, byte_put, if_pos hc.symm, Memory.byte, if_pos hc]
    · rw [byte_put, if_neg (Ne.symm hc)]
      simp [Memory.byte, hc]

/-- DMEM takes a canonical launch image as it is (R22). -/
theorem byte_ofImage {size : Nat} {image : Memory} (hw : image.wf) (hb : ∀ c ∈ image, c.1 < size) (x : Nat) :
    (Memory.ofImage size image).byte x = image.byte x := by
  rw [Memory.ofImage, byte_foldl_put hw.1 hb]
  split
  · rfl
  · rename_i h
    exact (byte_eq_blank fun c hc e => h ⟨c, hc, e⟩).symm

theorem opRegs_reset_get (i : Nat) : OpRegs.reset.get i = 0 := by
  unfold OpRegs.get
  split <;> rfl

/-- Settles O12: every list of the reset state repeats one reset element. -/
theorem resetSetsTheTableOfR38 : Obligations.ResetSetsTheTableOfR38 := by
  intro s image rest h
  refine ⟨_, step_reset h, rfl, rfl, rfl, fun hw hb x => byte_ofImage hw hb x, List.length_replicate,
    List.length_replicate, List.length_replicate, List.length_replicate, fun q hq => ?_, fun a ha => ?_,
    fun v hv => ?_, fun r hr => ?_⟩
  · obtain rfl := List.eq_of_mem_replicate hq
    exact ⟨rfl, rfl, rfl, rfl, opRegs_reset_get, opRegs_reset_get, by decide⟩
  · obtain rfl := List.eq_of_mem_replicate ha
    exact ⟨rfl, rfl⟩
  · obtain rfl := List.eq_of_mem_replicate hv
    exact ⟨rfl, rfl, rfl, rfl⟩
  · obtain rfl := List.eq_of_mem_replicate hr
    exact ⟨rfl, rfl, rfl, rfl, rfl, rfl, rfl, rfl, rfl⟩

end Sys2Proof.Machine
end

section
/-! PROOF. The host's accesses over the MMIO map (20_memory.md R61, R64, R65, R71; 10_state.md R21, R26). -/

namespace Sys2Proof.Machine

variable {s : State}

/-! ### Which accesses have a meaning -/

theorem isCmd_targetOf_iff {n o : Nat} (hn : n ≤ 16) :
    (targetOf n o).isCmd = true ↔ ∃ p, p < n ∧ o = 0x1000 + 0x100 * p := by
  constructor
  · intro h
    unfold targetOf at h
    dsimp only at h
    split_ifs at h with h1 h2 h3 h4 <;> try cases h
    exact ⟨(o - 0x1000) / 0x100, by omega, by omega⟩
  · rintro ⟨p, hp, rfl⟩
    rw [targetOf_cmd hp hn]
    rfl

/-- The accesses R65 gives a meaning, for the ports the machine may have. -/
theorem accessLegal_iff {o w : Nat} (hn : s.ports.length ≤ 16) :
    accessLegal s o w = true ↔
      (o < 0x100000 ∧ w = 8 ∧ o % 8 = 0) ∨ (w = 4 ∧ ∃ p, p < s.ports.length ∧ o = 0x1000 + 0x100 * p) ∨
        (0x100000 ≤ o ∧ (w = 1 ∨ w = 2 ∨ w = 4 ∨ w = 8) ∧ o % w = 0 ∧ o - 0x100000 + w ≤ s.cfg.dmemBytes) := by
  unfold accessLegal dmemBase
  split
  case isTrue h =>
    have hreg : ¬ o < 0x100000 := by omega
    have hcmd : ¬ ∃ p, p < s.ports.length ∧ o = 0x1000 + 0x100 * p := by rintro ⟨p, hp, rfl⟩; omega
    simp [hreg, hcmd, h, State.inRange]
  case isFalse h =>
    have hreg : o < 0x100000 := by omega
    rw [Bool.or_eq_true, Bool.and_eq_true, decide_eq_true_eq, decide_eq_true_eq, isCmd_targetOf_iff hn]
    constructor
    · rintro (⟨hw, ho⟩ | ⟨⟨hw, -⟩, hp⟩)
      · exact .inl ⟨hreg, hw, ho⟩
      · exact .inr (.inl ⟨hw, hp⟩)
    · rintro (⟨-, hw, ho⟩ | ⟨hw, p, hp, rfl⟩ | ⟨h', -⟩)
      · exact .inl ⟨hw, ho⟩
      · exact .inr ⟨⟨hw, by omega⟩, p, hp, rfl⟩
      · exact (h h').elim

/-- Settles O11: an access is refused exactly when `accessLegal` is false, and `accessLegal_iff` spells that out. -/
theorem hostAccessesOutsideR65AreRefused : Obligations.HostAccessesOutsideR65AreRefused := by
  intro s o w v rest hn h
  rw [step_access_refused h, ← accessLegal_iff (s := s) hn]
  exact Bool.not_eq_true _ |>.symm ▸ Iff.rfl

/-! ### What the host reads -/

/-- The host's read of a register, with the value named. -/
theorem step_readRegister {o : Nat} {rest : List Event} (h : s.agenda = .read o 8 :: rest) (ho : o < 0x100000)
    (h8 : o % 8 = 0) {x : Target} (hx : targetOf s.ports.length o = x) :
    step s = .next { s with agenda := rest, hostData := readTarget { s with agenda := rest } x 8 } := by
  rw [step_read h (accessLegal_register _ ho h8), hx]

theorem ports_getD {p : Nat} {q : Port} (hq : s.ports[p]? = some q) : s.ports.getD p Port.reset = q := by
  simp [List.getD, hq]

/-- STATUS by its bits (R26). -/
theorem status_bits (st : Status) :
    st.toWord.getLsbD 0 = st.busy ∧ st.toWord.getLsbD 1 = st.waiting ∧ st.toWord.getLsbD 2 = st.result ∧
      st.toWord.getLsbD 3 = st.overrun ∧ st.toWord.extractLsb' 4 4 = 0 ∧ st.toWord.extractLsb' 16 48 = 0 ∧
      (st.toWord.extractLsb' 8 8).toNat = st.err.code := by
  rcases st with ⟨b, w, r, o, e⟩
  cases e <;> revert b w r o <;> decide

/-- The codes of R250, as a table. -/
theorem errCode_table : ∀ e ∈ [(ErrCode.noError, 0x00), (.illegal, 0x01), (.config, 0x02), (.shape, 0x03),
    (.empty, 0x04), (.addr, 0x05), (.slot, 0x06), (.overlap, 0x07), (.range, 0x08), (.race, 0x09)],
    e.1.code = e.2 := by decide

/-- The bits of a DMEM read: those of the bytes, and 0 above them (R61, R64). -/
theorem getLsbD_memRead (m : Memory) (a : Nat) {w : Nat} (hw : w ≤ 8) (k : Nat) :
    (BitVec.ofNat 64 (memRead m a w)).getLsbD k = (decide (k < 8 * w) && streamBit m a k) := by
  rw [BitVec.getLsbD_ofNat, testBit_memRead]
  by_cases hk : k < 8 * w
  · simp [hk, show k < 64 by omega]
  · simp [hk]

/-- Settles O9: the map sends each offset to its register, and a read changes nothing but the host's value. -/
theorem hostReadsFollowTheMap : Obligations.HostReadsFollowTheMap := by
  intro s rest hn
  refine ⟨fun h => ?gstatus, fun p q hq => ?port, fun a w hw ha hl h => ?dmem, fun o ho h8 h0 hx h => ?unlisted⟩
  case gstatus =>
    rw [step_readRegister h (by omega) (by omega) (x := .gstatus) rfl, readTarget, GStatus.toWord, Nat.mul_comm]
  case port =>
    have hp : p < s.ports.length := (List.getElem?_eq_some_iff.1 hq).1
    have hget : s.ports.getD p Port.reset = q := ports_getD hq
    refine ⟨fun h => ⟨q.status.toWord, ?_, ?_⟩, fun i hi h => ?_, fun h => ?_, fun h => ?_⟩
    · rw [step_readRegister h (by omega) (by omega) (targetOf_status hp hn), readTarget, hget]
    · obtain ⟨h0, h1, h2, h3, h4, h16, herr⟩ := status_bits q.status
      exact ⟨h0, h1, h2, h3, h4, h16, fun e he hq => herr.trans (hq ▸ errCode_table e he)⟩
    · rw [step_readRegister h (by omega) (by omega) (targetOf_op hp hn hi), readTarget, hget]
    · rw [step_readRegister h (by omega) (by omega) (targetOf_res0 hp hn), readTarget, hget]
    · rw [step_readRegister h (by omega) (by omega) (targetOf_res1 hp hn), readTarget, hget]
  case dmem =>
    have hlegal : accessLegal { s with agenda := rest } (0x100000 + a) w = true := accessLegal_dmem _ hw ha hl
    refine ⟨BitVec.ofNat 64 (memRead s.dmem a w), ?_, getLsbD_memRead s.dmem a (by omega)⟩
    rw [step_read h hlegal, targetOf_dmem, readTarget]
  case unlisted => rw [step_readRegister h ho h8 (targetOf_unlisted ho h0 hx), readTarget]

/-! ### What the host writes -/

theorem opRegs_get_put (r : OpRegs) {i j : Nat} (hi : i < 8) (hj : j < 8) (v : Word) :
    (r.put i v).get j = if j = i then v else r.get j := by
  interval_cases i <;> interval_cases j <;> rfl

/-- GSTATUS, RES0, RES1 and the offsets the map does not list ignore a write (R64). -/
theorem writeTarget_ignored {o : Nat} (ho : o < 0x100000)
    (hx : o < 0x1000 ∨ 0x1000 + 0x100 * s.ports.length ≤ o ∨ 0x50 ≤ o % 0x100) (w : Nat) (v : Word) :
    writeTarget s (targetOf s.ports.length o) w v = s := by
  unfold targetOf dmemBase
  dsimp only
  rw [if_neg (by omega)]
  split
  · rfl
  split
  · rw [if_neg (by omega), if_neg (by omega), if_neg (by omega)]
    split
    · rfl
    split <;> rfl
  · rfl

/-- Settles O10: the targets that ignore a write, the operand registers, and DMEM. -/
theorem hostWritesFollowTheMap : Obligations.HostWritesFollowTheMap := by
  intro s v rest hn
  refine ⟨fun o ho h8 hx h => ?ignored, fun p i q hq hi h => ?op, fun a w hw ha hl h => ?dmem⟩
  case ignored =>
    rw [step_write h (accessLegal_register _ ho h8)]
    exact congrArg _ (writeTarget_ignored (s := { s with agenda := rest }) ho hx 8 v)
  case op =>
    have hp : p < s.ports.length := (List.getElem?_eq_some_iff.1 hq).1
    refine ⟨{ q with op := q.op.put i v }, ?_, fun j hj => opRegs_get_put q.op hi hj v, rfl⟩
    rw [step_write h (accessLegal_register _ (by omega) (by omega)), targetOf_op hp hn hi, writeTarget]
    exact congrArg _ (updatePort_eq_set (s := { s with agenda := rest }) hq _)
  case dmem =>
    have hlegal : accessLegal { s with agenda := rest } (0x100000 + a) w = true := accessLegal_dmem _ hw ha hl
    refine ⟨State.setMem { s with agenda := rest } (memWrite s.dmem a w v.toNat), ?_, rfl, fun x hx => ?_, fun k hk => ?_⟩
    · rw [step_write h hlegal, targetOf_dmem, writeTarget]
    · rw [setMem_dmem, byte_memWrite, if_neg hx]
    · rw [setMem_dmem, streamBit_memWrite _ _ _ _ _ hk]
      rfl

end Sys2Proof.Machine
end

section
/-! PROOF. The datatype commands (41_datatype.md R110 to R115), the codes R85 calls valid, and the lane formats
(30_encoding.md R86). -/

namespace Sys2Proof.Machine

variable {s : State}

/-! ### The DTYPE check -/

theorem issued_checked (hs : Issued s) (o : Host.Outcome State Fault Refusal) : checked s o = o :=
  checked_of_littleEndian hs.littleEndian

theorem withDescriptor_valid {d : DType} (h : dtypeValid d = true)
    (k : Descriptor → Host.Outcome State Fault Refusal) : withDescriptor s d k = k (describe d) := by
  simp [withDescriptor, h]

theorem withDescriptor_invalid {d : DType} (h : dtypeValid d = false)
    (k : Descriptor → Host.Outcome State Fault Refusal) : withDescriptor s d k = .next (s.raiseError .config) := by
  simp [withDescriptor, failWith, h]

/-- The two checks in front of a command on a valid code pass. -/
theorem checked_descriptor (hs : Issued s) {d : DType} (h : dtypeValid d = true)
    (k : Descriptor → Host.Outcome State Fault Refusal) : checked s (withDescriptor s d k) = k (describe d) :=
  (issued_checked hs _).trans (withDescriptor_valid h k)

theorem checked_descriptor_invalid (hs : Issued s) {d : DType} (h : dtypeValid d = false)
    (k : Descriptor → Host.Outcome State Fault Refusal) :
    checked s (withDescriptor s d k) = .next (s.raiseError .config) :=
  (issued_checked hs _).trans (withDescriptor_invalid h k)

/-- R85's table as `dtypeValid` has it. -/
theorem dtypeValid_iff (d : DType) :
    dtypeValid d = true ↔
      (d.kind = .uint ∧ 1 ≤ d.width ∧ d.width ≤ 64 ∧ d.frac = 0) ∨
      (d.kind = .int ∧ 1 ≤ d.width ∧ d.width ≤ 64 ∧ d.frac = 0) ∨
      (d.kind = .fixed ∧ 1 ≤ d.width ∧ d.width ≤ 64 ∧ d.frac ≤ d.width - 1) ∨
      (d.kind = .float32 ∧ d.width = 32 ∧ d.frac = 0) ∨ (d.kind = .binary ∧ d.width = 1 ∧ d.frac = 0) ∨
      (d.kind = .ternary ∧ d.width = 2 ∧ d.frac = 0) ∨ (d.kind = .bipolar ∧ d.width = 1 ∧ d.frac = 0) := by
  rcases d with ⟨k, w, f⟩
  cases k <;> simp [dtypeValid]

/-- Settles O22: the table, and the DTYPE check that every one of the five commands makes. -/
theorem invalidDatatypeIsConfig : Obligations.InvalidDatatypeIsConfig := by
  intro d
  refine ⟨dtypeValid_iff d, fun s fmt hs hv i hi => ?_⟩
  have hd : dtypeValid d = false := Bool.eq_false_iff.2 fun h => hv ((dtypeValid_iff d).1 h)
  simp only [List.mem_cons, List.not_mem_nil, or_false] at hi
  rcases hi with rfl | rfl | rfl | rfl | rfl <;> exact checked_descriptor_invalid hs hd _

/-! ### DT_INFO, DT_RANGE, DT_REQELEMS -/

/-- A command that completes over the state as it stands changes no slot and no byte. -/
theorem done_query (hs : Issued s) (r : Bool) (a b : Nat) :
    ∃ t, done s r a b = .next t ∧ Completes s t r a b ∧ KeepsSlotsAndMem s t :=
  ⟨_, rfl, complete_completes r a b hs.exists_port, fun _ => rfl, rfl, rfl, rfl, rfl⟩

/-- Settles O23: R110's table row by row. -/
theorem dtInfoReportsTheDescriptor : Obligations.DtInfoReportsTheDescriptor := by
  intro s d hs hd
  obtain ⟨t, ht, hc, hk⟩ := done_query hs true (describe d).w (infoFlags (describe d))
  refine ⟨t, _, _, (checked_descriptor hs hd _).trans ht, hc, hk, ?_⟩
  rcases d with ⟨k, w, f⟩
  cases k with
  | reserved => simp [dtypeValid] at hd
  | _ => simp [describe, infoFlags]

/-- A bound of an INT as a 64-bit pattern: below 0 it is taken modulo 2^64 (R112). -/
theorem bitsOf_neg {x : Nat} (h0 : 0 < x) (h : x ≤ 2 ^ 64) : bitsOf 64 (-(x : Int)) = 2 ^ 64 - x := by
  have hc := bitsOf_cast 64 (-(x : Int))
  rw [← Int.add_emod_right, Int.emod_eq_of_lt (by omega) (by omega)] at hc
  omega

theorem bitsOf_of_lt {x : Nat} (h : x < 2 ^ 64) : bitsOf 64 (x : Int) = x := by
  rw [bitsOf_natCast, Nat.mod_eq_of_lt h]

/-- The largest n-bit value as a 64-bit pattern. -/
theorem bitsOf_two_pow_sub_one {n : Nat} (h : n ≤ 64) : bitsOf 64 (2 ^ n - 1) = 2 ^ n - 1 := by
  have hpos : 1 ≤ 2 ^ n := Nat.one_le_two_pow
  have hle : 2 ^ n ≤ 2 ^ 64 := Nat.pow_le_pow_right (by decide) h
  have hcast : ((2 : Int) ^ n - 1) = ((2 ^ n - 1 : Nat) : Int) := by push_cast [hpos]; ring
  rw [hcast, bitsOf_of_lt (by omega)]

theorem bitsOf_neg_two_pow {n : Nat} (h : n ≤ 64) : bitsOf 64 (-2 ^ n) = 2 ^ 64 - 2 ^ n := by
  have hle : 2 ^ n ≤ 2 ^ 64 := Nat.pow_le_pow_right (by decide) h
  have := bitsOf_neg (Nat.two_pow_pos n) hle
  rwa [Nat.cast_pow, Nat.cast_ofNat] at this

/-- A bound in an integer lane is a 64-bit two's complement integer (R112). -/
theorem laneValue64_integer {L : LaneFmt} (h : L ≠ .f32 ∧ L ≠ .f64) (v : Dyadic) : laneValue64 L v = bitsOf 64 v.num := by
  cases L <;> simp_all [laneValue64]

theorem outlane_uint (D : Descriptor) (h : D.kind = .uint) :
    outlane D = if D.w ≤ 8 then .u8 else if D.w ≤ 16 then .u16 else if D.w ≤ 32 then .u32 else .u64 := by
  simp [outlane, h]

theorem outlane_int (D : Descriptor) (h : D.kind = .int) :
    outlane D = if D.w ≤ 8 then .s8 else if D.w ≤ 16 then .s16 else if D.w ≤ 32 then .s32 else .s64 := by
  simp [outlane, h]

/-- UINT and INT fields have an integer lane (R152). -/
theorem outlane_integer {D : Descriptor} (h : D.kind = .uint ∨ D.kind = .int) :
    outlane D ≠ .f32 ∧ outlane D ≠ .f64 := by
  rcases h with h | h
  · rw [outlane_uint D h]; split_ifs <;> decide
  · rw [outlane_int D h]; split_ifs <;> decide

/-- The largest finite binary32 value and its negative are their own patterns (R114, log 11). -/
theorem rne32_float32_max : rne32 (2 ^ 24 - 1) 104 = 0x7F7FFFFF := by decide

theorem rne32_float32_min : rne32 (-(2 ^ 24 - 1)) 104 = 0xFF7FFFFF := by decide

/-- Settles O24: R114's table row by row, each bound in the lane format of its kind. -/
theorem dtRangeReportsTheBounds : Obligations.DtRangeReportsTheBounds := by
  intro s d hs hd
  obtain ⟨t, ht, hc, hk⟩ := done_query hs true (laneValue64 (outlane (describe d)) (describe d).min)
    (laneValue64 (outlane (describe d)) (describe d).max)
  refine ⟨t, _, _, (checked_descriptor hs hd _).trans ht, hc, hk, ?_⟩
  rcases d with ⟨k, w, f⟩
  cases k with
  | uint =>
    have hw : w ≤ 64 := (describe_w hd).2
    have hi : outlane (describe ⟨.uint, w, f⟩) ≠ .f32 ∧ outlane (describe ⟨.uint, w, f⟩) ≠ .f64 :=
      outlane_integer (.inl rfl)
    refine .inl ⟨rfl, ?_, ?_⟩ <;> rw [laneValue64_integer hi]
    · rfl
    · exact bitsOf_two_pow_sub_one hw
  | int =>
    have hw : w - 1 ≤ 64 := (Nat.sub_le _ _).trans (describe_w hd).2
    have hi : outlane (describe ⟨.int, w, f⟩) ≠ .f32 ∧ outlane (describe ⟨.int, w, f⟩) ≠ .f64 :=
      outlane_integer (.inr rfl)
    refine .inr (.inl ⟨rfl, ?_, ?_⟩) <;> rw [laneValue64_integer hi]
    · exact bitsOf_neg_two_pow hw
    · exact bitsOf_two_pow_sub_one hw
  | fixed => exact .inr (.inr (.inl ⟨rfl, rfl, rfl⟩))
  | float32 => exact .inr (.inr (.inr (.inl ⟨rfl, rne32_float32_min, rne32_float32_max⟩)))
  | binary => exact .inr (.inr (.inr (.inr (.inl ⟨rfl, rfl, rfl⟩))))
  | ternary => exact .inr (.inr (.inr (.inr (.inr (.inl ⟨rfl, rfl, rfl⟩)))))
  | bipolar => exact .inr (.inr (.inr (.inr (.inr (.inr ⟨rfl, rfl, rfl⟩)))))
  | reserved => simp [dtypeValid] at hd

/-- `ceil(a / u)` is the least count of units of u bits that hold a bits. -/
theorem ceilDiv_least {a u : Nat} (hu : 0 < u) (ha : 0 < a) :
    1 ≤ ceilDiv a u ∧ a ≤ ceilDiv a u * u ∧ (ceilDiv a u - 1) * u < a := by
  have hmod := Nat.mod_lt (a + u - 1) hu
  have hdiv := Nat.div_add_mod (a + u - 1) u
  have hone : 1 ≤ ceilDiv a u := (Nat.one_le_div_iff hu).2 (by omega)
  rw [Nat.sub_one_mul, Nat.mul_comm]
  unfold ceilDiv at hone ⊢
  omega

/-- Settles O25: `ceilDiv_least`, for a field wider than one unit. -/
theorem dtReqelemsCountsUnits : Obligations.DtReqelemsCountsUnits := by
  intro s d hs hd
  obtain ⟨hw, -⟩ := describe_w hd
  refine ⟨fun hu => ?_, fun hu => (checked_descriptor hs hd _).trans (if_neg hu)⟩
  have hpos : 0 < s.port.lop.op0.toNat := by omega
  obtain ⟨t, ht, hc, hk⟩ := done_query hs true
    (if (describe d).w ≤ s.port.lop.op0.toNat then 1 else ceilDiv (describe d).w s.port.lop.op0.toNat) 0
  refine ⟨t, _, (checked_descriptor hs hd _).trans ((if_pos hu).trans ht), hc, hk, ?_⟩
  split
  · simp; omega
  · exact ceilDiv_least hpos hw

/-! ### Lane formats -/

/-- A fields' value of a pattern with the sign as a factor. -/
theorem isReal_fin {neg mag : Nat} (h : neg < 2) (exp : Int) :
    FVal.IsReal (.fin (neg == 1) mag exp) ((-1) ^ neg * mag * 2 ^ exp) := by
  interval_cases neg <;> simp [FVal.IsReal]

/-- A signed lane holds the two's complement integer of its pattern (R11). -/
theorem signed_lane {n x : Nat} (hn : 1 ≤ n) (hx : x < 2 ^ n) :
    signed n x % 2 ^ n = x ∧ -2 ^ (n - 1) ≤ signed n x ∧ signed n x < 2 ^ (n - 1) := by
  have hb := bitsOf_cast n (signed n x)
  rw [bitsOf_signed hn hx] at hb
  have := signed_bounds hn hx
  push_cast at hb this
  exact ⟨hb.symm, this⟩

/-- A float pattern by its three fields, as a real (R13, log 11). -/
theorem floatVal_isReal (eb fb : Nat) (heb : 1 < eb) {neg e f : Nat} (hn : neg < 2) (he : e < 2 ^ eb)
    (hf : f < 2 ^ fb) :
    let v := floatVal eb fb (neg * 2 ^ (eb + fb) + e * 2 ^ fb + f)
    (e = 2 ^ eb - 1 → f = 0 → v = .inf (neg == 1)) ∧ (e = 2 ^ eb - 1 → f ≠ 0 → v = .nan) ∧
    (e = 0 → FVal.IsReal v ((-1) ^ neg * f * 2 ^ (2 - 2 ^ (eb - 1) - fb : Int))) ∧
    (0 < e → e < 2 ^ eb - 1 →
      FVal.IsReal v ((-1) ^ neg * (2 ^ fb + f) * 2 ^ ((e : Int) + 1 - 2 ^ (eb - 1) - fb))) := by
  obtain ⟨hinf, hnan, hsub, hnorm⟩ := floatVal_fields eb fb hn he hf
  have hlarge : 2 ^ 1 < 2 ^ eb := Nat.pow_lt_pow_right (by decide) heb
  refine ⟨hinf, hnan, fun h0 => ?_, fun hlo hhi => ?_⟩
  · rw [hsub h0 (by omega)]
    exact isReal_fin hn _
  · rw [hnorm hlo hhi]
    have := isReal_fin hn (mag := 2 ^ fb + f) ((e : Int) + 1 - 2 ^ (eb - 1) - fb)
    push_cast at this
    exact this

/-- Settles O60: the tables by evaluation, the signed lanes by `signed_lane`, the float lanes by `floatVal_isReal`. -/
theorem laneFormatsFollowTheirTable : Obligations.LaneFormatsFollowTheirTable := by
  refine ⟨by decide, fun x L hL => ?_, fun x L hL hx => ?_, fun neg e f hn he hf => ?_, fun neg e f hn he hf => ?_⟩
  · simp only [List.mem_cons, List.not_mem_nil, or_false] at hL
    rcases hL with rfl | rfl | rfl | rfl <;> rfl
  · simp only [List.mem_cons, List.not_mem_nil, or_false] at hL
    rcases hL with rfl | rfl | rfl | rfl
    · exact ⟨_, rfl, signed_lane (by decide) hx⟩
    · exact ⟨_, rfl, signed_lane (by decide) hx⟩
    · exact ⟨_, rfl, signed_lane (by decide) hx⟩
    · exact ⟨_, rfl, signed_lane (by decide) hx⟩
  · obtain ⟨hinf, hnan, hsub, hnorm⟩ := floatVal_isReal 8 23 (by decide) hn he hf
    refine ⟨_, rfl, hinf, hnan, hsub, fun hlo hhi => ?_⟩
    have := hnorm hlo hhi
    norm_num at this
    ring_nf at this ⊢
    exact this
  · obtain ⟨hinf, hnan, hsub, hnorm⟩ := floatVal_isReal 11 52 (by decide) hn he hf
    refine ⟨_, rfl, hinf, hnan, hsub, fun hlo hhi => ?_⟩
    have := hnorm hlo hhi
    norm_num at this
    ring_nf at this ⊢
    exact this

end Sys2Proof.Machine
end

section
/-! PROOF. The bit accumulator commands (43_bitacc.md R170 to R178): the slot check, then one completion over one change of
the machine. -/

namespace Sys2Proof.Machine

variable {s : State}

/-- A completion over a state in which DMEM, the slots or the draws have changed is a completion of the command. -/
theorem SlotsOnly.completes {s' : State} (h : SlotsOnly s s') (hcur : s.cur < s.ports.length) (r : Bool) (a b : Nat) :
    Completes s (s'.complete r a b) r a b :=
  (complete_completes r a b (h.cur_lt hcur)).of_base h.ports h.cfg h.gstatus h.cur h.agenda h.tick h.hostData

theorem slotsOnly_setAcc (s : State) (k : Nat) (a : AccSlot) : SlotsOnly s (s.setAcc k a) :=
  ⟨rfl, rfl, rfl, rfl, rfl, rfl, rfl⟩

theorem slotsOnly_setMem (s : State) (m : Memory) : SlotsOnly s (s.setMem m) := ⟨rfl, rfl, rfl, rfl, rfl, rfl, rfl⟩

theorem slotsOnly_setMem_setAcc (s : State) (m : Memory) (k : Nat) (a : AccSlot) :
    SlotsOnly s ((s.setMem m).setAcc k a) := ⟨rfl, rfl, rfl, rfl, rfl, rfl, rfl⟩

/-! ### The slot check (R170) -/

section SlotCheck

variable {k : Nat} {f : AccSlot → Host.Outcome State Fault Refusal}

theorem checked_withAcc_live (hs : Issued s) {a : AccSlot} (ha : s.accs[k]? = some a) (hl : a.state = .live) :
    checked s (withAcc s k f) = f a := (issued_checked hs _).trans (withAcc_live ha hl f)

theorem withAcc_not_live (h : ∀ a, s.accs[k]? = some a → a.state ≠ .live) :
    withAcc s k f = .next (s.raiseError .slot) := by
  rcases withAcc_cases s k f with ⟨-, e⟩ | ⟨a, ha, hl, -⟩
  · exact e
  · exact (h a ha hl).elim

theorem checked_withAcc_not_live (hs : Issued s) (h : ∀ a, s.accs[k]? = some a → a.state ≠ .live) :
    checked s (withAcc s k f) = .next (s.raiseError .slot) := (issued_checked hs _).trans (withAcc_not_live h)

theorem checked_withAccSlot_some (hs : Issued s) (h : k < s.accs.length) :
    checked s (withAccSlot s k f) = f s.accs[k] :=
  (issued_checked hs _).trans (withAccSlot_some (List.getElem?_eq_getElem h) f)

theorem checked_withAccSlot_none (hs : Issued s) (h : s.accs.length ≤ k) :
    checked s (withAccSlot s k f) = .next (s.raiseError .slot) :=
  (issued_checked hs _).trans (withAccSlot_none (List.getElem?_eq_none h) f)

end SlotCheck

/-! ### The commands -/

/-- Settles O39: the slot, then the size, then the zeroed slot. -/
theorem accNewMakesAZeroedSlot : Obligations.AccNewMakesAZeroedSlot := by
  intro s hs
  refine ⟨fun h => checked_withAccSlot_none hs h,
    fun h hbits => (checked_withAccSlot_some hs h).trans (if_pos hbits), fun h hbits => ?_⟩
  refine ⟨_, _, (checked_withAccSlot_some hs h).trans (if_neg (not_lt.2 hbits)),
    (slotsOnly_setAcc s _ _).completes hs.exists_port _ _ _, rfl, rfl, List.length_replicate, bitAt_replicate _,
    fun _ => rfl, rfl, rfl, rfl⟩

/-- Settles O40: `bitAt_orBit`. -/
theorem accSetbitSetsOneBit : Obligations.AccSetbitSetsOneBit := by
  intro s hs
  refine ⟨checked_withAcc_not_live hs, fun a ha hl => ?_⟩
  exact ⟨_, orBit a.bytes s.port.lop.op1.toNat, checked_withAcc_live hs ha hl,
    (slotsOnly_setAcc s _ _).completes hs.exists_port _ _ _, rfl, orBit_length _ _, bitAt_orBit _ _, fun _ => rfl, rfl,
    rfl, rfl⟩

/-- Settles O41: `bitAt_orBits`. -/
theorem accSetbitsOrsTheValueIn : Obligations.AccSetbitsOrsTheValueIn := by
  intro s hs
  refine ⟨checked_withAcc_not_live hs, fun a ha hl => ⟨fun hw => ?_, fun hw => ?_⟩⟩
  · exact (checked_withAcc_live hs ha hl).trans (if_neg hw)
  · exact ⟨_, orBits a.bytes s.port.lop.op1.toNat s.port.lop.op2.toNat s.port.lop.op3.toNat,
      (checked_withAcc_live hs ha hl).trans (if_pos hw), (slotsOnly_setAcc s _ _).completes hs.exists_port _ _ _, rfl,
      orBits_length _ _ _ _, bitAt_orBits _ _ _ _, fun _ => rfl, rfl, rfl, rfl⟩

/-- Settles O42: the two slot checks, the lengths, and the laws of the byte-wise OR. -/
theorem accOrmergeOrsBytes : Obligations.AccOrmergeOrsBytes := by
  refine ⟨fun s hs => ⟨fun h => ?_, fun a b ha hla hb hlb => ⟨fun hne => ?_, fun heq => ?_⟩⟩, fun a b hlen => ?_⟩
  · rcases withAcc_cases s s.port.lop.op0.toNat fun d => withAcc s s.port.lop.op1.toNat fun src =>
        if d.nbytes ≠ src.nbytes then failWith s .shape
        else done (s.setAcc s.lop.op0.toNat { d with bytes := orBytes d.bytes src.bytes }) true 0 0
      with ⟨-, e⟩ | ⟨d, hd, hl, e⟩
    · exact (issued_checked hs _).trans e
    · exact (issued_checked hs _).trans (e.trans (withAcc_not_live (h.resolve_left fun hn => hn d hd hl)))
  · exact (checked_withAcc_live hs ha hla).trans ((withAcc_live hb hlb _).trans (if_pos hne))
  · exact ⟨_, (checked_withAcc_live hs ha hla).trans ((withAcc_live hb hlb _).trans (if_neg (not_not.2 heq))),
      (slotsOnly_setAcc s _ _).completes hs.exists_port _ _ _, rfl, fun _ => rfl, rfl, rfl, rfl⟩
  · exact ⟨orBytes_length a b hlen, bitAt_orBytes a b hlen, orBytes_comm a b, orBytes_assoc a b⟩

/-- A run of bytes written inside its range leaves every other byte as it was. -/
theorem keepsMemOutside_writeBytes {t : State} {a n : Nat} {l : List Byte} (ht : t.dmem = writeBytes s.dmem a l)
    (hl : l.length = n) : KeepsMemOutside s t a n := by
  intro x hx
  rw [ht, byte_writeBytes, if_neg (hl ▸ hx)]

theorem byte_writeBytes_at (m : Memory) (a : Nat) (l : List Byte) {i : Nat} (hi : i < l.length) :
    (writeBytes m a l).byte (a + i) = l.getD i 0 := by
  rw [byte_writeBytes, if_pos (by omega), Nat.add_sub_cancel_left]

/-- Settles O43: the bytes of the slot, written at dst. -/
theorem accTobytesMovesTheBytesOut : Obligations.AccTobytesMovesTheBytesOut := by
  intro s hs
  refine ⟨checked_withAcc_not_live hs, fun a ha hl => ⟨fun hout => ?_, fun hin => ?_⟩⟩
  · exact (checked_withAcc_live hs ha hl).trans (if_pos (not_le.2 hout))
  · exact ⟨_, _, (checked_withAcc_live hs ha hl).trans (if_neg (not_not.2 hin)),
      (slotsOnly_setMem_setAcc s _ _ _).completes hs.exists_port _ _ _, rfl, rfl, keepsMemOutside_writeBytes rfl rfl,
      fun i hi => byte_writeBytes_at _ _ _ hi, rfl, rfl, rfl⟩

/-- Settles O44: the characters of `bitString`, written at dst. -/
theorem accBitstrWritesMsbFirst : Obligations.AccBitstrWritesMsbFirst := by
  intro s hs
  refine ⟨checked_withAcc_not_live hs, fun a ha hl => ⟨fun hout => ?_, fun hin => ?_⟩⟩
  · exact (checked_withAcc_live hs ha hl).trans (if_pos (not_le.2 hout))
  · refine ⟨_, (checked_withAcc_live hs ha hl).trans (if_neg (not_not.2 hin)),
      (slotsOnly_setMem s _).completes hs.exists_port _ _ _,
      keepsMemOutside_writeBytes rfl (bitString_length _), fun i hi => ?_, rfl, rfl, rfl, rfl⟩
    exact (byte_writeBytes_at _ _ _ (by rwa [bitString_length])).trans (getD_bitString _ _ hi)

end Sys2Proof.Machine
end

section
/-! PROOF. The tensor view commands (44_tensorview.md R190 to R197). -/

namespace Sys2Proof.Machine

variable {s : State}

/-! ### The slot check (R190) -/

section SlotCheck

variable {k : Nat} {f : TvSlot → Host.Outcome State Fault Refusal}

theorem checked_withTv_live (hs : Issued s) {v : TvSlot} (hv : s.tvs[k]? = some v) (hl : v.state = .live) :
    checked s (withTv s k f) = f v := (issued_checked hs _).trans (withTv_live hv hl f)

theorem checked_withTv_not_live (hs : Issued s) (h : ∀ v, s.tvs[k]? = some v → v.state ≠ .live) :
    checked s (withTv s k f) = .next (s.raiseError .slot) := by
  rcases withTv_cases s k f with ⟨-, e⟩ | ⟨v, hv, hl, -⟩
  · exact (issued_checked hs _).trans e
  · exact (h v hv hl).elim

theorem checked_withTvSlot_some (hs : Issued s) (h : k < s.tvs.length) :
    checked s (withTvSlot s k f) = f s.tvs[k] :=
  (issued_checked hs _).trans (withTvSlot_some (List.getElem?_eq_getElem h) f)

theorem checked_withTvSlot_none (hs : Issued s) (h : s.tvs.length ≤ k) :
    checked s (withTvSlot s k f) = .next (s.raiseError .slot) := by
  rw [issued_checked hs, withTvSlot, List.getElem?_eq_none h]
  rfl

end SlotCheck

/-- Settles O47: the slot check of each command. -/
theorem tvCommandsCheckTheSlot : Obligations.TvCommandsCheckTheSlot := by
  intro s hs
  refine ⟨fun h => checked_withTvSlot_none hs h, fun h i hi => ?_⟩
  simp only [List.mem_cons, List.not_mem_nil, or_false] at hi
  rcases hi with rfl | rfl | rfl | rfl <;> exact checked_withTv_not_live hs h

/-- Settles O48: each query answers from the view, over the state as it stands. -/
theorem tvQueriesAnswer : Obligations.TvQueriesAnswer := by
  intro s v hs hv hl
  refine ⟨?_, fun hi => (checked_withTv_live hs hv hl).trans (if_pos hi), fun hi => ?_,
    fun hi => (checked_withTv_live hs hv hl).trans (if_pos hi), fun hi => ?_⟩
  · obtain ⟨t, ht, hc⟩ := done_query hs true v.nslices v.inner
    exact ⟨t, (checked_withTv_live hs hv hl).trans ht, hc⟩
  · obtain ⟨t, ht, hc⟩ := done_query hs true (v.first.toNat + s.port.lop.op1.toNat * v.inner) v.inner
    exact ⟨t, (checked_withTv_live hs hv hl).trans ((if_neg (not_le.2 hi)).trans ht), hc⟩
  · obtain ⟨t, ht, hc⟩ := done_query hs true (v.stride.getD s.port.lop.op1.toNat 0) (v.shape.getD s.port.lop.op1.toNat 0)
    exact ⟨t, (checked_withTv_live hs hv hl).trans ((if_neg (not_le.2 hi)).trans ht), hc⟩

/-! ### Installing a shape -/

section ShapeLoad

variable {addr rank : Nat} {f : List Nat → Host.Outcome State Fault Refusal}

theorem shapeLoad_rank_zero (h : rank = 0) : shapeLoad s addr rank f = .next (s.raiseError .shape) := if_pos h

theorem shapeLoad_rank_large (h0 : rank ≠ 0) (h : s.cfg.tvMaxRank < rank) :
    shapeLoad s addr rank f = .next (s.raiseError .config) := (if_neg h0).trans (if_pos h)

theorem shapeLoad_addr (h0 : rank ≠ 0) (hr : rank ≤ s.cfg.tvMaxRank) (h : s.cfg.dmemBytes < addr + 8 * rank) :
    shapeLoad s addr rank f = .next (s.raiseError .addr) :=
  (if_neg h0).trans ((if_neg (not_lt.2 hr)).trans (if_pos (not_le.2 h)))

/-- The last check of `shapeload`: a dimension of 0 is SHAPE, and every other shape is taken. -/
theorem shapeLoad_shape (h0 : rank ≠ 0) (hr : rank ≤ s.cfg.tvMaxRank) (ha : addr + 8 * rank ≤ s.cfg.dmemBytes) :
    shapeLoad s addr rank f =
      if 0 ∈ readLanes s.dmem addr 8 rank then .next (s.raiseError .shape) else f (readLanes s.dmem addr 8 rank) := by
  rw [shapeLoad, if_neg h0, if_neg (not_lt.2 hr), if_neg (not_not.2 ha)]
  simp only [List.any_beq', List.contains_iff_mem, failWith]

end ShapeLoad

/-- What TV_NEW and TV_SETSHAPE do with the shape they have read, for the range [first, last) (R191, R192). -/
def installShape (s : State) (first last : Word) (sh : List Nat) : Host.Outcome State Fault Refusal :=
  if last.toNat < first.toNat ∨ dimProduct sh ≠ last.toNat - first.toNat then failWith s .shape
  else
    done (s.setTv s.lop.op0.toNat (TvSlot.ofShape first last sh)) true (TvSlot.ofShape first last sh).nslices
      (TvSlot.ofShape first last sh).inner

/-- TV_NEW with a slot in range. -/
theorem execTvNew_eq (hs : Issued s) (h : s.port.lop.op0.toNat < s.tvs.length) :
    execTvNew s =
      shapeLoad s s.lop.op3.toNat s.lop.op4.toNat (installShape s s.port.lop.op1 s.port.lop.op2) := by
  refine (checked_withTvSlot_some hs h).trans (congrArg _ (funext fun sh => ?_))
  unfold installShape
  by_cases hlt : s.port.lop.op2.toNat < s.port.lop.op1.toNat
  · exact (if_pos hlt).trans (if_pos (Or.inl hlt)).symm
  · simp only [hlt, false_or]
    exact if_neg hlt

/-- TV_SETSHAPE on a LIVE view whose range is not reversed. -/
theorem execTvSetshape_eq (hs : Issued s) {v : TvSlot} (hv : s.tvs[s.port.lop.op0.toNat]? = some v)
    (hl : v.state = .live) (hle : v.first.toNat ≤ v.last.toNat) :
    execTvSetshape s = shapeLoad s s.lop.op3.toNat s.lop.op4.toNat (installShape s v.first v.last) := by
  refine (checked_withTv_live hs hv hl).trans (congrArg _ (funext fun sh => ?_))
  simp only [installShape, not_lt.2 hle, false_or]
  rfl

theorem slotsOnly_setTv (s : State) (k : Nat) (v : TvSlot) : SlotsOnly s (s.setTv k v) :=
  ⟨rfl, rfl, rfl, rfl, rfl, rfl, rfl⟩

/-- The number of slices of a view whose shape fills its range: the product of the outer dimensions (R34, R191). -/
theorem nslices_ofShape {first last : Word} {sh : List Nat} (hne : sh ≠ []) (h0 : 0 ∉ sh)
    (hprod : dimProduct sh = last.toNat - first.toNat) :
    (TvSlot.ofShape first last sh).nslices = dimProduct sh.dropLast := by
  have hpos : 0 < (TvSlot.ofShape first last sh).inner :=
    TvSlot.inner_pos hne fun d hd => Nat.pos_of_ne_zero (by rintro rfl; exact h0 hd)
  have hext : (TvSlot.ofShape first last sh).extent = dimProduct sh := hprod.symm
  rw [TvSlot.nslices, hext, dimProduct_inner hne]
  exact Nat.mul_div_cancel _ hpos

/-- Settles O46: both commands are `shapeload` and then `installShape`. -/
theorem tvNewAndSetshapeInstallTheShape : Obligations.TvNewAndSetshapeInstallTheShape := by
  intro s i first last hs k addr rank sh hi
  have he : exec i s = shapeLoad s addr rank (installShape s first last) := by
    rcases hi with ⟨rfl, hk, rfl, rfl⟩ | ⟨rfl, v, hv, hl, rfl, rfl, hle⟩
    · exact execTvNew_eq hs hk
    · exact execTvSetshape_eq hs hv hl hle
  rw [he]
  refine ⟨shapeLoad_rank_zero, shapeLoad_rank_large, shapeLoad_addr, fun h0 hr ha hbad => ?_,
    fun h0 hr ha hz hle hprod => ?_⟩
  · rw [shapeLoad_shape h0 hr ha]
    split
    · rfl
    · exact if_pos (hbad.resolve_left ‹_›)
  · have hlen : sh.length = rank := readLanes_length _ _ _ _
    have hne : sh ≠ [] := by rintro e; rw [e] at hlen; exact h0 hlen.symm
    refine ⟨_, TvSlot.ofShape first last sh,
      (shapeLoad_shape h0 hr ha).trans ((if_neg hz).trans (if_neg (not_or.2 ⟨not_lt.2 hle, not_not.2 hprod⟩))), ?_, rfl,
      rfl, rfl, rfl, rfl, (strides_length sh).trans hlen, fun j hj => getD_strides sh j (hlen ▸ hj), fun _ => rfl, rfl,
      rfl, rfl⟩
    rw [nslices_ofShape hne hz hprod]
    exact (slotsOnly_setTv s _ _).completes hs.exists_port _ _ _

end Sys2Proof.Machine
end

section
/-! PROOF. The ring commands (45_ringbuffer.md R210 to R237): what a step is in each phase and mode, and then the effect of
each command. -/

namespace Sys2Proof.Machine

variable {s : State}

/-! ### One step in each phase and mode -/

theorem setRing_setRing (s : State) (k : Nat) (r r' : RingSlot) : (s.setRing k r).setRing k r' = s.setRing k r' := by
  simp only [State.setRing, List.set_set]

/-- A command's condition by its parts and by R214 to R219. -/
theorem cond_iff {i : Instr} {op : RingOp} {blk : Bool} (hi : ringOpOf i = some (op, blk)) (s : State) (r : RingSlot) :
    op.cond s r = true ↔ CondHolds i s.lop r := by
  rw [← (commandReady_ring hi s r).1, commandReady_iff]

section Step

variable {op : RingOp} {blk : Bool} {r : RingSlot}

/-- The first step on an MT ring whose checks pass (R230, R231). -/
theorem ringStep_issued_mt (hph : s.port.phase = .issued) (hc : s.gstatus.cfgerr = false)
    (hr : s.rbs[s.lop.op0.toNat]? = some r) (hl : r.state = .live) (hpre : op.pre s r = none) (hm : r.mode = .mt) :
    ringStep op blk s = .next (if op.cond s r then op.effect s s.lop.op0.toNat r
      else if blk then s.enterPhase .waiting true else ringFail s r) := by
  simp only [ringStep, hph, ringIssue, checked_of_littleEndian hc, withRing_live hr hl, hpre, hm]
  split_ifs <;> rfl

/-- The first step on an ST ring that nobody owns takes it (R235). -/
theorem ringStep_issued_st_free (hph : s.port.phase = .issued) (hc : s.gstatus.cfgerr = false)
    (hr : s.rbs[s.lop.op0.toNat]? = some r) (hl : r.state = .live) (hpre : op.pre s r = none) (hm : r.mode = .st)
    (ho : r.owner = none) :
    ringStep op blk s = .next ((s.setRing s.lop.op0.toNat { r with owner := some s.cur }).enterPhase .held
      (blk && !op.cond s r)) := by
  simp only [ringStep, hph, ringIssue, checked_of_littleEndian hc, withRing_live hr hl, hpre, hm, ho]

/-- The first step on an ST ring that has an owner is the RACE fault (R236). -/
theorem ringStep_issued_st_owned (hph : s.port.phase = .issued) (hc : s.gstatus.cfgerr = false)
    (hr : s.rbs[s.lop.op0.toNat]? = some r) (hl : r.state = .live) (hpre : op.pre s r = none) (hm : r.mode = .st)
    {p : Nat} (ho : r.owner = some p) : ringStep op blk s = .next (raceFault s s.lop.op0.toNat r) := by
  simp only [ringStep, hph, ringIssue, checked_of_littleEndian hc, withRing_live hr hl, hpre, hm, ho]

/-- The ring as the step that performs a command finds it: an ST ring is released (R235). -/
def releasedRing (s : State) (r : RingSlot) : RingSlot := { r with owner := ownerAfter s r }

/-- The state in which a command performs. -/
def releasedState (s : State) (r : RingSlot) : State := s.setRing s.lop.op0.toNat (releasedRing s r)

theorem releasedRing_held (hph : s.port.phase = .held) : releasedRing s r = { r with owner := none } := by
  simp [releasedRing, ownerAfter, hph]

theorem releasedRing_of_ne_held (hph : s.port.phase ≠ .held) : releasedRing s r = r := by
  simp [releasedRing, ownerAfter, hph]

theorem releasedState_of_ne_held (hr : s.rbs[s.lop.op0.toNat]? = some r) (hph : s.port.phase ≠ .held) :
    releasedState s r = s := by
  rw [releasedState, releasedRing_of_ne_held hph, setRing_self hr]

/-- The step in which a command performs, its condition true: at once, on waking, or in step 2 (R230, R232, R235). -/
theorem ringStep_performs (h : Performs s r) (hr : s.rbs[s.lop.op0.toNat]? = some r) (hpre : op.pre s r = none)
    (hc : op.cond s r = true) :
    ringStep op blk s = .next (op.effect (releasedState s r) s.lop.op0.toNat (releasedRing s r)) := by
  obtain ⟨hl, ⟨hph, hcfg, hm⟩ | hph | hph⟩ := h
  · rw [releasedState_of_ne_held hr (by simp [hph]), releasedRing_of_ne_held (by simp [hph]),
      ringStep_issued_mt hph hcfg hr hl hpre hm, if_pos hc]
  · rw [releasedState_of_ne_held hr (by simp [hph]), releasedRing_of_ne_held (by simp [hph]), ringStep_waiting hph hr,
      if_pos hc]
  · rw [releasedState, releasedRing_held hph, ringStep_held hph hr]
    simp [hl, hc]

/-- The same step of a command that does not block, its condition false (R231, R235). -/
theorem ringStep_performs_false (h : Performs s r) (hw : s.port.phase ≠ .waiting)
    (hr : s.rbs[s.lop.op0.toNat]? = some r) (hpre : op.pre s r = none) (hc : op.cond s r = false) :
    ringStep op false s = .next (ringFail (releasedState s r) (releasedRing s r)) := by
  obtain ⟨hl, ⟨hph, hcfg, hm⟩ | hph | hph⟩ := h
  · rw [releasedState_of_ne_held hr (by simp [hph]), releasedRing_of_ne_held (by simp [hph]),
      ringStep_issued_mt hph hcfg hr hl hpre hm]
    simp [hc]
  · exact (hw hph).elim
  · rw [releasedState, releasedRing_held hph, ringStep_held hph hr]
    simp [hl, hc]

end Step

theorem slotsOnly_setMem_setRing (s : State) (m : Memory) (k : Nat) (r : RingSlot) :
    SlotsOnly s ((s.setMem m).setRing k r) := ⟨rfl, rfl, rfl, rfl, rfl, rfl, rfl⟩

/-! ### RB_NEW -/

/-- The ring RB_NEW makes of its operands (R213). -/
def freshRing (s : State) : RingSlot where
  state := .live
  mode := if s.port.lop.op3.toNat = 1 then .mt else .st
  parts := s.port.lop.op1.toNat
  epp := s.port.lop.op2.toNat
  ebytes := s.port.lop.op4.toNat
  store := List.replicate (s.port.lop.op1.toNat * s.port.lop.op2.toNat) 0
  rd := 0
  occ := 0
  owner := none

/-- RB_NEW on a FREE slot: the four checks on the operands, then the ring (R213). -/
theorem execRbNew_free (hs : Issued s) {r : RingSlot} (hr : s.rbs[s.port.lop.op0.toNat]? = some r)
    (hf : r.state = .free) :
    execRbNew s =
      if ¬ (s.port.lop.op3.toNat = 0 ∨ s.port.lop.op3.toNat = 1) then failWith s .config
      else if ¬ (s.port.lop.op4.toNat = 1 ∨ s.port.lop.op4.toNat = 2 ∨ s.port.lop.op4.toNat = 4 ∨
        s.port.lop.op4.toNat = 8) then failWith s .config
      else if s.port.lop.op1.toNat * s.port.lop.op2.toNat = 0 then failWith s .config
      else if s.cfg.rbMaxElems < s.port.lop.op1.toNat * s.port.lop.op2.toNat then failWith s .config
      else done (s.setRing s.port.lop.op0.toNat (freshRing s)) true (freshRing s).cap 0 := by
  refine (issued_checked hs _).trans ?_
  dsimp only
  rw [show s.rbs[s.lop.op0.toNat]? = some r from hr]
  exact if_neg (not_not.2 hf)

/-- Settles O50: the checks in their order, and the ring they let through. -/
theorem rbNewMakesAnEmptyRing : Obligations.RbNewMakesAnEmptyRing := by
  intro s hs
  refine ⟨fun h => ?_, fun r hr hf => ⟨fun hbad => ?_, fun ⟨hmode, heb, hz, hmax⟩ => ?_⟩⟩
  · refine (issued_checked hs _).trans ?_
    dsimp only
    split
    · rfl
    · exact if_pos (h _ ‹_›)
  · refine (execRbNew_free hs hr hf).trans ?_
    split
    · rfl
    split
    · rfl
    split
    · rfl
    split
    · rfl
    · rename_i hmode heb hz hmax
      exact (hbad ⟨not_not.1 hmode, not_not.1 heb, hz, not_lt.1 hmax⟩).elim
  · refine ⟨(s.setRing s.port.lop.op0.toNat (freshRing s)).complete true (freshRing s).cap 0, freshRing s,
      (execRbNew_free hs hr hf).trans ?_, (slotsOnly_setRing s _ _).completes hs.exists_port _ _ _, rfl, rfl, rfl, rfl,
      rfl, rfl, rfl, rfl, rfl, rfl, rfl, fun _ => rfl, rfl, rfl, rfl⟩
    rw [if_neg (not_not.2 hmode), if_neg (not_not.2 heb), if_neg hz, if_neg (not_lt.2 hmax)]
    rfl

/-! ### Stores and reads -/

/-- RB_STORE's lanes as ring elements. -/
theorem map_readLanes (m : Memory) (a b n : Nat) :
    (readLanes m a b n).map (BitVec.ofNat 64) = (List.range n).map fun j => BitVec.ofNat 64 (memRead m (a + j * b) b) := by
  rw [readLanes, List.map_map]
  rfl

/-- Settles O51: `valid_store` on the ring as the performing step finds it. -/
theorem rbStoreAppends : Obligations.RbStoreAppends := by
  intro s blk r hcur k src len hr hok hperf hpart hrange hroom
  obtain ⟨-, -, -, hst, -⟩ := hok.2 (by rw [hperf.1]; decide)
  have hpre : storeOp.pre s r = none :=
    (pre_eq_none (i := .rbStore blk) (blk := blk) rfl).2 ⟨hpart, (Nat.le_add_left _ _).trans hroom, hrange⟩
  have hstep := ringStep_performs (blk := blk) hperf hr hpre (decide_eq_true hroom)
  have hvalid := valid_store (releasedRing s r) ((readLanes s.dmem src r.ebytes len).map (BitVec.ofNat 64)) hst
    (by rw [List.length_map, readLanes_length]; exact hroom)
  rw [List.length_map, readLanes_length, map_readLanes] at hvalid
  refine ⟨_, { r with
      store := ringPut r.store r.cap (r.rd + r.occ) ((List.range len).map fun j =>
        BitVec.ofNat 64 (memRead s.dmem (src + j * r.ebytes) r.ebytes))
      occ := r.occ + len
      owner := ownerAfter s r }, hstep, ?_, ?_, hvalid, rfl, fun _ => rfl, rfl, rfl, rfl⟩
  · exact ((slotsOnly_setRing _ _ _).completes (s := releasedState s r) hcur true len (r.occ + len)).of_base rfl rfl rfl
      rfl rfl rfl rfl
  · rw [← map_readLanes]
    exact List.set_set ..

/-- Writing lanes leaves every byte outside their range as it was. -/
theorem keepsMemOutside_writeLanes {t : State} {a b n : Nat} {l : List Nat} (ht : t.dmem = writeLanes s.dmem a b l)
    (hl : l.length = n) : KeepsMemOutside s t a (n * b) := by
  intro x hx
  rw [ht, byte_writeLanes_outside _ _ _ _ _ (hl ▸ hx)]

/-- Elements taken from a ring and written as lanes: lane j is the j-th oldest element, cut to the lane. -/
theorem memRead_ringTake {m : Memory} {r : RingSlot} {n a j : Nat} (hn : n ≤ r.occ) (hj : j < n) :
    memRead (writeLanes m a r.ebytes ((ringTake r r.rd n).map BitVec.toNat)) (a + j * r.ebytes) r.ebytes =
      (r.valid.getD j 0).toNat % 2 ^ (8 * r.ebytes) := by
  rw [memRead_writeLanes _ _ _ _ _ (by simpa using hj), RingSlot.valid, getD_ringTake _ _ _ _ (hj.trans_le hn)]
  rw [← getD_ringTake r r.rd n j hj]
  simp [List.getD, hj]

/-- Settles O52: `valid_read` takes one part. -/
theorem rbReadRemovesTheOldestPart : Obligations.RbReadRemovesTheOldestPart := by
  intro s blk r hcur k dst hr hok hperf hrange hpart
  have hpre : readOp.pre s r = none := (pre_eq_none (i := .rbRead blk) (blk := blk) rfl).2 hrange
  have hstep := ringStep_performs (blk := blk) hperf hr hpre (decide_eq_true hpart)
  have hvalid := valid_read (releasedRing s r) r.epp hpart
  have htake : r.valid.take r.epp = ringTake r r.rd r.epp := by
    rw [valid_read r r.epp hpart, List.take_left' (ringTake_length _ _ _)]
  refine ⟨_, { r with rd := (r.rd + r.epp) % r.cap, occ := r.occ - r.epp, owner := ownerAfter s r }, hstep, ?_, ?_,
    ?_, rfl, ?_, fun j hj => ?_, rfl, rfl, rfl⟩
  · exact ((slotsOnly_setMem_setRing _ _ _ _).completes (s := releasedState s r) hcur true r.epp (r.occ - r.epp)).of_base
      rfl rfl rfl rfl rfl rfl rfl
  · exact List.set_set ..
  · rw [htake]
    exact hvalid
  · exact keepsMemOutside_writeLanes (l := (ringTake r r.rd r.epp).map BitVec.toNat) rfl (by simp)
  · exact memRead_ringTake hpart hj

/-- Settles O53: `valid_read` takes every element; the range check and the empty ring come before it. -/
theorem rbReadallDrains : Obligations.RbReadallDrains := by
  intro s r hcur k dst hr hok hperf
  have hpre : readallOp.pre s r = none := rfl
  refine ⟨fun hocc hrange => ?_, fun hocc hrange => ?_, fun hocc hw => ?_⟩
  · have hstep := ringStep_performs (op := readallOp) (blk := false) hperf hr hpre (decide_eq_true hocc)
    have heff : readallOp.effect (releasedState s r) k (releasedRing s r) =
        (((releasedState s r).setMem (writeLanes s.dmem dst r.ebytes ((ringTake r r.rd r.occ).map BitVec.toNat))).setRing k
          { r with rd := (r.rd + r.occ) % r.cap, occ := 0, owner := ownerAfter s r }).complete true r.occ 0 :=
      if_neg (not_not.2 hrange)
    refine ⟨_, { r with rd := (r.rd + r.occ) % r.cap, occ := 0, owner := ownerAfter s r },
      hstep.trans (congrArg _ heff), ?_, ?_, rfl, rfl, ?_, fun j hj => ?_, rfl, rfl, rfl⟩
    · exact ((slotsOnly_setMem_setRing _ _ _ _).completes (s := releasedState s r) hcur true r.occ 0).of_base
        rfl rfl rfl rfl rfl rfl rfl
    · exact List.set_set ..
    · exact keepsMemOutside_writeLanes (l := (ringTake r r.rd r.occ).map BitVec.toNat) rfl (by simp)
    · exact memRead_ringTake le_rfl hj
  · have hstep := ringStep_performs (op := readallOp) (blk := false) hperf hr hpre (decide_eq_true hocc)
    exact hstep.trans (congrArg _ (if_pos (not_le.2 hrange)))
  · have hstep := ringStep_performs_false (op := readallOp) hperf hw hr hpre (decide_eq_false (by omega))
    refine ⟨_, hstep, ?_, rfl, fun _ => rfl, rfl, rfl, rfl⟩
    have h : Completes s (ringFail (releasedState s r) (releasedRing s r)) false 0 r.occ :=
      (slotsOnly_setRing s k (releasedRing s r)).completes hcur false 0 r.occ
    rwa [hocc] at h

/-- Settles O54: the effect of a query is its answer. -/
theorem rbQueriesAnswer : Obligations.RbQueriesAnswer := by
  intro s r hcur hr hperf e he
  have answer (f : RingSlot → Nat) (hf : f (releasedRing s r) = f r) :
      ∃ t, ringStep (queryOp f) false s = .next t ∧ Completes s t true (f r) 0 ∧
        t.rbs = s.rbs.set s.port.lop.op0.toNat { r with owner := ownerAfter s r } ∧
        KeepsMem s t ∧ t.accs = s.accs ∧ t.tvs = s.tvs ∧ t.draws = s.draws := by
    refine ⟨_, ringStep_performs hperf hr rfl rfl, ?_, rfl, fun _ => rfl, rfl, rfl, rfl⟩
    have h : Completes s ((queryOp f).effect (releasedState s r) s.lop.op0.toNat (releasedRing s r)) true
        (f (releasedRing s r)) 0 := (slotsOnly_setRing s _ _).completes hcur true _ 0
    rwa [hf] at h
  simp only [List.mem_cons, List.not_mem_nil, or_false] at he
  rcases he with rfl | rfl | rfl
  · exact answer _ rfl
  · exact answer _ rfl
  · have hsize : (if Config.rbSizeUnit = .elements then r.occ else r.occ / r.epp) = ringSize Config.rbSizeUnit r := by
      cases Config.rbSizeUnit <;> rfl
    rw [hsize]
    exact answer (ringSize Config.rbSizeUnit) rfl

/-! ### A false condition on an MT ring -/

/-- Settles O56: `ringStep_issued_mt` and `ringStep_waiting` with the condition false. -/
theorem mtRingFailsOrWaits : Obligations.MtRingFailsOrWaits := by
  intro s blk r hcur k a len hr hl hm i hi
  obtain ⟨op, hop, hpre, hcond⟩ : ∃ op, ringOpOf i = some (op, blk) ∧ op.pre s r = none ∧ op.cond s r = false := by
    rcases hi with ⟨rfl, hpart, hcap, hrange, hroom⟩ | ⟨rfl, hrange, hocc⟩
    · exact ⟨storeOp, rfl, (pre_eq_none (i := .rbStore blk) (blk := blk) rfl).2 ⟨hpart, hcap, hrange⟩,
        decide_eq_false (not_le.2 hroom)⟩
    · exact ⟨readOp, rfl, (pre_eq_none (i := .rbRead blk) (blk := blk) rfl).2 hrange, decide_eq_false (not_le.2 hocc)⟩
  rw [exec_ring hop]
  refine ⟨fun hph hc hb => ?_, fun hph hc hb => ?_, fun hph => ?_⟩
  · refine ⟨ringFail s r, ?_, complete_completes _ _ _ hcur, fun _ => rfl, rfl, rfl, rfl, rfl⟩
    rw [ringStep_issued_mt hph hc hr hl hpre hm]
    simp [hcond, hb]
  · rw [ringStep_issued_mt hph hc hr hl hpre hm]
    simp only [hcond, hb, Bool.false_eq_true, if_false, if_true]
    rfl
  · rw [ringStep_waiting hph hr]
    simp [hcond]

/-! ### The two steps on an ST ring -/

/-- The effect of a ring command keeps the ring's parameters, its state and its owner, or is RB_READALL's ADDR. -/
theorem ringEffect_ring {i : Instr} {op : RingOp} {blk : Bool} (hi : ringOpOf i = some (op, blk)) {k : Nat}
    {r : RingSlot} (hr : s.rbs[k]? = some r) :
    (i = .rbReadall ∧ s.cfg.dmemBytes < s.lop.op1.toNat + r.occ * r.ebytes ∧ op.effect s k r = s.raiseError .addr) ∨
      ∃ s' a b r', SlotsOnly s s' ∧ op.effect s k r = s'.complete true a b ∧ s'.rbs = s.rbs.set k r' ∧
        r'.owner = r.owner ∧ r'.state = r.state ∧ r'.mode = r.mode ∧ SameShape r r' := by
  cases i <;> simp [ringOpOf] at hi <;> obtain ⟨rfl, rfl⟩ := hi
  case rbStore =>
    refine .inr ⟨_, _, _, _, ?_, rfl, rfl, rfl, rfl, rfl, rfl, rfl, rfl⟩
    exact ⟨rfl, rfl, rfl, rfl, rfl, rfl, rfl⟩
  case rbRead =>
    refine .inr ⟨_, _, _, _, ?_, rfl, rfl, rfl, rfl, rfl, rfl, rfl, rfl⟩
    exact ⟨rfl, rfl, rfl, rfl, rfl, rfl, rfl⟩
  case rbReadall =>
    by_cases hin : s.inRange s.lop.op1.toNat (r.occ * r.ebytes)
    · refine .inr ⟨_, _, _, _, ?_, if_neg (not_not.2 hin), rfl, rfl, rfl, rfl, rfl, rfl, rfl⟩
      exact ⟨rfl, rfl, rfl, rfl, rfl, rfl, rfl⟩
    · exact .inl ⟨rfl, not_le.1 hin, if_pos hin⟩
  all_goals
    refine .inr ⟨s, _, _, r, .refl s, rfl, ?_, rfl, rfl, rfl, rfl, rfl, rfl⟩
    rw [← setRing_rbs, setRing_self hr]

/-- Settles O57: step 1 by `ringStep_issued_st_free`, step 2 by `ringStep_held`. -/
theorem stRingAcquiresThenPerforms : Obligations.StRingAcquiresThenPerforms := by
  intro s i r hcur k hr hl hm hpre
  obtain ⟨op, blk, hop⟩ := hpre.ring
  have hcond := cond_iff hop s r
  have hblk : blk = true ↔ Blocks i := by rw [← blocking_iff, (commandReady_ring hop s r).2]
  have hperf (hph : s.port.phase = .held) : Performs s r := ⟨hl, .inr (.inr hph)⟩
  have hpre' : op.pre s r = none := (pre_eq_none hop).2 hpre
  rw [exec_ring hop]
  refine ⟨fun hph hc ho => ?take, fun hph hok => ?perform, fun hph hno hnb => ?fail, fun hph hno hb hw => ?stuck⟩
  case take =>
    refine ⟨blk && !op.cond s r, ?_, ringStep_issued_st_free hph hc hr hl hpre' hm ho⟩
    rw [Bool.and_eq_true, hblk, Bool.not_eq_true', Bool.eq_false_iff, ne_eq, hcond]
    rfl
  case perform =>
    have hstep := ringStep_performs (blk := blk) (hperf hph) hr hpre' (hcond.2 hok)
    rw [releasedState, releasedRing_held hph] at hstep
    rcases ringEffect_ring hop (getElem?_setRing_self hr { r with owner := none }) with
      ⟨hi, hrange, e⟩ | ⟨s', a, b, r', hs', e, hrbs, ho, hst, hmo, hep, hcap, heb⟩
    · refine ⟨_, { r with owner := none }, hstep.trans (congrArg _ e), ?_⟩
      rw [port_raiseError (s := s.setRing k { r with owner := none }) _ hcur]
      exact ⟨rfl, rfl, rfl, .inr ⟨hi, hrange, rfl⟩, rfl, rfl, hl, hm, rfl, rfl, rfl⟩
    · refine ⟨_, r', hstep.trans (congrArg _ e), ?_⟩
      rw [port_complete _ _ _ (hs'.cur_lt hcur)]
      refine ⟨rfl, rfl, rfl, .inl ⟨rfl, rfl⟩, ?_, ho, hst.trans hl, hmo.trans hm, hcap, hep, heb⟩
      exact hrbs.trans (List.set_set ..)
  case fail =>
    have hfalse : op.cond s r = false := Bool.eq_false_iff.2 fun h => hno (hcond.1 h)
    obtain rfl : blk = false := Bool.eq_false_iff.2 fun h => hnb (hblk.1 h)
    refine ⟨_, ringStep_performs_false (hperf hph) (by simp [hph]) hr hpre' hfalse, ?_, ?_, fun _ => rfl, rfl, rfl, rfl⟩
    · exact (slotsOnly_setRing s k (releasedRing s r)).completes hcur false 0 r.occ
    · rw [← releasedRing_held hph]
      rfl
  case stuck =>
    have hfalse : op.cond s r = false := Bool.eq_false_iff.2 fun h => hno (hcond.1 h)
    have hdec : decode s.port.lcw = .ok i := by
      rw [hw]
      exact decodeEncodeRoundTrip i (by rcases hb with rfl | rfl <;> rfl)
    have hq := getElem?_cur hcur
    refine ⟨?_, s.port, hq, by simp [hph], Bool.eq_false_iff.2 fun h => ?_⟩
    · rw [ringStep_held hph hr]
      simp [hl, hfalse, hblk.2 hb]
    · rcases (hasStep_held hq hph hdec hr).1 h with hp | hc | hnb
      · cases hl.symm.trans hp
      · exact hno hc
      · exact hnb hb

/-- Settles O58: `ringStep_issued_st_owned`, and `ringStep_held` on a POISONED ring. -/
theorem concurrentStUseIsTheRaceFault : Obligations.ConcurrentStUseIsTheRaceFault := by
  intro s r hcur k hr i hi
  obtain ⟨op, blk, hop⟩ : ∃ op blk, ringOpOf i = some (op, blk) := by
    simp only [List.mem_cons, List.not_mem_nil, or_false] at hi
    rcases hi with rfl | rfl | rfl | rfl | rfl | rfl | rfl | rfl <;> exact ⟨_, _, rfl⟩
  rw [exec_ring hop]
  refine ⟨fun hph hc hl hm ho hpre => ?_, fun hph hp => ?_⟩
  · obtain ⟨p, hp⟩ := Option.ne_none_iff_exists'.1 ho
    refine ⟨_, ringStep_issued_st_owned hph hc hr hl ((pre_eq_none hop).2 hpre) hm hp, ?_⟩
    have hport := port_raiseError (s := (s.setRing k { r with state := .poisoned }).setFault) .race hcur
    refine ⟨rfl, rfl, ?_, ?_, ?_, ?_, fun p' hp' => List.getElem?_set_ne hp'.symm, fun _ => rfl, rfl, rfl⟩
    · exact congrArg Port.phase hport
    · exact congrArg (fun q => q.status.err) hport
    · exact congrArg Port.res0 hport
    · exact congrArg Port.res1 hport
  · rw [ringStep_held hph hr]
    simp only [hp, if_true]
    rfl

end Sys2Proof.Machine
end

section
/-! PROOF. Rounding to binary32 (00_scope.md R13, 42_codec.md R134): the magnitude in units of its grid, the nearest whole
number of units, and the pattern whose value that is. -/

namespace Sys2Proof.Machine

/-! ### The nearest natural -/

/-- `roundShift` is within half a unit of the quotient, and even where it is half a unit away (R13). -/
theorem roundShift_near (m k : Nat) :
    2 * (roundShift m k * 2 ^ k) ≤ 2 * m + 2 ^ k ∧ 2 * m ≤ 2 * (roundShift m k * 2 ^ k) + 2 ^ k ∧
      (2 * (roundShift m k * 2 ^ k) = 2 * m + 2 ^ k ∨ 2 * m = 2 * (roundShift m k * 2 ^ k) + 2 ^ k →
        roundShift m k % 2 = 0) := by
  have hdiv : m / 2 ^ k * 2 ^ k + m % 2 ^ k = m := Nat.div_add_mod' m (2 ^ k)
  have hmod : m % 2 ^ k < 2 ^ k := Nat.mod_lt m (Nat.two_pow_pos k)
  have hk : k = 0 → 2 ^ k = 1 := by rintro rfl; rfl
  unfold roundShift
  dsimp only
  split_ifs with h1 h2 h3
  · omega
  · rw [Nat.add_mul (m / 2 ^ k) 1]; omega
  · have := hk h3; omega
  · rw [Nat.add_mul (m / 2 ^ k)]
    rcases Nat.mod_two_eq_zero_or_one (m / 2 ^ k) with h | h <;> rw [h] <;> omega

/-- The same over the rationals. -/
theorem roundShift_near_div (m k : Nat) :
    |(roundShift m k : ℚ) - m / 2 ^ k| ≤ 1 / 2 ∧
      (|(roundShift m k : ℚ) - m / 2 ^ k| = 1 / 2 → roundShift m k % 2 = 0) := by
  obtain ⟨hle, hge, htie⟩ := roundShift_near m k
  have hpos : (0 : ℚ) < 2 ^ k := by positivity
  have hle' : 2 * ((roundShift m k : ℚ) * 2 ^ k) ≤ 2 * m + 2 ^ k := by exact_mod_cast hle
  have hge' : 2 * (m : ℚ) ≤ 2 * (roundShift m k * 2 ^ k) + 2 ^ k := by exact_mod_cast hge
  have hdiff : (roundShift m k : ℚ) - m / 2 ^ k = (roundShift m k * 2 ^ k - m) / 2 ^ k := by field_simp
  have habs : |(roundShift m k : ℚ) - m / 2 ^ k| = |(roundShift m k : ℚ) * 2 ^ k - m| / 2 ^ k := by
    rw [hdiff, abs_div, abs_of_pos hpos]
  rw [habs]
  refine ⟨?_, fun h => htie ?_⟩
  · rw [div_le_iff₀ hpos, abs_le]
    constructor <;> linarith
  · rw [div_eq_iff hpos.ne'] at h
    rcases eq_or_eq_neg_of_abs_eq h with h | h
    · left
      have : 2 * ((roundShift m k : ℚ) * 2 ^ k) = 2 * m + 2 ^ k := by linarith
      exact_mod_cast this
    · right
      have : 2 * (m : ℚ) = 2 * (roundShift m k * 2 ^ k) + 2 ^ k := by linarith
      exact_mod_cast this

/-! ### The grid -/

/-- The magnitude `mag * 2^exp` in units of its grid (R13). -/
def gridReal (mag : Nat) (exp : Int) : ℚ := mag * 2 ^ (exp - gridExp mag exp)

theorem gridReal_mul (mag : Nat) (exp : Int) : gridReal mag exp * 2 ^ gridExp mag exp = mag * 2 ^ exp := by
  rw [gridReal, mul_assoc, ← zpow_add₀ (by norm_num), sub_add_cancel]

/-- `gridUnits` is the nearest whole number of units, even where there are two (R13). -/
theorem gridUnits_near (mag : Nat) (exp : Int) :
    |(gridUnits mag exp : ℚ) - gridReal mag exp| ≤ 1 / 2 ∧
      (|(gridUnits mag exp : ℚ) - gridReal mag exp| = 1 / 2 → gridUnits mag exp % 2 = 0) := by
  unfold gridUnits gridReal
  dsimp only
  split
  case isTrue h =>
    obtain ⟨n, hn⟩ := Int.eq_ofNat_of_zero_le (sub_nonneg.2 h)
    rw [hn, Int.toNat_natCast, zpow_natCast]
    push_cast
    norm_num
  case isFalse h =>
    obtain ⟨n, hn⟩ := Int.eq_ofNat_of_zero_le (sub_nonneg.2 (not_le.1 h).le)
    have hneg : exp - gridExp mag exp = -(n : Int) := by omega
    rw [hn, hneg, Int.toNat_natCast, zpow_neg, zpow_natCast, ← div_eq_mul_inv]
    exact roundShift_near_div mag n

theorem gridExp_ge (mag : Nat) (exp : Int) : -149 ≤ gridExp mag exp := le_max_right _ _

/-- At most 24 significant bits are left before the point (R13). -/
theorem gridReal_lt (mag : Nat) (exp : Int) : gridReal mag exp < 2 ^ 24 := by
  have hmag : (mag : ℚ) < 2 ^ ((Nat.log2 mag : Int) + 1) := by
    have : mag < 2 ^ (Nat.log2 mag + 1) := Nat.lt_log2_self
    exact_mod_cast this
  have hexp : exp - gridExp mag exp ≤ 23 - Nat.log2 mag := by
    have : exp + Nat.log2 mag - 23 ≤ gridExp mag exp := le_max_left _ _
    omega
  calc gridReal mag exp ≤ mag * 2 ^ (23 - (Nat.log2 mag : Int)) :=
        mul_le_mul_of_nonneg_left (zpow_le_zpow_right₀ (by norm_num) hexp) (Nat.cast_nonneg _)
    _ < 2 ^ ((Nat.log2 mag : Int) + 1) * 2 ^ (23 - (Nat.log2 mag : Int)) :=
        mul_lt_mul_of_pos_right hmag (by positivity)
    _ = 2 ^ 24 := by
        rw [← zpow_add₀ (by norm_num), show (Nat.log2 mag : Int) + 1 + (23 - Nat.log2 mag) = (24 : Nat) by push_cast; ring,
          zpow_natCast]

/-- Above the finest grid there are 24 significant bits before the point. -/
theorem le_gridReal {mag : Nat} {exp : Int} (hm : mag ≠ 0) (h : gridExp mag exp ≠ -149) :
    2 ^ 23 ≤ gridReal mag exp := by
  have hmag : (2 : ℚ) ^ (Nat.log2 mag : Int) ≤ mag := by
    have : 2 ^ Nat.log2 mag ≤ mag := Nat.log2_self_le hm
    exact_mod_cast this
  have hexp : exp - gridExp mag exp = 23 - Nat.log2 mag := by
    unfold gridExp at h ⊢
    omega
  calc (2 : ℚ) ^ 23 = 2 ^ (Nat.log2 mag : Int) * 2 ^ (23 - (Nat.log2 mag : Int)) := by
        rw [← zpow_add₀ (by norm_num), show (Nat.log2 mag : Int) + (23 - Nat.log2 mag) = (23 : Nat) by push_cast; ring,
          zpow_natCast]
    _ ≤ gridReal mag exp := by
        rw [gridReal, hexp]
        exact mul_le_mul_of_nonneg_right hmag (by positivity)

theorem gridUnits_le (mag : Nat) (exp : Int) : gridUnits mag exp ≤ 2 ^ 24 := by
  have hnear := (abs_le.1 (gridUnits_near mag exp).1).2
  have hlt := gridReal_lt mag exp
  have : (gridUnits mag exp : ℚ) < (2 ^ 24 : Nat) + 1 := by push_cast; linarith
  exact Nat.lt_succ_iff.1 (by exact_mod_cast this)

theorem le_gridUnits {mag : Nat} {exp : Int} (hm : mag ≠ 0) (h : gridExp mag exp ≠ -149) :
    2 ^ 23 ≤ gridUnits mag exp := by
  have hnear := (abs_le.1 (gridUnits_near mag exp).1).1
  have hle := le_gridReal hm h
  have : ((2 ^ 23 : Nat) : ℚ) < gridUnits mag exp + 1 := by push_cast; linarith
  exact Nat.lt_succ_iff.1 (by exact_mod_cast this)

/-! ### The pattern -/

/-- The magnitude pattern of u units of the grid 2^e. -/
def gridPattern (e : Int) (u : Nat) : Nat := (e + 149).toNat * 2 ^ 23 + u

/-- The value of the pattern, below the infinity's: u units of the grid (R13, log 11). -/
theorem gridPattern_isReal {e : Int} {u neg : Nat} (he : -149 ≤ e) (hu : u ≤ 2 ^ 24) (hlo : e ≠ -149 → 2 ^ 23 ≤ u)
    (hfin : gridPattern e u < 0x7F800000) (hn : neg < 2) :
    FVal.IsReal (f32Val (neg * 2 ^ 31 + gridPattern e u)) ((-1) ^ neg * u * 2 ^ e) := by
  obtain ⟨n, hn'⟩ := Int.eq_ofNat_of_zero_le (show 0 ≤ e + 149 by omega)
  have hpat : gridPattern e u = n * 2 ^ 23 + u := by rw [gridPattern, hn', Int.toNat_natCast]
  have hsplit : neg * 2 ^ 31 + gridPattern e u =
      neg * 2 ^ (8 + 23) + (gridPattern e u / 2 ^ 23) * 2 ^ 23 + gridPattern e u % 2 ^ 23 := by omega
  obtain ⟨-, -, hsub, hnorm⟩ := floatVal_isReal 8 23 (by decide) hn
    (show gridPattern e u / 2 ^ 23 < 2 ^ 8 by omega) (Nat.mod_lt (gridPattern e u) (by decide : 0 < 2 ^ 23))
  rw [f32Val, hsplit]
  rcases Nat.lt_or_ge u (2 ^ 23) with hsmall | hlarge
  · obtain rfl : e = -149 := by by_contra h; have := hlo h; omega
    have hfrac : gridPattern (-149) u % 2 ^ 23 = u := by omega
    have := hsub (by omega)
    rw [hfrac, show (2 - 2 ^ (8 - 1) - (23 : Nat) : Int) = -149 by norm_num] at this
    rwa [hfrac]
  · have hval : ((2 : ℚ) ^ 23 + (gridPattern e u % 2 ^ 23 : Nat)) *
        2 ^ (((gridPattern e u / 2 ^ 23 : Nat) : Int) + 1 - 2 ^ (8 - 1) - (23 : Nat)) = u * 2 ^ e := by
      rcases hu.lt_or_eq with hlt | rfl
      · have hq : gridPattern e u / 2 ^ 23 = n + 1 := by omega
        have hr : gridPattern e u % 2 ^ 23 = u - 2 ^ 23 := by omega
        rw [hq, hr, show (((n + 1 : Nat) : Int) + 1 - 2 ^ (8 - 1) - (23 : Nat)) = e by push_cast; omega]
        rw [Nat.cast_sub hlarge]
        push_cast
        ring
      · have hq : gridPattern e (2 ^ 24) / 2 ^ 23 = n + 2 := by omega
        have hr : gridPattern e (2 ^ 24) % 2 ^ 23 = 0 := by omega
        rw [hq, hr, show (((n + 2 : Nat) : Int) + 1 - 2 ^ (8 - 1) - (23 : Nat)) = e + 1 by push_cast; omega,
          zpow_add₀ (by norm_num)]
        push_cast
        ring
    have := hnorm (by omega) (by omega)
    rw [mul_assoc, hval, ← mul_assoc] at this
    exact this

/-- A finite binary32 value: a sign, at most 24 significant bits, and an exponent no finer than the grid (log 11). -/
theorem isReal_f32Val {x : Nat} {w : ℚ} (h : FVal.IsReal (f32Val x) w) :
    ∃ (neg : Bool) (m : Nat) (e : Int), w = (if neg then -1 else 1) * m * 2 ^ e ∧ m < 2 ^ 24 ∧ -149 ≤ e := by
  have hf : x % 2 ^ 23 < 2 ^ 23 := Nat.mod_lt _ (by decide)
  unfold f32Val floatVal at h
  dsimp only at h
  split_ifs at h with h1 h2 h3
  · exact h.elim
  · exact h.elim
  · exact ⟨_, _, _, h, by omega, by norm_num⟩
  · exact ⟨_, _, _, h, by omega, by push_cast; omega⟩

/-! ### Where infinity begins -/

/-- The midpoint above the largest binary32 value (R134, log 11). -/
def overflowMidpoint : ℚ := (2 ^ 25 - 1) * 2 ^ 103

/-- At the last grid, the largest number of units is reached from half a unit below the next power of two on. -/
theorem gridUnits_lt_iff (mag : Nat) (exp : Int) : gridUnits mag exp < 2 ^ 24 ↔ gridReal mag exp < 2 ^ 24 - 1 / 2 := by
  obtain ⟨hnear, htie⟩ := gridUnits_near mag exp
  obtain ⟨hlo, hhi⟩ := abs_le.1 hnear
  constructor
  · intro h
    have hle : (gridUnits mag exp : ℚ) ≤ 2 ^ 24 - 1 := by
      have : (gridUnits mag exp : ℚ) + 1 ≤ (2 ^ 24 : Nat) := by exact_mod_cast h
      push_cast at this
      linarith
    by_contra! hge
    have hu : (gridUnits mag exp : ℚ) = (2 ^ 24 - 1 : Nat) := by push_cast; linarith
    have hu' : gridUnits mag exp = 2 ^ 24 - 1 := by exact_mod_cast hu
    have hhalf : |(gridUnits mag exp : ℚ) - gridReal mag exp| = 1 / 2 := by
      rw [abs_of_nonpos (by linarith)]
      linarith
    have := htie hhalf
    omega
  · intro h
    have : (gridUnits mag exp : ℚ) < (2 ^ 24 : Nat) := by push_cast; linarith
    exact_mod_cast this

/-- A magnitude gets a finite pattern exactly below the midpoint above the largest binary32 value (R134). -/
theorem gridPattern_lt_iff {mag : Nat} (hm : mag ≠ 0) (exp : Int) :
    gridPattern (gridExp mag exp) (gridUnits mag exp) < 0x7F800000 ↔ (mag : ℚ) * 2 ^ exp < overflowMidpoint := by
  have hge := gridExp_ge mag exp
  have hu := gridUnits_le mag exp
  rw [← gridReal_mul, gridPattern, overflowMidpoint]
  rcases lt_trichotomy (gridExp mag exp) 104 with h | h | h
  · refine iff_of_true (by omega) ?_
    have hpow : (2 : ℚ) ^ gridExp mag exp ≤ 2 ^ 103 := by
      have := zpow_le_zpow_right₀ (show (1 : ℚ) ≤ 2 by norm_num) (show gridExp mag exp ≤ (103 : Nat) by push_cast; omega)
      rwa [zpow_natCast] at this
    calc gridReal mag exp * 2 ^ gridExp mag exp < 2 ^ 24 * 2 ^ gridExp mag exp :=
          mul_lt_mul_of_pos_right (gridReal_lt mag exp) (by positivity)
      _ ≤ 2 ^ 24 * 2 ^ 103 := mul_le_mul_of_nonneg_left hpow (by positivity)
      _ ≤ (2 ^ 25 - 1) * 2 ^ 103 := by norm_num
  · have hpat : (gridExp mag exp + 149).toNat * 2 ^ 23 + gridUnits mag exp < 0x7F800000 ↔ gridUnits mag exp < 2 ^ 24 := by
      omega
    have hmid : ((2 : ℚ) ^ 25 - 1) * 2 ^ 103 = (2 ^ 24 - 1 / 2) * 2 ^ gridExp mag exp := by
      rw [h, show (104 : Int) = (104 : Nat) by rfl, zpow_natCast]
      norm_num
    rw [hpat, gridUnits_lt_iff, hmid, mul_lt_mul_iff_left₀ (by positivity)]
  · have hlo := le_gridUnits hm (show gridExp mag exp ≠ -149 by omega)
    refine iff_of_false (by omega) (not_lt.2 ?_)
    have hpow : (2 : ℚ) ^ 105 ≤ 2 ^ gridExp mag exp := by
      have := zpow_le_zpow_right₀ (show (1 : ℚ) ≤ 2 by norm_num) (show ((105 : Nat) : Int) ≤ gridExp mag exp by push_cast; omega)
      rwa [zpow_natCast] at this
    calc ((2 : ℚ) ^ 25 - 1) * 2 ^ 103 ≤ 2 ^ 23 * 2 ^ 105 := by norm_num
      _ ≤ gridReal mag exp * 2 ^ gridExp mag exp :=
          mul_le_mul (le_gridReal hm (by omega)) hpow (by positivity) ((by positivity : (0 : ℚ) ≤ 2 ^ 23).trans
            (le_gridReal hm (by omega)))

theorem rneMag_eq {mag : Nat} (hm : mag ≠ 0) (exp : Int) :
    rneMag mag exp = min (gridPattern (gridExp mag exp) (gridUnits mag exp)) 0x7F800000 := by
  simp [rneMag, hm, gridPattern]

/-! ### The nearest pattern -/

/-- A whole number of units is no nearer than `gridUnits`, and neither is a value below the grid's 24-bit numbers. -/
theorem gridUnits_nearest {mag : Nat} (hm : mag ≠ 0) (exp : Int) {y : ℚ}
    (hy : (∃ j : Int, y = j) ∨ (y < 2 ^ 23 ∧ gridExp mag exp ≠ -149)) :
    |(gridUnits mag exp : ℚ) - gridReal mag exp| ≤ |y - gridReal mag exp| ∧
      (|(gridUnits mag exp : ℚ) - gridReal mag exp| = |y - gridReal mag exp| → y ≠ gridUnits mag exp →
        gridUnits mag exp % 2 = 0) := by
  obtain ⟨hnear, htie⟩ := gridUnits_near mag exp
  have far (j : Int) (hj : (j : ℚ) ≠ gridUnits mag exp) : 1 / 2 ≤ |(j : ℚ) - gridReal mag exp| := by
    have hj' : j ≠ (gridUnits mag exp : Int) := fun h => hj (by rw [h, Int.cast_natCast])
    have hone : (1 : ℚ) ≤ |(j : ℚ) - gridUnits mag exp| := by
      have : 1 ≤ |j - (gridUnits mag exp : Int)| := Int.one_le_abs (sub_ne_zero.2 hj')
      exact_mod_cast this
    have htri := abs_sub_le (j : ℚ) (gridReal mag exp) (gridUnits mag exp)
    rw [abs_sub_comm (gridReal mag exp)] at htri
    linarith
  have whole (j : Int) : |(gridUnits mag exp : ℚ) - gridReal mag exp| ≤ |(j : ℚ) - gridReal mag exp| := by
    by_cases hj : (j : ℚ) = gridUnits mag exp
    · rw [hj]
    · exact hnear.trans (far j hj)
  rcases hy with ⟨j, rfl⟩ | ⟨hlt, hexp⟩
  · exact ⟨whole j, fun heq hne => htie (le_antisymm hnear (heq ▸ far j hne))⟩
  · have hx := le_gridReal hm hexp
    have hstrict : |((2 ^ 23 : Int) : ℚ) - gridReal mag exp| < |y - gridReal mag exp| := by
      push_cast
      rw [abs_of_nonpos (by linarith), abs_of_nonpos (by linarith)]
      linarith
    have := (whole (2 ^ 23)).trans_lt hstrict
    exact ⟨this.le, fun heq => (this.ne heq).elim⟩

/-- A finite binary32 value is a whole number of units of any grid, or smaller than its 24-bit numbers. -/
theorem isReal_on_grid {x : Nat} {w : ℚ} (h : FVal.IsReal (f32Val x) w) (e : Int) {σ : ℚ}
    (hσ : σ = 1 ∨ σ = -1) : (∃ j : Int, σ * w / 2 ^ e = j) ∨ (σ * w / 2 ^ e < 2 ^ 23 ∧ e ≠ -149) := by
  obtain ⟨neg, m, e', rfl, hm, he'⟩ := isReal_f32Val h
  obtain ⟨z, hz, hzm⟩ : ∃ z : Int, σ * ((if neg then -1 else 1) * m * 2 ^ e') = z * 2 ^ e' ∧ z ≤ m := by
    rcases hσ with rfl | rfl <;> cases neg
    · exact ⟨m, by simp, le_rfl⟩
    · exact ⟨-m, by simp, by omega⟩
    · exact ⟨-m, by simp, by omega⟩
    · exact ⟨m, by simp, le_rfl⟩
  rw [hz, mul_div_assoc, ← zpow_sub₀ (by norm_num)]
  rcases le_or_gt e e' with hle | hlt
  · obtain ⟨n, hn⟩ := Int.eq_ofNat_of_zero_le (sub_nonneg.2 hle)
    exact .inl ⟨z * 2 ^ n, by rw [hn, zpow_natCast]; push_cast; ring⟩
  · refine .inr ⟨?_, by omega⟩
    have hz24 : (z : ℚ) < 2 ^ 24 := by
      have : z < 2 ^ 24 := by omega
      exact_mod_cast this
    have hpow : (2 : ℚ) ^ (e' - e) ≤ 2 ^ (-1 : Int) := zpow_le_zpow_right₀ (by norm_num) (by omega)
    calc (z : ℚ) * 2 ^ (e' - e) < 2 ^ 24 * 2 ^ (e' - e) := mul_lt_mul_of_pos_right hz24 (by positivity)
      _ ≤ 2 ^ 24 * 2 ^ (-1 : Int) := mul_le_mul_of_nonneg_left hpow (by positivity)
      _ = 2 ^ 23 := by norm_num

/-- The sign of an integer as a factor, and as the sign bit's weight. -/
theorem int_sign_cases (num : Int) :
    ∃ neg : Nat, neg < 2 ∧ ((-1) ^ neg = (1 : ℚ) ∨ (-1) ^ neg = (-1 : ℚ)) ∧ (num : ℚ) = (-1) ^ neg * num.natAbs ∧
      (if num < 0 then 2 ^ 31 else 0) = neg * 2 ^ 31 := by
  rcases lt_or_ge num 0 with h | h
  · refine ⟨1, by decide, .inr (by norm_num), ?_, by simp [h]⟩
    rw [Nat.cast_natAbs, abs_of_neg h]
    push_cast
    ring
  · refine ⟨0, by decide, .inl (by norm_num), ?_, by simp [not_lt.2 h]⟩
    rw [Nat.cast_natAbs, abs_of_nonneg h]
    simp

/-- Below the midpoint the pattern is finite: the sign, and the units of the grid (R13). -/
theorem rne32_isReal {num exp : Int} (h : (num.natAbs : ℚ) * 2 ^ exp < overflowMidpoint) :
    ∃ neg : Nat, ((-1) ^ neg = (1 : ℚ) ∨ (-1) ^ neg = (-1 : ℚ)) ∧ (num : ℚ) = (-1) ^ neg * num.natAbs ∧
      FVal.IsReal (f32Val (rne32 num exp)) ((-1) ^ neg * gridUnits num.natAbs exp * 2 ^ gridExp num.natAbs exp) ∧
      rne32 num exp % 2 = gridUnits num.natAbs exp % 2 := by
  obtain ⟨neg, hneg, hσ, hnum, hbit⟩ := int_sign_cases num
  refine ⟨neg, hσ, hnum, ?_⟩
  by_cases hm : num.natAbs = 0
  · obtain rfl : num = 0 := Int.natAbs_eq_zero.1 hm
    have hunits : gridUnits 0 exp = 0 := by
      unfold gridUnits roundShift
      simp
    have hzero : rne32 0 exp = 0 := by simp [rne32, rneMag]
    rw [Int.natAbs_zero, hunits, hzero]
    refine ⟨?_, rfl⟩
    have hval : f32Val 0 = .fin false 0 (-149) := by decide
    simp [hval, FVal.IsReal]
  · have hfin := (gridPattern_lt_iff hm exp).2 h
    have hpat : rne32 num exp = neg * 2 ^ 31 + gridPattern (gridExp num.natAbs exp) (gridUnits num.natAbs exp) := by
      rw [rne32, rneMag_eq hm, min_eq_left hfin.le, hbit, Nat.add_comm]
    refine ⟨?_, by rw [hpat, gridPattern]; omega⟩
    rw [hpat]
    exact gridPattern_isReal (gridExp_ge _ _) (gridUnits_le _ _) (le_gridUnits hm) hfin hneg

/-- Distances to a magnitude under a sign, in units of the magnitude's grid. -/
theorem abs_sub_on_grid {σ : ℚ} (hσ : σ = 1 ∨ σ = -1) (mag : Nat) (exp : Int) (y : ℚ) :
    |σ * y * 2 ^ gridExp mag exp - σ * (mag * 2 ^ exp)| = |y - gridReal mag exp| * 2 ^ gridExp mag exp := by
  have hσabs : |σ| = 1 := by rcases hσ with rfl | rfl <;> norm_num
  have hpos : (0 : ℚ) < 2 ^ gridExp mag exp := by positivity
  have hfactor : σ * y * 2 ^ gridExp mag exp - σ * (gridReal mag exp * 2 ^ gridExp mag exp) =
      σ * ((y - gridReal mag exp) * 2 ^ gridExp mag exp) := by ring
  rw [← gridReal_mul, hfactor, abs_mul, hσabs, one_mul, abs_mul, abs_of_pos hpos]

/-- No finite pattern is nearer than the one of `gridUnits`, and of two nearest ones it is the even one (R13). -/
theorem grid_nearest {mag : Nat} {exp : Int} (hm : mag ≠ 0) {σ : ℚ} (hσ : σ = 1 ∨ σ = -1) {x : Nat} {w : ℚ}
    (hw : FVal.IsReal (f32Val x) w) :
    let v := σ * gridUnits mag exp * 2 ^ gridExp mag exp
    let r := σ * (mag * 2 ^ exp)
    |v - r| ≤ |w - r| ∧ (|v - r| = |w - r| → w ≠ v → gridUnits mag exp % 2 = 0) := by
  intro v r
  have hpos : (0 : ℚ) < 2 ^ gridExp mag exp := by positivity
  have hσσ : σ * σ = 1 := by rcases hσ with rfl | rfl <;> norm_num
  have hunits : w = σ * (σ * w / 2 ^ gridExp mag exp) * 2 ^ gridExp mag exp := by
    rw [mul_assoc, div_mul_cancel₀ _ hpos.ne', ← mul_assoc, hσσ, one_mul]
  have hdist : |w - r| = |σ * w / 2 ^ gridExp mag exp - gridReal mag exp| * 2 ^ gridExp mag exp := by
    conv_lhs => rw [hunits]
    exact abs_sub_on_grid hσ mag exp _
  obtain ⟨hle, htie⟩ := gridUnits_nearest hm exp (isReal_on_grid hw (gridExp mag exp) hσ)
  rw [hdist, abs_sub_on_grid hσ mag exp]
  refine ⟨mul_le_mul_of_nonneg_right hle hpos.le, fun heq hne => htie (mul_right_cancel₀ hpos.ne' heq) fun hy => hne ?_⟩
  rw [hunits, hy]

/-- A number of at most 24 significant bits on or above the finest grid is on its own grid (R13). -/
theorem gridReal_exact {mag : Nat} {exp : Int} (hmag : mag ≤ 2 ^ 24) (hexp : -149 ≤ exp) :
    (gridUnits mag exp : ℚ) * 2 ^ gridExp mag exp = mag * 2 ^ exp := by
  by_cases hle : gridExp mag exp ≤ exp
  · obtain ⟨n, hn⟩ := Int.eq_ofNat_of_zero_le (sub_nonneg.2 hle)
    have hunits : gridUnits mag exp = mag * 2 ^ n := by simp [gridUnits, hle, hn]
    rw [hunits, Nat.cast_mul, mul_assoc, Nat.cast_pow, Nat.cast_ofNat, ← zpow_natCast, ← zpow_add₀ (by norm_num)]
    congr 2
    omega
  · have hlog : 24 ≤ Nat.log2 mag := by
      unfold gridExp at hle
      omega
    have hmag0 : mag ≠ 0 := by
      rintro rfl
      exact absurd hlog (by decide)
    obtain rfl : mag = 2 ^ 24 := le_antisymm hmag ((Nat.le_log2 hmag0).1 hlog)
    have hgrid : gridExp (2 ^ 24) exp = exp + 1 := by
      rw [gridExp, Nat.log2_two_pow]
      omega
    have hunits : gridUnits (2 ^ 24) exp = 2 ^ 23 := by
      simp only [gridUnits, hgrid]
      rw [if_neg (by omega), show (exp + 1 - exp).toNat = 1 by omega]
      decide
    rw [hunits, hgrid, zpow_add_one₀ (by norm_num)]
    push_cast
    ring

/-- An integer of at most 24 bits over a small power of two is its own binary32 value (R13, R153). -/
theorem rne32_exact {num exp : Int} (hnum : num.natAbs ≤ 2 ^ 24) (hlo : -149 ≤ exp) (hhi : exp ≤ 0) :
    FVal.IsReal (f32Val (rne32 num exp)) (num * 2 ^ exp) := by
  have hsmall : (num.natAbs : ℚ) * 2 ^ exp < overflowMidpoint := by
    have hmag : (num.natAbs : ℚ) ≤ 2 ^ 24 := by exact_mod_cast hnum
    calc (num.natAbs : ℚ) * 2 ^ exp ≤ 2 ^ 24 * 1 :=
          mul_le_mul hmag (zpow_le_one_of_nonpos₀ (by norm_num) hhi) (by positivity) (by norm_num)
      _ < overflowMidpoint := by norm_num [overflowMidpoint]
  obtain ⟨neg, -, hsign, hreal, -⟩ := rne32_isReal hsmall
  rwa [hsign, mul_assoc, ← gridReal_exact hnum hlo, ← mul_assoc]

/-- Settles O32: `grid_nearest`; the midpoint is where the pattern stops being finite. -/
theorem roundingIsToNearestEven : Obligations.RoundingIsToNearestEven := by
  intro num exp r midpoint
  have hr : |r| = num.natAbs * 2 ^ exp := by
    rw [abs_mul, abs_of_pos (show (0 : ℚ) < 2 ^ exp by positivity), Nat.cast_natAbs, Int.cast_abs]
  rw [hr]
  refine ⟨fun h => ?_, fun h => ?_⟩
  · obtain ⟨neg, hσ, hnum, hreal, hpar⟩ := rne32_isReal h
    refine ⟨rne32_lt num exp, _, hreal, fun x w hx hw => ?_⟩
    by_cases hm : num.natAbs = 0
    · obtain rfl : num = 0 := Int.natAbs_eq_zero.1 hm
      have hzero : gridUnits 0 exp = 0 := by simp [gridUnits, roundShift]
      have hr0 : r = 0 := by rw [show r = ((0 : Int) : ℚ) * 2 ^ exp from rfl, Int.cast_zero, zero_mul]
      simp only [Int.natAbs_zero, hzero, hr0, zero_mul, Nat.cast_zero, mul_zero, sub_zero, abs_zero]
      exact ⟨abs_nonneg w, fun h0 hne => (hne (abs_eq_zero.1 h0.symm)).elim⟩
    · rw [hpar, show r = (-1) ^ neg * (num.natAbs * 2 ^ exp) by rw [← mul_assoc, ← hnum]]
      exact grid_nearest hm hσ hw
  · have hm : num.natAbs ≠ 0 := by
      intro hm
      rw [hm, Nat.cast_zero, zero_mul] at h
      norm_num at h
    have hinf := not_lt.1 fun hlt => (not_lt.2 h) ((gridPattern_lt_iff hm exp).1 hlt)
    rw [rne32, rneMag_eq hm, min_eq_right hinf]
    split_ifs <;> rfl

end Sys2Proof.Machine
end

section
/-! PROOF. One element of the codec (42_codec.md R130 to R137, R151 to R154): the field a lane encodes to, the lane a field
decodes to, and the two round trips between them. -/

namespace Sys2Proof.Machine

variable {d : DType} {L : LaneFmt} {k x : Nat}

/-! ### Truncation as a bracket -/

/-- A truncated real lies between 0 and the real, less than 1 away from it (R13). -/
theorem TruncatesTo.bracket {r : ℚ} {t : Int} (h : TruncatesTo r t) :
    (0 ≤ (t : ℚ) ∧ t ≤ r ∧ r < t + 1) ∨ (r ≤ t ∧ (t : ℚ) ≤ 0 ∧ (t : ℚ) - 1 < r) := by
  have natural {r : ℚ} {t : Int} (hr : 0 ≤ r) (h : TruncatesTo r t) : 0 ≤ (t : ℚ) ∧ t ≤ r ∧ r < t + 1 := by
    have ht : 0 ≤ (t : ℚ) := by exact_mod_cast h.nonneg hr
    obtain ⟨hle, hlt, -⟩ := h
    rw [abs_of_nonneg hr, abs_of_nonneg ht] at hle hlt
    exact ⟨ht, hle, hlt⟩
  rcases le_total 0 r with hr | hr
  · exact .inl (natural hr h)
  · obtain ⟨h0, hle, hlt⟩ := natural (neg_nonneg.2 hr) (truncatesTo_neg.2 ((neg_neg t).symm ▸ h))
    push_cast at h0 hle hlt
    exact .inr ⟨by linarith, by linarith, by linarith⟩

theorem TruncatesTo.eq_of_int {z t : Int} (h : TruncatesTo (z : ℚ) t) : t = z := by
  rcases h.bracket with ⟨-, hle, hlt⟩ | ⟨hle, -, hlt⟩
  · have : t ≤ z ∧ z < t + 1 := ⟨by exact_mod_cast hle, by exact_mod_cast hlt⟩
    omega
  · have : z ≤ t ∧ t - 1 < z := ⟨by exact_mod_cast hle, by exact_mod_cast hlt⟩
    omega

/-- A float with a value converts to the truncation of the scaled value, inside the range of R137. -/
theorem exists_truncation {v : FVal} {u : ℚ} (hv : FVal.IsReal v u) (f : Nat) :
    ∃ t, TruncatesTo (u * 2 ^ f) t ∧ (-2 ^ 63 ≤ t → t < 2 ^ 64 → convScaled f v = some t) := by
  match v, hv with
  | .fin neg mag exp, rfl =>
    refine ⟨truncVal neg mag (exp + f), ?_, fun h1 h2 => convScaled_fin_eq_some_iff.2 ⟨rfl, h1, h2⟩⟩
    rw [mul_assoc, ← zpow_natCast, ← zpow_add₀ (by norm_num)]
    exact (truncatesTo_iff_truncVal neg mag (exp + f) _).2 rfl

/-- A float whose scaled value is an integer converts to it. -/
theorem convScaled_of_int {v : FVal} {u : ℚ} {f : Nat} {z : Int} (hv : FVal.IsReal v u) (hz : u * 2 ^ f = z)
    (hlo : -2 ^ 63 ≤ z) (hhi : z < 2 ^ 64) : convScaled f v = some z := by
  obtain ⟨t, ht, hconv⟩ := exists_truncation hv f
  obtain rfl := (hz ▸ ht).eq_of_int
  exact hconv hlo hhi

/-! ### The descriptors by kind (R110) -/

theorem describe_uint (h : d.kind = .uint) : describe d = ⟨.uint, d.width, false, true, false, 0⟩ := by
  simp [describe, h]

theorem describe_int (h : d.kind = .int) : describe d = ⟨.int, d.width, true, true, false, 0⟩ := by
  simp [describe, h]

theorem describe_fixed (h : d.kind = .fixed) : describe d = ⟨.fixed, d.width, true, false, true, d.frac⟩ := by
  simp [describe, h]

theorem describe_float32 (h : d.kind = .float32) : describe d = ⟨.float32, 32, true, false, false, 0⟩ := by
  simp [describe, h]

theorem describe_binary (h : d.kind = .binary) : describe d = ⟨.binary, 1, false, true, false, 0⟩ := by
  simp [describe, h]

theorem describe_ternary (h : d.kind = .ternary) : describe d = ⟨.ternary, 2, true, true, false, 0⟩ := by
  simp [describe, h]

theorem describe_bipolar (h : d.kind = .bipolar) : describe d = ⟨.bipolar, 1, true, true, false, 0⟩ := by
  simp [describe, h]

/-! ### The field of a lane -/

theorem encField_integer (h : d.kind = .uint ∨ d.kind = .int ∨ d.kind = .binary ∨ d.kind = .ternary) :
    encField (describe d) L k x = intField (describe d) k (laneValue L x) := by
  rcases h with h | h | h | h
  · rw [describe_uint h, encField]
  · rw [describe_int h, encField]
  · rw [describe_binary h, encField]
  · rw [describe_ternary h, encField]

theorem encField_fixed (h : d.kind = .fixed) :
    encField (describe d) L k x = fixedField (describe d) k (laneValue L x) := by
  rw [describe_fixed h, encField]

theorem encField_bipolar (h : d.kind = .bipolar) :
    encField (describe d) L k x = bipolarField k (laneValue L x) := by
  rw [describe_bipolar h, encField]

theorem encField_float32 (h : d.kind = .float32) : encField (describe d) L k x = f32Field L k x := by
  rw [describe_float32 h, encField]

/-- Only a FLOAT32 field takes the pattern of its lane; every other one is cut to W bits (R131). -/
theorem encField_lt_of_ne_float32 (hd : dtypeValid d = true) (h : d.kind ≠ .float32) :
    encField (describe d) L k x < 2 ^ (describe d).w := by
  rcases (dtypeValid_iff d).1 hd with ⟨h', -⟩ | ⟨h', -⟩ | ⟨h', -⟩ | ⟨h', -⟩ | ⟨h', -⟩ | ⟨h', -⟩ | ⟨h', -⟩
  · rw [encField_integer (.inl h')]
    exact intField_lt _ _ _
  · rw [encField_integer (.inr (.inl h'))]
    exact intField_lt _ _ _
  · rw [encField_fixed h']
    exact fixedField_lt _ _ _
  · exact (h h').elim
  · rw [encField_integer (.inr (.inr (.inl h')))]
    exact intField_lt _ _ _
  · rw [encField_integer (.inr (.inr (.inr h')))]
    exact intField_lt _ _ _
  · rw [encField_bipolar h', describe_bipolar h']
    exact bipolarField_lt _ _

theorem f32Field_int {v : Int} (h : laneValue L x = .int v) : f32Field L k x = rne32 v 0 := by
  cases L <;> simp only [laneValue, LaneVal.int.injEq, reduceCtorEq] at h <;> simp only [f32Field, laneValue, h]

theorem bitsOf_emod (w : Nat) (v : Int) : (bitsOf w v : Int) = v % 2 ^ w := by
  rw [bitsOf_cast]
  push_cast
  rfl

/-- Settles O28: the field by kind. -/
theorem integerLanesEncodeModuloTwoToW : Obligations.IntegerLanesEncodeModuloTwoToW := by
  intro d L k x v hd hv
  refine ⟨fun h => ?_, fun h => ?_, fun h h1 => ?_, fun h h1 => ?_, fun h => ?_, ?_, fun h y => ?_⟩
  · rw [encField_integer h, hv]
    exact bitsOf_emod _ _
  · rw [encField_fixed h, hv, fixedField, describe_fixed h]
    exact bitsOf_emod _ _
  · rw [encField_bipolar h, hv, h1]
    rfl
  · rw [encField_bipolar h, hv, h1]
    rfl
  · rw [encField_bipolar h]
    exact bipolarField_lt _ _
  · by_cases h : d.kind = .float32
    · rw [encField_float32 h, f32Field_int hv, describe_float32 h]
      exact rne32_lt _ _
    · exact encField_lt_of_ne_float32 hd h
  · exact encField_float32 h

/-- `isOne` on the magnitude as a real. -/
theorem isOne_iff (mag : Nat) (exp : Int) : isOne mag exp = true ↔ (mag : ℚ) * 2 ^ exp = 1 := by
  unfold isOne
  split_ifs with he
  · lift exp to ℕ using he
    rw [Int.toNat_natCast, zpow_natCast, beq_iff_eq]
    exact_mod_cast Iff.rfl
  · obtain ⟨n, rfl⟩ : ∃ n : Nat, exp = -n := ⟨(-exp).toNat, by omega⟩
    rw [neg_neg, Int.toNat_natCast, zpow_neg, zpow_natCast, ← div_eq_mul_inv, div_eq_one_iff_eq (by positivity),
      beq_iff_eq]
    exact_mod_cast Iff.rfl

/-- A BIPOLAR field of a float lane that holds +1 or -1 (R135). -/
theorem bipolarField_flt {v : FVal} {neg : Bool} (h : FVal.IsReal v (if neg then -1 else 1)) :
    bipolarField k (.flt v) = if neg then 0 else 1 := by
  match v, h with
  | .fin neg' mag exp, h =>
    have hmag : (0 : ℚ) ≤ mag * 2 ^ exp := by positivity
    have hside : neg' = neg ∧ (mag : ℚ) * 2 ^ exp = 1 := by
      rw [FVal.IsReal, mul_assoc] at h
      cases neg <;> cases neg' <;> norm_num at h ⊢
      · linarith
      · linarith
      · linarith
      · linarith
    obtain ⟨rfl, hone⟩ := hside
    rw [bipolarField, if_pos ((isOne_iff mag exp).2 hone)]

/-- Settles O29: the field by kind. -/
theorem floatLanesConvertThenWrap : Obligations.FloatLanesConvertThenWrap := by
  intro d L k x v hd hv
  refine ⟨fun h t ht => ?_, fun h t ht => ?_, fun h h1 => ?_, fun h h1 => ?_, fun h => encField_lt_of_ne_float32 hd h⟩
  · rw [encField_integer h, hv, intField, ht]
    exact bitsOf_emod _ _
  · rw [encField_fixed h, hv, fixedField, show (describe d).fracBits = d.frac by rw [describe_fixed h], ht]
    exact bitsOf_emod _ _
  · rw [encField_bipolar h, hv]
    exact bipolarField_flt (neg := false) h1
  · rw [encField_bipolar h, hv]
    exact bipolarField_flt (neg := true) h1

/-- Settles O30: an F64 lane by the three forms of its value. -/
theorem float32TargetConvertsByValue : Obligations.Float32TargetConvertsByValue := by
  intro k x D
  refine ⟨rfl, fun L v hv => f32Field_int hv, fun hnan => ?_, fun neg hinf => ?_, fun neg mag exp hfin => ?_⟩
  · have hfield : encField D .f64 k x = drawNan32 k := by
      rw [show encField D .f64 k x = f64Field k (f64Val x) from rfl, hnan, f64Field]
    obtain ⟨hlt, hexp, hfrac⟩ := drawNan32_isNan k
    rw [hfield]
    exact ⟨hexp, hfrac, hlt⟩
  · rw [show encField D .f64 k x = f64Field k (f64Val x) from rfl, hinf, f64Field]
    cases neg <;> rfl
  · have hle := rneMag_le mag exp
    rw [show encField D .f64 k x = f64Field k (f64Val x) from rfl]
    refine ⟨?_, f64Field_lt _ _, fun h => ?_⟩
    · have hdraw := drawBits_lt k 1
      rw [hfin, f64Field]
      split_ifs <;> omega
    · rw [hfin, f64Field]
      cases neg
      · rfl
      · simp [h.resolve_right (by decide)]

/-! ### The lane of a field -/

/-- The bits of the output lane. -/
abbrev outBits (d : DType) : Nat := 8 * laneBytes (outlane (describe d))

theorem width_le_outBits_uint (h : d.kind = .uint) (hw : d.width ≤ 64) : d.width ≤ outBits d := by
  rw [outBits, outlane_uint _ (by rw [describe_uint h]), describe_uint h]
  dsimp only
  split_ifs <;> simp only [laneBytes] <;> omega

theorem width_le_outBits_int (h : d.kind = .int) (hw : d.width ≤ 64) : d.width ≤ outBits d := by
  rw [outBits, outlane_int _ (by rw [describe_int h]), describe_int h]
  dsimp only
  split_ifs <;> simp only [laneBytes] <;> omega

theorem laneValue_unsigned (h : d.kind = .uint ∨ d.kind = .binary) (y : Nat) :
    laneValue (outlane (describe d)) y = .int y := by
  rcases h with h | h
  · rw [outlane_uint _ (by rw [describe_uint h])]
    split_ifs <;> rfl
  · rw [describe_binary h]
    rfl

theorem laneValue_signed (h : d.kind = .int ∨ d.kind = .ternary ∨ d.kind = .bipolar) (y : Nat) :
    laneValue (outlane (describe d)) y = .int (signed (outBits d) y) := by
  rcases h with h | h | h
  · rw [outBits, outlane_int _ (by rw [describe_int h])]
    split_ifs <;> rfl
  · rw [outBits, describe_ternary h]
    rfl
  · rw [outBits, describe_bipolar h]
    rfl

/-- A signed lane wide enough for w bits holds every w-bit integer (R151). -/
theorem laneValue_bitsOf (h : d.kind = .int ∨ d.kind = .ternary ∨ d.kind = .bipolar) {w : Nat} {v : Int} (hw1 : 1 ≤ w)
    (hw : w ≤ outBits d) (hlo : -(2 ^ (w - 1) : Nat) ≤ v) (hhi : v < (2 ^ (w - 1) : Nat)) :
    laneValue (outlane (describe d)) (bitsOf (outBits d) v) = .int v := by
  have hpow : 2 ^ (w - 1) ≤ 2 ^ (outBits d - 1) := Nat.pow_le_pow_right (by decide) (by omega)
  rw [laneValue_signed h, signed_bitsOf (by omega) (by omega) (by omega)]

theorem decLane_unsigned (h : d.kind = .uint ∨ d.kind = .binary) (raw : Nat) : decLane (describe d) raw = raw := by
  rcases h with h | h
  · rw [describe_uint h]
    rfl
  · rw [describe_binary h]
    rfl

theorem decLane_signed (h : d.kind = .int ∨ d.kind = .ternary) (raw : Nat) :
    decLane (describe d) raw = bitsOf (outBits d) (signed (describe d).w raw) := by
  rcases h with h | h
  · rw [outBits, describe_int h]
    rfl
  · rw [outBits, describe_ternary h]
    rfl

theorem decLane_bipolar (h : d.kind = .bipolar) (raw : Nat) :
    decLane (describe d) raw = bitsOf (outBits d) (if raw = 1 then 1 else -1) := by
  rw [outBits, describe_bipolar h]
  rfl

theorem decLane_float32 (h : d.kind = .float32) (raw : Nat) : decLane (describe d) raw = raw := by
  rw [describe_float32 h]
  rfl

theorem decLane_fixed (h : d.kind = .fixed) (raw : Nat) :
    decLane (describe d) raw = rne32 (signed (describe d).w raw) (-d.frac) := by
  rw [describe_fixed h]
  rfl

theorem outlane_fixed (h : d.kind = .fixed) : outlane (describe d) = .f32 := by
  rw [describe_fixed h]
  rfl

theorem outlane_float32 (h : d.kind = .float32) : outlane (describe d) = .f32 := by
  rw [describe_float32 h]
  rfl

/-- The lane holds the field's integer: zero-extended for UINT and BINARY (R151). -/
theorem laneValue_decLane_unsigned (h : d.kind = .uint ∨ d.kind = .binary) (raw : Nat) :
    laneValue (outlane (describe d)) (decLane (describe d) raw) = .int raw := by
  rw [decLane_unsigned h, laneValue_unsigned h]

theorem signedKind_width (hd : dtypeValid d = true) (h : d.kind = .int ∨ d.kind = .ternary) :
    (describe d).w ≤ outBits d := by
  have hw := describe_w hd
  rcases h with h | h
  · have := width_le_outBits_int h (by rw [describe_int h] at hw; exact hw.2)
    rwa [describe_int h]
  · rw [outBits, describe_ternary h]
    decide

/-- Sign-extended for INT and TERNARY (R151). -/
theorem laneValue_decLane_signed (hd : dtypeValid d = true) (h : d.kind = .int ∨ d.kind = .ternary) {raw : Nat}
    (hraw : raw < 2 ^ (describe d).w) :
    laneValue (outlane (describe d)) (decLane (describe d) raw) = .int (signed (describe d).w raw) := by
  have hw := (describe_w hd).1
  obtain ⟨hlo, hhi⟩ := signed_bounds hw hraw
  rw [decLane_signed h]
  exact laneValue_bitsOf (h.imp_right .inl) hw (signedKind_width hd h) hlo hhi

/-- +1 or -1 for BIPOLAR (R151). -/
theorem laneValue_decLane_bipolar (h : d.kind = .bipolar) (raw : Nat) :
    laneValue (outlane (describe d)) (decLane (describe d) raw) = .int (if raw = 1 then 1 else -1) := by
  rw [decLane_bipolar h]
  refine laneValue_bitsOf (w := 2) (.inr (.inr h)) (by decide) ?_ ?_ ?_
  · rw [outBits, describe_bipolar h]
    decide
  · split_ifs <;> decide
  · split_ifs <;> decide

/-- A decoded lane is a pattern of its lane format. -/
theorem decLane_lt (hd : dtypeValid d = true) {raw : Nat} (hraw : raw < 2 ^ (describe d).w) :
    decLane (describe d) raw < 2 ^ outBits d := by
  rcases (dtypeValid_iff d).1 hd with ⟨h, -, hw, -⟩ | ⟨h, -⟩ | ⟨h, -⟩ | ⟨h, -⟩ | ⟨h, -⟩ | ⟨h, -⟩ | ⟨h, -⟩
  · rw [decLane_unsigned (.inl h)]
    rw [describe_uint h] at hraw
    exact hraw.trans_le (Nat.pow_le_pow_right (by decide) (width_le_outBits_uint h hw))
  · rw [decLane_signed (.inl h)]
    exact bitsOf_lt _ _
  · rw [decLane_fixed h, outBits, outlane_fixed h]
    exact rne32_lt _ _
  · rw [decLane_float32 h, outBits, outlane_float32 h]
    rwa [describe_float32 h] at hraw
  · rw [decLane_unsigned (.inr h), outBits, describe_binary h]
    rw [describe_binary h] at hraw
    exact hraw.trans (by decide)
  · rw [decLane_signed (.inr h)]
    exact bitsOf_lt _ _
  · rw [decLane_bipolar h]
    exact bitsOf_lt _ _

/-- A FIXED integer of at most 25 bits, in its lane, has its exact value (R153). -/
theorem fixed_isReal (hd : dtypeValid d = true) (h : d.kind = .fixed) (hw : d.width ≤ 25) {t : Int}
    (hlo : -(2 ^ (d.width - 1) : Nat) ≤ t) (hhi : t < (2 ^ (d.width - 1) : Nat)) :
    FVal.IsReal (f32Val (rne32 t (-d.frac))) (t / 2 ^ d.frac) := by
  have hvalid : d.width ≤ 64 ∧ d.frac ≤ d.width - 1 := by
    have := hd
    simp only [dtypeValid, h, decide_eq_true_eq] at this
    exact this.2
  have hpow : 2 ^ (d.width - 1) ≤ 2 ^ 24 := Nat.pow_le_pow_right (by decide) (by omega)
  have hreal := rne32_exact (num := t) (exp := -d.frac) (by omega) (by omega) (by omega)
  rwa [zpow_neg, zpow_natCast, ← div_eq_mul_inv] at hreal

theorem fixed_decLane_isReal (hd : dtypeValid d = true) (h : d.kind = .fixed) (hw : d.width ≤ 25) {raw : Nat}
    (hraw : raw < 2 ^ (describe d).w) :
    FVal.IsReal (f32Val (decLane (describe d) raw)) ((signed (describe d).w raw : ℚ) / 2 ^ d.frac) := by
  obtain ⟨hlo, hhi⟩ := signed_bounds (describe_w hd).1 hraw
  have hw' : (describe d).w = d.width := by rw [describe_fixed h]
  rw [hw'] at hlo hhi ⊢
  rw [decLane_fixed h, hw']
  exact fixed_isReal hd h hw hlo hhi

/-- Settles O35: the table of R152, and the lanes by kind. -/
theorem lanesHoldTheFieldValue : Obligations.LanesHoldTheFieldValue := by
  intro d raw hd hraw
  refine ⟨fun h => ?_, fun h => ?_, fun h => ?_, fun h => ?_, fun h => ?_, decLane_lt hd hraw,
    fun h => laneValue_decLane_unsigned h raw, fun h => laneValue_decLane_signed hd h hraw,
    fun h => laneValue_decLane_bipolar h raw, fun h => decLane_float32 h raw, fun h => decLane_fixed h raw,
    fun h hw => fixed_decLane_isReal hd h hw hraw⟩
  · rw [outlane_uint _ (by rw [describe_uint h]), describe_uint h]
  · rw [outlane_int _ (by rw [describe_int h]), describe_int h]
  · rw [describe_binary h]
    rfl
  · rcases h with h | h
    · rw [describe_ternary h]
      rfl
    · rw [describe_bipolar h]
      rfl
  · exact h.elim outlane_fixed outlane_float32

/-! ### The round trips (R154) -/

/-- Decoding then encoding a field gives it back, FIXED up to 25 bits. -/
theorem encField_decLane (hd : dtypeValid d = true) (hfix : d.kind = .fixed → d.width ≤ 25) {raw : Nat}
    (hraw : raw < 2 ^ (describe d).w) (k : Nat) :
    encField (describe d) (outlane (describe d)) k (decLane (describe d) raw) = raw := by
  have hw := describe_w hd
  have unsigned (h : d.kind = .uint ∨ d.kind = .binary) :
      intField (describe d) k (laneValue (outlane (describe d)) (decLane (describe d) raw)) = raw := by
    rw [laneValue_decLane_unsigned h, intField, fieldOf, bitsOf_natCast, Nat.mod_eq_of_lt hraw]
  have twos (h : d.kind = .int ∨ d.kind = .ternary) :
      intField (describe d) k (laneValue (outlane (describe d)) (decLane (describe d) raw)) = raw := by
    rw [laneValue_decLane_signed hd h hraw, intField, fieldOf, bitsOf_signed hw.1 hraw]
  rcases (dtypeValid_iff d).1 hd with ⟨h, -⟩ | ⟨h, -⟩ | ⟨h, -⟩ | ⟨h, -⟩ | ⟨h, -⟩ | ⟨h, -⟩ | ⟨h, -⟩
  · rw [encField_integer (.inl h), unsigned (.inl h)]
  · rw [encField_integer (.inr (.inl h)), twos (.inl h)]
  · have hreal := fixed_decLane_isReal hd h (hfix h) hraw
    obtain ⟨hlo, hhi⟩ := signed_bounds hw.1 hraw
    have hpow : 2 ^ ((describe d).w - 1) ≤ 2 ^ 63 := Nat.pow_le_pow_right (by decide) (by omega)
    have hconv := convScaled_of_int hreal (div_mul_cancel₀ _ (by positivity)) (by omega) (by omega)
    rw [encField_fixed h, outlane_fixed h, laneValue, fixedField,
      show (describe d).fracBits = d.frac by rw [describe_fixed h], hconv, fieldOf, bitsOf_signed hw.1 hraw]
  · rw [encField_float32 h, outlane_float32 h, decLane_float32 h, f32Field]
  · rw [encField_integer (.inr (.inr (.inl h))), unsigned (.inr h)]
  · rw [encField_integer (.inr (.inr (.inr h))), twos (.inr h)]
  · have hbit : raw < 2 := by rwa [describe_bipolar h] at hraw
    rw [encField_bipolar h, laneValue_decLane_bipolar h]
    interval_cases raw <;> rfl

/-- An integer lane in the range of a signed D returns (R154). -/
theorem decLane_intField_signed (hd : dtypeValid d = true) (h : d.kind = .int ∨ d.kind = .ternary) {v : Int}
    (hlo : -(2 ^ ((describe d).w - 1) : Nat) ≤ v) (hhi : v < (2 ^ ((describe d).w - 1) : Nat)) :
    laneValue (outlane (describe d)) (decLane (describe d) (intField (describe d) k (.int v))) = .int v := by
  rw [intField, fieldOf, laneValue_decLane_signed hd h (bitsOf_lt _ _), signed_bitsOf (describe_w hd).1 hlo hhi]

theorem decLane_intField_unsigned (h : d.kind = .uint ∨ d.kind = .binary) {v : Int} (hlo : 0 ≤ v)
    (hhi : v < (2 ^ (describe d).w : Nat)) :
    laneValue (outlane (describe d)) (decLane (describe d) (intField (describe d) k (.int v))) = .int v := by
  rw [intField, fieldOf, laneValue_decLane_unsigned h, bitsOf_cast, Int.emod_eq_of_lt hlo hhi]

/-- A float lane in the range of a FIXED D returns within the step, and exactly on the grid (R154). -/
theorem fixed_roundTrip (hd : dtypeValid d = true) (h : d.kind = .fixed) (hw : d.width ≤ 25) {v : FVal} {u : ℚ}
    (hv : FVal.IsReal v u) (hlo : -2 ^ (d.width - 1) / 2 ^ d.frac ≤ u) (hhi : u ≤ (2 ^ (d.width - 1) - 1) / 2 ^ d.frac) :
    ∃ w : ℚ, FVal.IsReal (f32Val (decLane (describe d) (fixedField (describe d) k (.flt v)))) w ∧
      |w - u| < 1 / 2 ^ d.frac ∧ ((∃ z : Int, u * 2 ^ d.frac = z) → w = u) := by
  have hpos : (0 : ℚ) < 2 ^ d.frac := by positivity
  have hw1 : 1 ≤ d.width := by
    have := (describe_w hd).1
    rwa [describe_fixed h] at this
  obtain ⟨t, htrunc, hconv⟩ := exists_truncation hv d.frac
  rw [div_le_iff₀ hpos] at hlo
  rw [le_div_iff₀ hpos] at hhi
  have hbound : -(2 ^ (d.width - 1) : Nat) ≤ t ∧ t < (2 ^ (d.width - 1) : Nat) := by
    have hone : (1 : ℚ) ≤ 2 ^ (d.width - 1) := one_le_pow₀ (by norm_num)
    have hq : -(2 ^ (d.width - 1)) ≤ (t : ℚ) ∧ (t : ℚ) < 2 ^ (d.width - 1) := by
      rcases htrunc.bracket with ⟨h0, hle, -⟩ | ⟨hle, h0, -⟩
      · exact ⟨by linarith, by linarith⟩
      · exact ⟨by linarith, by linarith⟩
    exact_mod_cast hq
  have hpow : 2 ^ (d.width - 1) ≤ 2 ^ 24 := Nat.pow_le_pow_right (by decide) (by omega)
  have hfield : fixedField (describe d) k (.flt v) = bitsOf d.width t := by
    rw [describe_fixed h, fixedField, hconv (by omega) (by omega), fieldOf]
  have hlane : decLane (describe d) (bitsOf d.width t) = rne32 t (-d.frac) := by
    rw [decLane_fixed h, describe_fixed h, signed_bitsOf hw1 hbound.1 hbound.2]
  have hnear : |(t : ℚ) - u * 2 ^ d.frac| < 1 := by
    rw [abs_lt]
    rcases htrunc.bracket with ⟨-, hle, hlt⟩ | ⟨hle, -, hlt⟩
    · exact ⟨by linarith, by linarith⟩
    · exact ⟨by linarith, by linarith⟩
  refine ⟨t / 2 ^ d.frac, ?_, ?_, fun ⟨z, hz⟩ => ?_⟩
  · rw [hfield, hlane]
    exact fixed_isReal hd h hw hbound.1 hbound.2
  · rwa [lt_div_iff₀ hpos, ← abs_of_pos hpos, ← abs_mul, abs_of_pos hpos, sub_mul, div_mul_cancel₀ _ hpos.ne']
  · have hint : TruncatesTo (z : ℚ) t := hz ▸ htrunc
    rw [hint.eq_of_int, ← hz, mul_div_cancel_right₀ _ hpos.ne']

/-- Settles O36: the round trips by kind. -/
theorem fieldRoundTrip : Obligations.FieldRoundTrip := by
  intro d L k x hd
  refine ⟨fun v hv hrange => ?_, fun h _ => ?_, fun h hw v u hv hu hlo hhi => ?_⟩
  · rcases hrange with ⟨h, hlo, hhi⟩ | ⟨h, hlo, hhi⟩ | ⟨h, hv01⟩ | ⟨h, hv3⟩ | ⟨h, hv2⟩
    · rw [encField_integer (.inl h), hv]
      exact decLane_intField_unsigned (.inl h) hlo (by rw [describe_uint h]; exact_mod_cast hhi)
    · rw [encField_integer (.inr (.inl h)), hv]
      exact decLane_intField_signed hd (.inl h) (by rw [describe_int h]; exact_mod_cast hlo)
        (by rw [describe_int h]; exact_mod_cast hhi)
    · rw [encField_integer (.inr (.inr (.inl h))), hv]
      have hw : (describe d).w = 1 := by rw [describe_binary h]
      exact decLane_intField_unsigned (.inr h) (by omega) (by rw [hw]; omega)
    · rw [encField_integer (.inr (.inr (.inr h))), hv]
      have hw : (describe d).w = 2 := by rw [describe_ternary h]
      exact decLane_intField_signed hd (.inr h) (by rw [hw]; omega) (by rw [hw]; omega)
    · rw [encField_bipolar h, hv, laneValue_decLane_bipolar h]
      rcases hv2 with rfl | rfl <;> rfl
  · rw [encField_float32 h, decLane_float32 h, f32Field]
  · rw [encField_fixed h, hv]
    exact fixed_roundTrip hd h hw hu hlo hhi

end Sys2Proof.Machine
end

section
/-! PROOF. PACK and UNPACK (42_codec.md R130, R139, R140, R149, R150, R154): each is its checks in order, then one
completion over one change of DMEM. -/

namespace Sys2Proof.Machine

variable {s : State} {d : DType} {L : LaneFmt}

/-! ### Ranges and runs of bytes -/

theorem rangesMeet_iff (a n b m : Nat) : rangesMeet a n b m ↔ ∃ x, a ≤ x ∧ x < a + n ∧ b ≤ x ∧ x < b + m := by
  refine ⟨fun h => ⟨max a b, ?_⟩, fun ⟨x, h⟩ => ?_⟩ <;> simp only [rangesMeet] at * <;> omega

theorem not_rangesMeet {a n b m : Nat} (h : a + n ≤ b ∨ b + m ≤ a) : ¬ rangesMeet a n b m := by
  rw [rangesMeet_iff]
  rintro ⟨x, h1, h2, h3, h4⟩
  omega

/-- Bit j of field i lies among the bits of n fields (R62). -/
theorem field_bit_lt {i j n w : Nat} (hi : i < n) (hj : j < w) : i * w + j < n * w := by
  have := Nat.mul_le_mul_right w hi
  rw [Nat.succ_mul] at this
  omega

/-- Inside their range, written lanes do not depend on the DMEM before. -/
theorem byte_writeLanes_inside (m m' : Memory) (a b : Nat) (l : List Nat) {x : Nat} (hlo : a ≤ x)
    (hhi : x < a + l.length * b) : (writeLanes m a b l).byte x = (writeLanes m' a b l).byte x := by
  induction l generalizing m m' a with
  | nil => simp at hhi; omega
  | cons v t ih =>
    rw [List.length_cons, Nat.succ_mul] at hhi
    rw [writeLanes, writeLanes]
    by_cases hx : x < a + b
    · rw [byte_writeLanes_outside _ _ _ _ _ (by omega), byte_writeLanes_outside _ _ _ _ _ (by omega), byte_memWrite,
        byte_memWrite, if_pos ⟨hlo, hx⟩, if_pos ⟨hlo, hx⟩]
    · exact ih _ _ _ (by omega) (by omega)

/-! ### PACK as its checks and its effect -/

/-- The bytes of n fields of D (R139). -/
abbrev packBytes (n : Nat) (d : DType) : Nat := ceilDiv (n * (describe d).w) 8

theorem packBytes_bounds (n : Nat) (d : DType) :
    n * (describe d).w ≤ 8 * packBytes n d ∧ 8 * packBytes n d < n * (describe d).w + 8 := ceilDiv_eight _

/-- The checks of PACK after CFGERR, in their order (R85, R139). -/
def packCheck (s : State) (L : LaneFmt) (d : DType) : Option ErrCode :=
  if dtypeValid d = false then some .config
  else if ¬ s.inRange s.port.lop.op0.toNat (s.port.lop.op1.toNat * laneBytes L) then some .addr
  else if ¬ s.inRange s.port.lop.op2.toNat (packBytes s.port.lop.op1.toNat d) then some .addr
  else if 0 < s.port.lop.op1.toNat ∧ rangesMeet s.port.lop.op0.toNat (s.port.lop.op1.toNat * laneBytes L)
    s.port.lop.op2.toNat (packBytes s.port.lop.op1.toNat d) then some .overlap
  else none

/-- DMEM after PACK (R139). -/
def packMemory (s : State) (L : LaneFmt) (d : DType) : Memory :=
  memWrite s.dmem s.port.lop.op2.toNat (packBytes s.port.lop.op1.toNat d)
    (packSum (describe d).w (packFields s (describe d) L s.port.lop.op0.toNat s.port.lop.op1.toNat))

/-- The machine after PACK, before the port completes. -/
def packState (s : State) (L : LaneFmt) (d : DType) : State :=
  { s with dmem := packMemory s L d, draws := s.draws + s.port.lop.op1.toNat }

/-- A PACK that passes its checks. -/
def packDone (s : State) (L : LaneFmt) (d : DType) : State :=
  (packState s L d).complete true (packBytes s.port.lop.op1.toNat d)
    (8 * packBytes s.port.lop.op1.toNat d - s.port.lop.op1.toNat * (describe d).w)

theorem exec_pack (hs : Issued s) (L : LaneFmt) (d : DType) :
    exec (.pack L d) s = .next ((packCheck s L d).elim (packDone s L d) s.raiseError) := by
  unfold packCheck
  cases hd : dtypeValid d with
  | false => exact checked_descriptor_invalid hs hd _
  | true =>
    refine (checked_descriptor hs hd _).trans ?_
    rw [if_neg (show ¬ true = false by decide)]
    dsimp only [State.lop, packBytes]
    split_ifs <;> rfl

theorem packCheck_eq_none_iff :
    packCheck s L d = none ↔ dtypeValid d = true ∧
      s.port.lop.op0.toNat + s.port.lop.op1.toNat * laneBytes L ≤ s.cfg.dmemBytes ∧
      s.port.lop.op2.toNat + packBytes s.port.lop.op1.toNat d ≤ s.cfg.dmemBytes ∧
      (s.port.lop.op1.toNat = 0 ∨ ¬ rangesMeet s.port.lop.op0.toNat (s.port.lop.op1.toNat * laneBytes L)
        s.port.lop.op2.toNat (packBytes s.port.lop.op1.toNat d)) := by
  have branch {c : Prop} [Decidable c] {e : ErrCode} {o : Option ErrCode} :
      (if c then some e else o) = none ↔ ¬ c ∧ o = none := by split_ifs <;> simp [*]
  rw [packCheck, branch, branch, branch, branch, not_not, not_not, not_and_or, Nat.not_lt, Nat.le_zero,
    Bool.not_eq_false, and_iff_left rfl]

theorem packCheck_ne_noError : packCheck s L d ≠ some .noError := by
  unfold packCheck
  split_ifs <;> simp

theorem slotsOnly_packState : SlotsOnly s (packState s L d) := ⟨rfl, rfl, rfl, rfl, rfl, rfl, rfl⟩

theorem packDone_port (hs : Issued s) :
    (packDone s L d).port = { s.port with
      res0 := BitVec.ofNat 64 (packBytes s.port.lop.op1.toNat d)
      res1 := BitVec.ofNat 64 (8 * packBytes s.port.lop.op1.toNat d - s.port.lop.op1.toNat * (describe d).w)
      status := s.port.status.onComplete true
      phase := .idle } :=
  port_complete _ _ _ (slotsOnly_packState.cur_lt hs.exists_port)

/-- Bit j of field i in the packed stream (R62, R139). -/
theorem streamBit_packMemory (hd : dtypeValid d = true) {i j : Nat} (hi : i < s.port.lop.op1.toNat)
    (hj : j < (describe d).w) :
    streamBit (packMemory s L d) s.port.lop.op2.toNat (i * (describe d).w + j) =
      (encField (describe d) L (s.draws + i)
        (memRead s.dmem (s.port.lop.op0.toNat + i * laneBytes L) (laneBytes L))).testBit j := by
  have hbit := field_bit_lt hi hj
  have hbytes := packBytes_bounds s.port.lop.op1.toNat d
  rw [packMemory, streamBit_memWrite _ _ _ _ _ (by omega),
    testBit_packSum (packFields_lt s hd L _ _) (by rwa [packFields_length]) hj, getD_packFields _ _ _ _ _ _ hi]

/-- The padding bits are 0 (R63, R139). -/
theorem streamBit_packMemory_padding (hd : dtypeValid d = true) {k : Nat}
    (hlo : s.port.lop.op1.toNat * (describe d).w ≤ k) (hhi : k < 8 * packBytes s.port.lop.op1.toNat d) :
    streamBit (packMemory s L d) s.port.lop.op2.toNat k = false := by
  have hsum := packSum_lt (packFields_lt s hd L s.port.lop.op0.toNat s.port.lop.op1.toNat)
  rw [packFields_length] at hsum
  rw [packMemory, streamBit_memWrite _ _ _ _ _ hhi]
  exact Nat.testBit_lt_two_pow (hsum.trans_le (Nat.pow_le_pow_right (by decide) hlo))

/-- Settles O26: `packCheck` passes, and the stream bits of `packMemory`. -/
theorem packLaysFieldsEndToEnd : Obligations.PackLaysFieldsEndToEnd := by
  intro s L d hs hd src n dst W nb hsrc hdst hdis
  have hcheck : packCheck s L d = none := by
    refine packCheck_eq_none_iff.2 ⟨hd, hsrc, hdst, hdis.imp_right not_rangesMeet⟩
  have hbytes := packBytes_bounds n d
  refine ⟨packDone s L d, by rw [exec_pack hs, hcheck]; rfl, slotsOnly_packState.completes hs.exists_port _ _ _, rfl,
    rfl, rfl, rfl, fun x hx => ?_, fun i j hi hj => streamBit_packMemory hd hi hj,
    fun k hlo hhi => streamBit_packMemory_padding hd hlo hhi, hbytes.2, hbytes.1⟩
  exact (byte_memWrite _ _ _ _ _).trans (if_neg hx)

/-- Settles O27: the branches of `packCheck`. -/
theorem packErrorsInOrder : Obligations.PackErrorsInOrder := by
  intro s L d hs hd src n dst nb
  refine ⟨fun h => ?_, fun hsrc hdst hmeet => ?_⟩
  · have hcheck : packCheck s L d = some .addr := by
      rw [packCheck, if_neg (by simp [hd])]
      by_cases hsrc : s.inRange src (n * laneBytes L)
      · rw [if_neg (not_not.2 hsrc), if_pos (not_le.2 (h.resolve_left (not_lt.2 hsrc)))]
      · rw [if_pos hsrc]
    rw [exec_pack hs, hcheck]
    rfl
  · have hn : 0 < n := by
      obtain ⟨x, hlo, hhi, -⟩ := hmeet
      exact Nat.pos_of_ne_zero fun h0 => by rw [h0] at hhi; omega
    have hcheck : packCheck s L d = some .overlap := by
      rw [packCheck, if_neg (by simp [hd]), if_neg (not_not.2 hsrc), if_neg (not_not.2 hdst),
        if_pos ⟨hn, (rangesMeet_iff _ _ _ _).2 hmeet⟩]
    rw [exec_pack hs, hcheck]
    rfl

/-! ### UNPACK as its checks and its effect -/

/-- The fields in `len` bytes of which `p` bits are padding (R149). -/
abbrev unpackCount (s : State) (d : DType) : Nat :=
  (8 * s.port.lop.op1.toNat - s.port.lop.op2.toNat) / (describe d).w

/-- The bytes of a lane of `outlane(D)`. -/
abbrev outBytes (d : DType) : Nat := laneBytes (outlane (describe d))

/-- The checks of UNPACK after CFGERR, in their order (R85, R149). -/
def unpackCheck (s : State) (d : DType) : Option ErrCode :=
  if dtypeValid d = false then some .config
  else if s.port.lop.op1.toNat = 0 then some .empty
  else if 7 < s.port.lop.op2.toNat then some .shape
  else if (8 * s.port.lop.op1.toNat - s.port.lop.op2.toNat) % (describe d).w ≠ 0 then some .shape
  else if ¬ s.inRange s.port.lop.op0.toNat s.port.lop.op1.toNat then some .addr
  else if ¬ s.inRange s.port.lop.op3.toNat (unpackCount s d * outBytes d) then some .addr
  else if rangesMeet s.port.lop.op0.toNat s.port.lop.op1.toNat s.port.lop.op3.toNat (unpackCount s d * outBytes d) then
    some .overlap
  else none

/-- The lanes that UNPACK writes (R150). -/
def unpackLanes (s : State) (d : DType) : List Nat :=
  (List.range (unpackCount s d)).map fun i =>
    decLane (describe d) (rawField s.dmem s.port.lop.op0.toNat s.port.lop.op1.toNat (describe d).w i)

/-- DMEM after UNPACK (R150). -/
def unpackMemory (s : State) (d : DType) : Memory :=
  writeLanes s.dmem s.port.lop.op3.toNat (outBytes d) (unpackLanes s d)

/-- An UNPACK that passes its checks. -/
def unpackDone (s : State) (d : DType) : State :=
  (s.setMem (unpackMemory s d)).complete true (unpackCount s d) (outlane (describe d)).code

theorem exec_unpack (hs : Issued s) (d : DType) :
    exec (.unpack d) s = .next ((unpackCheck s d).elim (unpackDone s d) s.raiseError) := by
  unfold unpackCheck
  cases hd : dtypeValid d with
  | false => exact checked_descriptor_invalid hs hd _
  | true =>
    refine (checked_descriptor hs hd _).trans ?_
    rw [if_neg (show ¬ true = false by decide)]
    dsimp only [State.lop, unpackCount]
    split_ifs <;> rfl

theorem unpackLanes_length : (unpackLanes s d).length = unpackCount s d := by simp [unpackLanes]

theorem getD_unpackLanes {i : Nat} (hi : i < unpackCount s d) :
    (unpackLanes s d).getD i 0 =
      decLane (describe d) (rawField s.dmem s.port.lop.op0.toNat s.port.lop.op1.toNat (describe d).w i) := by
  simp [unpackLanes, List.getD, hi]

/-- Lane i after UNPACK decodes field i (R150). -/
theorem memRead_unpackMemory (hd : dtypeValid d = true) {i : Nat} (hi : i < unpackCount s d) :
    memRead (unpackMemory s d) (s.port.lop.op3.toNat + i * outBytes d) (outBytes d) =
      decLane (describe d) (rawField s.dmem s.port.lop.op0.toNat s.port.lop.op1.toNat (describe d).w i) := by
  rw [unpackMemory, memRead_writeLanes _ _ _ _ _ (by rwa [unpackLanes_length]), getD_unpackLanes hi,
    Nat.mod_eq_of_lt (decLane_lt hd (rawField_lt _ _ _ _ _))]

theorem unpackDone_port (hs : Issued s) :
    (unpackDone s d).port = { s.port with
      res0 := BitVec.ofNat 64 (unpackCount s d)
      res1 := BitVec.ofNat 64 (outlane (describe d)).code
      status := s.port.status.onComplete true
      phase := .idle } :=
  port_complete _ _ _ ((slotsOnly_setMem s _).cur_lt hs.exists_port)

theorem unpackCheck_ne_noError : unpackCheck s d ≠ some .noError := by
  unfold unpackCheck
  split_ifs <;> simp

/-- The checks of UNPACK pass when every condition of R149 holds. -/
theorem unpackCheck_eq_none (hd : dtypeValid d = true) (hlen : s.port.lop.op1.toNat ≠ 0) (hp : s.port.lop.op2.toNat ≤ 7)
    (hmod : (8 * s.port.lop.op1.toNat - s.port.lop.op2.toNat) % (describe d).w = 0)
    (hsrc : s.inRange s.port.lop.op0.toNat s.port.lop.op1.toNat)
    (hdst : s.inRange s.port.lop.op3.toNat (unpackCount s d * outBytes d))
    (hdis : s.port.lop.op0.toNat + s.port.lop.op1.toNat ≤ s.port.lop.op3.toNat ∨
      s.port.lop.op3.toNat + unpackCount s d * outBytes d ≤ s.port.lop.op0.toNat) : unpackCheck s d = none := by
  rw [unpackCheck, if_neg (by simp [hd]), if_neg hlen, if_neg (not_lt.2 hp), if_neg (not_not.2 hmod),
    if_neg (not_not.2 hsrc), if_neg (not_not.2 hdst), if_neg (not_rangesMeet hdis)]

/-- Settles O33: `unpackCheck` passes, and the lanes of `unpackMemory`. -/
theorem unpackExtractsEveryField : Obligations.UnpackExtractsEveryField := by
  intro s d hs hd src len p dst W lb n hlen hp hmod hsrc hdst hdis
  have hcheck : unpackCheck s d = none := unpackCheck_eq_none hd hlen hp hmod hsrc hdst hdis
  have htotal : n * W = 8 * len - p := Nat.div_mul_cancel (Nat.dvd_of_mod_eq_zero hmod)
  refine ⟨unpackDone s d, by rw [exec_unpack hs, hcheck]; rfl, (slotsOnly_setMem s _).completes hs.exists_port _ _ _,
    rfl, rfl, rfl, rfl, keepsMemOutside_writeLanes rfl unpackLanes_length, ?_, fun i hi => ?_⟩
  · refine Nat.pos_of_ne_zero fun h0 => ?_
    rw [h0] at htotal
    omega
  · refine ⟨_, rawField_lt s.dmem src len W i, fun j hj => ?_, memRead_unpackMemory hd hi⟩
    have := field_bit_lt hi hj
    exact testBit_rawField _ _ _ _ _ _ hj (by omega)

/-- Settles O34: the branches of `unpackCheck`. -/
theorem unpackErrorsInOrder : Obligations.UnpackErrorsInOrder := by
  intro s d hs hd src len p dst W m
  have answers {e : ErrCode} (h : unpackCheck s d = some e) : exec (.unpack d) s = .next (s.raiseError e) := by
    rw [exec_unpack hs, h]
    rfl
  have hvalid : ¬ dtypeValid d = false := by simp [hd]
  refine ⟨fun hlen => answers ?_, fun hlen hshape => answers ?_, fun hlen hp hmod haddr => answers ?_,
    fun hlen hp hmod hsrc hdst hmeet => answers ?_⟩
  · rw [unpackCheck, if_neg hvalid, if_pos hlen]
  · rw [unpackCheck, if_neg hvalid, if_neg hlen]
    by_cases hp : 7 < p
    · rw [if_pos hp]
    · rw [if_neg hp, if_pos (hshape.resolve_left hp)]
  · rw [unpackCheck, if_neg hvalid, if_neg hlen, if_neg (not_lt.2 hp), if_neg (not_not.2 hmod)]
    by_cases hsrc : s.inRange src len
    · rw [if_neg (not_not.2 hsrc), if_pos (not_le.2 (haddr.resolve_left (not_lt.2 hsrc)))]
    · rw [if_pos hsrc]
  · rw [unpackCheck, if_neg hvalid, if_neg hlen, if_neg (not_lt.2 hp), if_neg (not_not.2 hmod), if_neg (not_not.2 hsrc),
      if_neg (not_not.2 hdst), if_pos ((rangesMeet_iff _ _ _ _).2 hmeet)]

/-! ### The codec is a function of its operands and its source (R130) -/

section Dependence

variable {s' : State}

/-- An error shows the same in two ports. -/
theorem raiseError_agrees (hs : Issued s) (hs' : Issued s') (e : ErrCode) :
    (s'.raiseError e).port.res0 = (s.raiseError e).port.res0 ∧ (s'.raiseError e).port.res1 = (s.raiseError e).port.res1 ∧
      (s'.raiseError e).port.status.err = (s.raiseError e).port.status.err := by
  rw [port_raiseError e hs.exists_port, port_raiseError e hs'.exists_port]
  exact ⟨rfl, rfl, rfl⟩

theorem packCheck_congr (hcfg : s'.cfg = s.cfg) (hlop : s'.port.lop = s.port.lop) :
    packCheck s' L d = packCheck s L d := by
  simp only [packCheck, State.inRange, hcfg, hlop]

theorem unpackCheck_congr (hcfg : s'.cfg = s.cfg) (hlop : s'.port.lop = s.port.lop) :
    unpackCheck s' d = unpackCheck s d := by
  simp only [unpackCheck, State.inRange, unpackCount, hcfg, hlop]

theorem packFields_congr {src n : Nat} (hdraws : s'.draws = s.draws)
    (hsrc : ∀ x, src ≤ x → x < src + n * laneBytes L → s'.dmem.byte x = s.dmem.byte x) (D : Descriptor) :
    packFields s' D L src n = packFields s D L src n := by
  refine List.map_congr_left fun i hi => ?_
  have hbytes := Nat.mul_le_mul_right (laneBytes L) (List.mem_range.1 hi)
  rw [Nat.succ_mul] at hbytes
  rw [hdraws, memRead_congr fun x hlo hhi => hsrc x (by omega) (by omega)]

theorem unpackLanes_congr (hlop : s'.port.lop = s.port.lop)
    (hsrc : ∀ x, s.port.lop.op0.toNat ≤ x → x < s.port.lop.op0.toNat + s.port.lop.op1.toNat →
      s'.dmem.byte x = s.dmem.byte x) : unpackLanes s' d = unpackLanes s d := by
  simp only [unpackLanes, rawField, unpackCount, hlop, memRead_congr hsrc]

/-- The bytes that PACK writes depend on its fields alone. -/
theorem byte_packMemory {x : Nat} (hlo : s.port.lop.op2.toNat ≤ x)
    (hhi : x < s.port.lop.op2.toNat + packBytes s.port.lop.op1.toNat d) :
    (packMemory s L d).byte x = BitVec.ofNat 8
      (packSum (describe d).w (packFields s (describe d) L s.port.lop.op0.toNat s.port.lop.op1.toNat) /
        2 ^ (8 * (x - s.port.lop.op2.toNat))) :=
  (byte_memWrite _ _ _ _ _).trans (if_pos ⟨hlo, hhi⟩)

/-- Two completed PACKs agree where the first one's RES0 says bytes were written. -/
theorem packDone_agrees (hs : Issued s) (hs' : Issued s') (hdraws : s'.draws = s.draws)
    (hlop : s'.port.lop = s.port.lop)
    (hsrc : ∀ x, s.port.lop.op0.toNat ≤ x → x < s.port.lop.op0.toNat + s.port.lop.op1.toNat * laneBytes L →
      s'.dmem.byte x = s.dmem.byte x) :
    (packDone s' L d).port.res0 = (packDone s L d).port.res0 ∧ (packDone s' L d).port.res1 = (packDone s L d).port.res1 ∧
      (packDone s' L d).port.status.err = (packDone s L d).port.status.err ∧
      ∀ x, s.port.lop.op2.toNat ≤ x → x < s.port.lop.op2.toNat + (packDone s L d).port.res0.toNat →
        (packDone s' L d).dmem.byte x = (packDone s L d).dmem.byte x := by
  rw [packDone_port hs, packDone_port hs', hlop]
  refine ⟨rfl, rfl, rfl, fun x hlo hhi => ?_⟩
  have hres : (BitVec.ofNat 64 (packBytes s.port.lop.op1.toNat d)).toNat ≤ packBytes s.port.lop.op1.toNat d :=
    (BitVec.toNat_ofNat ..).trans_le (Nat.mod_le _ _)
  have hin := hhi.trans_le (Nat.add_le_add_left hres _)
  have hmem' := byte_packMemory (s := s') (L := L) (d := d) (x := x) (by rwa [hlop]) (by rwa [hlop])
  rw [hlop, packFields_congr hdraws hsrc] at hmem'
  exact hmem'.trans (byte_packMemory hlo hin).symm

/-- Two completed UNPACKs agree where the first one's RES0 says lanes were written. -/
theorem unpackDone_agrees (hs : Issued s) (hs' : Issued s') (hlop : s'.port.lop = s.port.lop)
    (hsrc : ∀ x, s.port.lop.op0.toNat ≤ x → x < s.port.lop.op0.toNat + s.port.lop.op1.toNat →
      s'.dmem.byte x = s.dmem.byte x) :
    (unpackDone s' d).port.res0 = (unpackDone s d).port.res0 ∧ (unpackDone s' d).port.res1 = (unpackDone s d).port.res1 ∧
      (unpackDone s' d).port.status.err = (unpackDone s d).port.status.err ∧
      ∀ x, s.port.lop.op3.toNat ≤ x → x < s.port.lop.op3.toNat + (unpackDone s d).port.res0.toNat * outBytes d →
        (unpackDone s' d).dmem.byte x = (unpackDone s d).dmem.byte x := by
  rw [unpackDone_port hs, unpackDone_port hs', unpackCount, hlop]
  refine ⟨rfl, rfl, rfl, fun x hlo hhi => ?_⟩
  have hres : (BitVec.ofNat 64 (unpackCount s d)).toNat ≤ unpackCount s d :=
    (BitVec.toNat_ofNat ..).trans_le (Nat.mod_le _ _)
  have hin := hhi.trans_le (Nat.add_le_add_left (Nat.mul_le_mul_right _ hres) _)
  change (unpackMemory s' d).byte x = (unpackMemory s d).byte x
  rw [unpackMemory, unpackMemory, hlop, unpackLanes_congr hlop hsrc]
  exact byte_writeLanes_inside _ _ _ _ _ hlo (by rwa [unpackLanes_length])

/-- Settles O38: the checks agree; an error shows the same, and so does what a completion writes. -/
theorem codecDependsOnItsSourceAlone : Obligations.CodecDependsOnItsSourceAlone := by
  intro s s' t fmt d hs hs' hcfg hdraws hlop
  refine ⟨fun hsrc ht => ⟨_, exec_pack hs' fmt d, ?_⟩, fun hsrc ht => ⟨_, exec_unpack hs' d, ?_⟩⟩
  · obtain rfl := Host.Outcome.next.inj ((exec_pack hs fmt d).symm.trans ht)
    rw [packCheck_congr hcfg hlop]
    cases hcheck : packCheck s fmt d with
    | none =>
      obtain ⟨h0, h1, he, hmem⟩ := packDone_agrees (d := d) hs hs' hdraws hlop hsrc
      exact ⟨h0, h1, he, fun _ => hmem⟩
    | some e =>
      obtain ⟨h0, h1, he⟩ := raiseError_agrees hs hs' e
      refine ⟨h0, h1, he, fun hok => ?_⟩
      rw [Option.elim_some, err_raiseError hs.exists_port] at hok
      exact (packCheck_ne_noError (hok ▸ hcheck)).elim
  · obtain rfl := Host.Outcome.next.inj ((exec_unpack hs d).symm.trans ht)
    rw [unpackCheck_congr hcfg hlop]
    cases hcheck : unpackCheck s d with
    | none =>
      obtain ⟨h0, h1, he, hmem⟩ := unpackDone_agrees (d := d) hs hs' hlop hsrc
      exact ⟨h0, h1, he, fun _ => hmem⟩
    | some e =>
      obtain ⟨h0, h1, he⟩ := raiseError_agrees hs hs' e
      refine ⟨h0, h1, he, fun hok => ?_⟩
      rw [Option.elim_some, err_raiseError hs.exists_port] at hok
      exact (unpackCheck_ne_noError (hok ▸ hcheck)).elim

end Dependence

/-! ### The round trip of the machine (R154) -/

/-- A PACK without an error has passed its checks. -/
theorem pack_done_of_noError {t : State} (hs : Issued s) (ht : exec (.pack L d) s = .next t)
    (he : t.port.status.err = .noError) : packCheck s L d = none ∧ t = packDone s L d := by
  obtain rfl := Host.Outcome.next.inj ((exec_pack hs L d).symm.trans ht)
  cases hcheck : packCheck s L d with
  | none => exact ⟨rfl, rfl⟩
  | some e =>
    rw [hcheck, Option.elim_some, err_raiseError hs.exists_port] at he
    exact (packCheck_ne_noError (he ▸ hcheck)).elim

/-- Extracting field i from what PACK wrote gives the field it encoded (R62). -/
theorem rawField_packMemory (hd : dtypeValid d = true) {i : Nat} (hi : i < s.port.lop.op1.toNat) :
    rawField (packMemory s L d) s.port.lop.op2.toNat (packBytes s.port.lop.op1.toNat d) (describe d).w i =
      encField (describe d) L (s.draws + i)
        (memRead s.dmem (s.port.lop.op0.toNat + i * laneBytes L) (laneBytes L)) := by
  have hfield := encField_lt hd L (s.draws + i) _
    (memRead_lt s.dmem (s.port.lop.op0.toNat + i * laneBytes L) (laneBytes L))
  refine Nat.eq_of_testBit_eq fun j => ?_
  by_cases hj : j < (describe d).w
  · have hbit := field_bit_lt hi hj
    have hbytes := packBytes_bounds s.port.lop.op1.toNat d
    rw [testBit_rawField _ _ _ _ _ _ hj (by omega), streamBit_packMemory hd hi hj]
  · have hpow := Nat.pow_le_pow_right (n := 2) (by decide) (not_lt.1 hj)
    rw [Nat.testBit_lt_two_pow ((rawField_lt _ _ _ _ _).trans_le hpow), Nat.testBit_lt_two_pow (hfield.trans_le hpow)]

/-- Settles O37: UNPACK passes its checks on PACK's results, and decoding undoes encoding field by field. -/
theorem unpackRestoresWhatPackPacked : Obligations.UnpackRestoresWhatPackPacked := by
  intro s t t' d hd hfix L lb src n dst out hs hn hlanes ht herr hs' hmem hcfg h0 h1 h2 hout hsize hdis
  obtain ⟨hcheck, rfl⟩ := pack_done_of_noError hs ht herr
  obtain ⟨-, -, hdst, -⟩ := packCheck_eq_none_iff.1 hcheck
  obtain ⟨hlo, hhi⟩ := packBytes_bounds n d
  have hw := (describe_w hd).1
  have hpos : 0 < n * (describe d).w := Nat.mul_pos hn hw
  have hcfg : t'.cfg = s.cfg := hcfg
  rw [packDone_port hs] at h1 h2 hdis
  have hlen : t'.port.lop.op1.toNat = packBytes n d := by
    rw [h1, BitVec.toNat_ofNat, Nat.mod_eq_of_lt]
    rw [hcfg] at hsize
    exact lt_of_le_of_lt ((Nat.le_add_left _ _).trans (hdst.trans hsize)) (by decide)
  have hpad : t'.port.lop.op2.toNat = 8 * packBytes n d - n * (describe d).w := by
    have hspare : 8 * packBytes n d - n * (describe d).w < 2 ^ 64 := by omega
    rw [h2, BitVec.toNat_ofNat]
    exact Nat.mod_eq_of_lt hspare
  have hbits : 8 * t'.port.lop.op1.toNat - t'.port.lop.op2.toNat = n * (describe d).w := by
    rw [hlen, hpad, Nat.sub_sub_self hlo]
  have hcount : unpackCount t' d = n := by rw [unpackCount, hbits, Nat.mul_div_cancel _ hw]
  have hsrc : t'.port.lop.op0.toNat = dst := by rw [h0]
  have hcheck' : unpackCheck t' d = none := by
    refine unpackCheck_eq_none hd (by omega) (by omega) (by rw [hbits, Nat.mul_mod_left]) ?_ ?_ ?_
    · rw [State.inRange, hsrc, hlen, hcfg]
      exact hdst
    · rw [State.inRange, hcount]
      exact hout
    · rw [hcount, hsrc, h1]
      exact hdis
  refine ⟨unpackDone t' d, by rw [exec_unpack hs', hcheck']; rfl, err_complete (slotsOnly_setMem t' _) hs'.exists_port _ _ _,
    by rw [unpackDone_port hs', hcount], fun i hi => ?_⟩
  obtain ⟨raw, hraw, hlane⟩ := hlanes i hi
  have hread := memRead_unpackMemory (s := t') hd (hcount.symm ▸ hi)
  have hmem : t'.dmem = packMemory s L d := hmem
  rw [hmem, hsrc, hlen, rawField_packMemory hd hi, hlane, encField_decLane hd hfix hraw, ← hlane] at hread
  exact hread

end Sys2Proof.Machine
end
